-- ==== Sys2Proof/Word.lean ====
section
/-! DEFINITION. The words of the BigIntRSA CORE: bus and command words, bytes, register numbers (10_state.md R21,
30_encoding.md R75). -/

namespace Sys2Proof

/-- A 32-bit bus word, command word or limb (00_scope.md R7, 30_encoding.md R75). -/
abbrev Word := BitVec 32

/-- One byte of the text buffer or of a bus access (10_state.md R33). -/
abbrev Byte := BitVec 8

/-- A value register number, V0 to V15 (10_state.md R21). -/
abbrev RegIx := Fin 16

end Sys2Proof
end

