-- ==== Sys2Proof/Syntax.lean ====
section
/-! DEFINITION. The 31 commands of spec/opcode_table.json, one constructor each (30_encoding.md R80). Operands are named
as in 00_scope.md R13. -/

namespace Sys2Proof

/-- One command. Register fields are `RegIx`, the radix of PARSE and FMT is the 8-bit immediate (30_encoding.md R76 to
R78). A field its format does not use is no argument: it is zero in the word (R77). -/
inductive Instr where
  | mov (rd ra : RegIx)
  | sets (rd : RegIx)
  | setu (rd : RegIx)
  | ldlimbs (rd : RegIx)
  | parse (rd : RegIx) (imm : BitVec 8)
  | neg (rd ra : RegIx)
  | abs (rd ra : RegIx)
  | cmpeq (rd ra rb : RegIx)
  | cmpne (rd ra rb : RegIx)
  | cmplt (rd ra rb : RegIx)
  | cmpgt (rd ra rb : RegIx)
  | cmple (rd ra rb : RegIx)
  | cmpge (rd ra rb : RegIx)
  | min (rd ra rb : RegIx)
  | max (rd ra rb : RegIx)
  | add (rd ra rb : RegIx)
  | sub (rd ra rb : RegIx)
  | inc (rd ra : RegIx)
  | dec (rd ra : RegIx)
  | shl (rd ra rb : RegIx)
  | shlw (rd ra rb : RegIx)
  | shr (rd ra rb : RegIx)
  | mul (rd ra rb : RegIx)
  | div (rd ra rb : RegIx)
  | mod (rd ra rb : RegIx)
  | divmod (rd rc ra rb : RegIx)
  | gcd (rd ra rb : RegIx)
  | modinv (rd ra rb : RegIx)
  | modpow (rd ra rb rc : RegIx)
  | jacobi (rd ra rb : RegIx)
  | fmt (ra : RegIx) (imm : BitVec 8)
  deriving DecidableEq, Repr

end Sys2Proof
end

