-- ==== Sys2Proof/WellFormed.lean ====
section
/-! DEFINITION. The one check that the types of `Instr` do not make: DIVMOD names two different destinations
(30_encoding.md R79, R81; 45_divide.md R155). -/

namespace Sys2Proof

/-- A command that a word can encode: every register number and immediate is in range by its type, and DIVMOD with
`rd = rc` is IllegalCommand (30_encoding.md R79). -/
def Instr.wellFormed : Instr → Bool
  | .divmod rd rc _ _ => rd != rc
  | _ => true

end Sys2Proof
end

