-- ==== Sys2Proof/Decode.lean ====
section
/-! DEFINITION. The command word: its fields, the decoder, the encoder, and the opcode table as rows of mask and match
(30_encoding.md R75 to R81, R85). -/

namespace Sys2Proof

/-- `op = w[31:24]` (30_encoding.md R76). -/
def fieldOp (w : Word) : Nat := w.toNat / 2 ^ 24

/-- `rd = w[23:20]` (30_encoding.md R76). -/
def fieldRd (w : Word) : RegIx := ⟨w.toNat / 2 ^ 20 % 16, Nat.mod_lt _ (by decide)⟩

/-- `ra = w[19:16]` (30_encoding.md R76). -/
def fieldRa (w : Word) : RegIx := ⟨w.toNat / 2 ^ 16 % 16, Nat.mod_lt _ (by decide)⟩

/-- `rb = w[15:12]` (30_encoding.md R76). -/
def fieldRb (w : Word) : RegIx := ⟨w.toNat / 2 ^ 12 % 16, Nat.mod_lt _ (by decide)⟩

/-- `rc = w[11:8]` (30_encoding.md R76). -/
def fieldRc (w : Word) : RegIx := ⟨w.toNat / 2 ^ 8 % 16, Nat.mod_lt _ (by decide)⟩

/-- `imm = w[7:0]` (30_encoding.md R76). -/
def fieldImm (w : Word) : BitVec 8 := BitVec.ofNat 8 w.toNat

/-- Format N: op and rd; bits 19:0 must be zero (30_encoding.md R77). -/
def formatN (mk : RegIx → Instr) (w : Word) : Option Instr :=
  if fieldRa w = 0 ∧ fieldRb w = 0 ∧ fieldRc w = 0 ∧ fieldImm w = 0 then some (mk (fieldRd w)) else none

/-- Format R1: op, rd and ra; bits 15:0 must be zero (30_encoding.md R77). -/
def formatR1 (mk : RegIx → RegIx → Instr) (w : Word) : Option Instr :=
  if fieldRb w = 0 ∧ fieldRc w = 0 ∧ fieldImm w = 0 then some (mk (fieldRd w) (fieldRa w)) else none

/-- Format R2: op, rd, ra and rb; bits 11:0 must be zero (30_encoding.md R77). -/
def formatR2 (mk : RegIx → RegIx → RegIx → Instr) (w : Word) : Option Instr :=
  if fieldRc w = 0 ∧ fieldImm w = 0 then some (mk (fieldRd w) (fieldRa w) (fieldRb w)) else none

/-- Format R3: op, rd, ra, rb and rc; bits 7:0 must be zero (30_encoding.md R77). -/
def formatR3 (mk : RegIx → RegIx → RegIx → RegIx → Instr) (w : Word) : Option Instr :=
  if fieldImm w = 0 then some (mk (fieldRd w) (fieldRa w) (fieldRb w) (fieldRc w)) else none

/-- Format D: as R3, but rc is the second destination, and `rd = rc` is illegal (30_encoding.md R77, R79). -/
def formatD (mk : RegIx → RegIx → RegIx → RegIx → Instr) (w : Word) : Option Instr :=
  if fieldImm w = 0 ∧ fieldRd w ≠ fieldRc w then some (mk (fieldRd w) (fieldRc w) (fieldRa w) (fieldRb w)) else none

/-- Format RI: op, rd and imm; bits 19:8 must be zero (30_encoding.md R77). -/
def formatRI (mk : RegIx → BitVec 8 → Instr) (w : Word) : Option Instr :=
  if fieldRa w = 0 ∧ fieldRb w = 0 ∧ fieldRc w = 0 then some (mk (fieldRd w) (fieldImm w)) else none

/-- Format SI: op, ra and imm; bits 23:20 and 15:8 must be zero (30_encoding.md R77). -/
def formatSI (mk : RegIx → BitVec 8 → Instr) (w : Word) : Option Instr :=
  if fieldRd w = 0 ∧ fieldRb w = 0 ∧ fieldRc w = 0 then some (mk (fieldRa w) (fieldImm w)) else none

/-- The decoder (30_encoding.md R79, R80): total; `none` is IllegalCommand (R81). -/
def decode (w : Word) : Option Instr :=
  match fieldOp w with
  | 0x01 => formatR1 .mov w
  | 0x02 => formatN .sets w
  | 0x03 => formatN .setu w
  | 0x04 => formatN .ldlimbs w
  | 0x05 => formatRI .parse w
  | 0x10 => formatR1 .neg w
  | 0x11 => formatR1 .abs w
  | 0x12 => formatR2 .cmpeq w
  | 0x13 => formatR2 .cmpne w
  | 0x14 => formatR2 .cmplt w
  | 0x15 => formatR2 .cmpgt w
  | 0x16 => formatR2 .cmple w
  | 0x17 => formatR2 .cmpge w
  | 0x18 => formatR2 .min w
  | 0x19 => formatR2 .max w
  | 0x20 => formatR2 .add w
  | 0x21 => formatR2 .sub w
  | 0x22 => formatR1 .inc w
  | 0x23 => formatR1 .dec w
  | 0x30 => formatR2 .shl w
  | 0x31 => formatR2 .shlw w
  | 0x32 => formatR2 .shr w
  | 0x40 => formatR2 .mul w
  | 0x50 => formatR2 .div w
  | 0x51 => formatR2 .mod w
  | 0x52 => formatD .divmod w
  | 0x60 => formatR2 .gcd w
  | 0x61 => formatR2 .modinv w
  | 0x62 => formatR3 .modpow w
  | 0x63 => formatR2 .jacobi w
  | 0x70 => formatSI .fmt w
  | _ => none

/-- `op<<24 | rd<<20 | ra<<16 | rb<<12 | rc<<8 | imm` (30_encoding.md R85). -/
def pack (op : Nat) (rd ra rb rc : RegIx) (imm : BitVec 8) : Word :=
  BitVec.ofNat 32
    (op * 2 ^ 24 + rd.val * 2 ^ 20 + ra.val * 2 ^ 16 + rb.val * 2 ^ 12 + rc.val * 2 ^ 8 + imm.toNat)

/-- The encoder: every field a format does not use is zero (30_encoding.md R80, R85). -/
def encode : Instr → Word
  | .mov rd ra => pack 0x01 rd ra 0 0 0
  | .sets rd => pack 0x02 rd 0 0 0 0
  | .setu rd => pack 0x03 rd 0 0 0 0
  | .ldlimbs rd => pack 0x04 rd 0 0 0 0
  | .parse rd imm => pack 0x05 rd 0 0 0 imm
  | .neg rd ra => pack 0x10 rd ra 0 0 0
  | .abs rd ra => pack 0x11 rd ra 0 0 0
  | .cmpeq rd ra rb => pack 0x12 rd ra rb 0 0
  | .cmpne rd ra rb => pack 0x13 rd ra rb 0 0
  | .cmplt rd ra rb => pack 0x14 rd ra rb 0 0
  | .cmpgt rd ra rb => pack 0x15 rd ra rb 0 0
  | .cmple rd ra rb => pack 0x16 rd ra rb 0 0
  | .cmpge rd ra rb => pack 0x17 rd ra rb 0 0
  | .min rd ra rb => pack 0x18 rd ra rb 0 0
  | .max rd ra rb => pack 0x19 rd ra rb 0 0
  | .add rd ra rb => pack 0x20 rd ra rb 0 0
  | .sub rd ra rb => pack 0x21 rd ra rb 0 0
  | .inc rd ra => pack 0x22 rd ra 0 0 0
  | .dec rd ra => pack 0x23 rd ra 0 0 0
  | .shl rd ra rb => pack 0x30 rd ra rb 0 0
  | .shlw rd ra rb => pack 0x31 rd ra rb 0 0
  | .shr rd ra rb => pack 0x32 rd ra rb 0 0
  | .mul rd ra rb => pack 0x40 rd ra rb 0 0
  | .div rd ra rb => pack 0x50 rd ra rb 0 0
  | .mod rd ra rb => pack 0x51 rd ra rb 0 0
  | .divmod rd rc ra rb => pack 0x52 rd ra rb rc 0
  | .gcd rd ra rb => pack 0x60 rd ra rb 0 0
  | .modinv rd ra rb => pack 0x61 rd ra rb 0 0
  | .modpow rd ra rb rc => pack 0x62 rd ra rb rc 0
  | .jacobi rd ra rb => pack 0x63 rd ra rb 0 0
  | .fmt ra imm => pack 0x70 0 ra 0 0 imm

/-- The value registers that a command's word names as destinations: `rd`, and `rc` for DIVMOD (10_state.md R22, R43). -/
def Instr.dests : Instr → List RegIx
  | .divmod rd rc _ _ => [rd, rc]
  | .fmt _ _ => []
  | .mov rd _ | .sets rd | .setu rd | .ldlimbs rd | .parse rd _ | .neg rd _ | .abs rd _ => [rd]
  | .cmpeq rd _ _ | .cmpne rd _ _ | .cmplt rd _ _ | .cmpgt rd _ _ | .cmple rd _ _ | .cmpge rd _ _ => [rd]
  | .min rd _ _ | .max rd _ _ | .add rd _ _ | .sub rd _ _ | .inc rd _ | .dec rd _ => [rd]
  | .shl rd _ _ | .shlw rd _ _ | .shr rd _ _ | .mul rd _ _ | .div rd _ _ | .mod rd _ _ => [rd]
  | .gcd rd _ _ | .modinv rd _ _ | .modpow rd _ _ _ | .jacobi rd _ _ => [rd]

/-- The value registers that a command's word names as sources, in the order they are read (10_state.md R22, 00_scope.md
R13). -/
def Instr.sources : Instr → List RegIx
  | .sets _ | .setu _ | .ldlimbs _ | .parse _ _ => []
  | .mov _ ra | .neg _ ra | .abs _ ra | .inc _ ra | .dec _ ra | .fmt ra _ => [ra]
  | .cmpeq _ ra rb | .cmpne _ ra rb | .cmplt _ ra rb | .cmpgt _ ra rb | .cmple _ ra rb | .cmpge _ ra rb => [ra, rb]
  | .min _ ra rb | .max _ ra rb | .add _ ra rb | .sub _ ra rb | .shl _ ra rb | .shlw _ ra rb | .shr _ ra rb => [ra, rb]
  | .mul _ ra rb | .div _ ra rb | .mod _ ra rb | .divmod _ _ ra rb => [ra, rb]
  | .gcd _ ra rb | .modinv _ ra rb | .jacobi _ ra rb => [ra, rb]
  | .modpow _ ra rb rc => [ra, rb, rc]

/-- Whether a command's destinations are TB and TLEN: FMT alone (49_radix.md R189, 20_memory.md R58). -/
def Instr.writesText : Instr → Bool
  | .fmt _ _ => true
  | _ => false

/-- A command's mnemonic in spec/opcode_table.json (30_encoding.md R80). -/
def Instr.mnemonic : Instr → String
  | .mov _ _ => "MOV" | .sets _ => "SETS" | .setu _ => "SETU"
  | .ldlimbs _ => "LDLIMBS" | .parse _ _ => "PARSE" | .neg _ _ => "NEG"
  | .abs _ _ => "ABS" | .cmpeq _ _ _ => "CMPEQ" | .cmpne _ _ _ => "CMPNE"
  | .cmplt _ _ _ => "CMPLT" | .cmpgt _ _ _ => "CMPGT" | .cmple _ _ _ => "CMPLE"
  | .cmpge _ _ _ => "CMPGE" | .min _ _ _ => "MIN" | .max _ _ _ => "MAX"
  | .add _ _ _ => "ADD" | .sub _ _ _ => "SUB" | .inc _ _ => "INC"
  | .dec _ _ => "DEC" | .shl _ _ _ => "SHL" | .shlw _ _ _ => "SHLW"
  | .shr _ _ _ => "SHR" | .mul _ _ _ => "MUL" | .div _ _ _ => "DIV"
  | .mod _ _ _ => "MOD" | .divmod _ _ _ _ => "DIVMOD" | .gcd _ _ _ => "GCD"
  | .modinv _ _ _ => "MODINV" | .modpow _ _ _ _ => "MODPOW" | .jacobi _ _ _ => "JACOBI"
  | .fmt _ _ => "FMT"

/-- One row of spec/opcode_table.json: mnemonic, mask and match. -/
structure OpcodeRow where
  mnemonic : String
  mask : Word
  pattern : Word
  deriving DecidableEq, Repr

/-- The rows whose format is N, R1 or RI (30_encoding.md R77, R80). -/
def opcodeRowsShort : List OpcodeRow :=
  [⟨"MOV", 0xFF00FFFF, 0x01000000⟩, ⟨"SETS", 0xFF0FFFFF, 0x02000000⟩, ⟨"SETU", 0xFF0FFFFF, 0x03000000⟩,
   ⟨"LDLIMBS", 0xFF0FFFFF, 0x04000000⟩, ⟨"PARSE", 0xFF0FFF00, 0x05000000⟩, ⟨"NEG", 0xFF00FFFF, 0x10000000⟩,
   ⟨"ABS", 0xFF00FFFF, 0x11000000⟩, ⟨"INC", 0xFF00FFFF, 0x22000000⟩, ⟨"DEC", 0xFF00FFFF, 0x23000000⟩]

/-- The rows whose format is R2 (30_encoding.md R77, R80). -/
def opcodeRowsR2 : List OpcodeRow :=
  [⟨"CMPEQ", 0xFF000FFF, 0x12000000⟩, ⟨"CMPNE", 0xFF000FFF, 0x13000000⟩, ⟨"CMPLT", 0xFF000FFF, 0x14000000⟩,
   ⟨"CMPGT", 0xFF000FFF, 0x15000000⟩, ⟨"CMPLE", 0xFF000FFF, 0x16000000⟩, ⟨"CMPGE", 0xFF000FFF, 0x17000000⟩,
   ⟨"MIN", 0xFF000FFF, 0x18000000⟩, ⟨"MAX", 0xFF000FFF, 0x19000000⟩, ⟨"ADD", 0xFF000FFF, 0x20000000⟩,
   ⟨"SUB", 0xFF000FFF, 0x21000000⟩, ⟨"SHL", 0xFF000FFF, 0x30000000⟩, ⟨"SHLW", 0xFF000FFF, 0x31000000⟩,
   ⟨"SHR", 0xFF000FFF, 0x32000000⟩, ⟨"MUL", 0xFF000FFF, 0x40000000⟩, ⟨"DIV", 0xFF000FFF, 0x50000000⟩,
   ⟨"MOD", 0xFF000FFF, 0x51000000⟩, ⟨"GCD", 0xFF000FFF, 0x60000000⟩, ⟨"MODINV", 0xFF000FFF, 0x61000000⟩,
   ⟨"JACOBI", 0xFF000FFF, 0x63000000⟩]

/-- The opcode table as masks and matches, the other rows being R3, D and SI (30_encoding.md R77, R79). -/
def opcodeRows : List OpcodeRow :=
  opcodeRowsShort ++ opcodeRowsR2 ++
    [⟨"MODPOW", 0xFF0000FF, 0x62000000⟩, ⟨"DIVMOD", 0xFF0000FF, 0x52000000⟩, ⟨"FMT", 0xFFF0FF00, 0x70000000⟩]

/-- A word is of a row when its masked bits are the row's match (30_encoding.md R79). -/
def OpcodeRow.covers (r : OpcodeRow) (w : Word) : Bool := w &&& r.mask == r.pattern

/-- What the decoder reads from a word whose low `nbits` bits are those of `w` and whose other bits are zero, numbered as
spec/opcode_table.json numbers them: the whole command is one 32-bit bus word (30_encoding.md R75). -/
def decodeTableWord (nbits w : Nat) : Option Instr := decode (BitVec.ofNat 32 (w % 2 ^ nbits))

end Sys2Proof
end

