-- ==== Sys2Proof/Config.lean ====
section
/-! DEFINITION. What an implementation fixes, and the free values: opaque constants with no body, which no proof can
evaluate (notes/assumptions/1.md, 2.md, 7.md). -/

namespace Sys2Proof

/-- The capacity `C` that `State.reset` shows in CAP. OPEN in the spec (00_scope.md R5, D3): DESIGN CHOICE 3, the least
capacity at which every command has a success; unsafe for a claim about `State.reset` alone (log 1). Every rule of the
model reads the capacity from the field `cap` of the state. -/
def Config.capacity : Nat := 3

/-- The bus address BASE that `State.reset` shows. OPEN in the spec (00_scope.md R5, D24): DESIGN CHOICE 0 (log 2). -/
def Config.base : Nat := 0

/-- A pattern drawn when a command reads an unwritten value register (10_state.md R41): the `n`-th draw. Its low W bits
are taken (log 5, log 7). -/
opaque Config.freePattern : Nat → Nat

/-- A word drawn when a host read is unspecified (10_state.md R41, 20_memory.md R63): the `n`-th draw (log 7). -/
opaque Config.freeWord : Nat → BitVec 32

/-- A byte drawn when a command or a host reads an unwritten buffer byte (10_state.md R41): the `n`-th draw (log 7). -/
opaque Config.freeByte : Nat → BitVec 8

end Sys2Proof
end

