-- ==== Sys2Proof/Machine/State.lean ====
section
/-! DEFINITION. The state of the BigIntRSA CORE as plain data (10_state.md R20 and R36, 60_exceptions.md R217), the steps that are still to
come, the reasons a step can stop, and the state after reset (10_state.md R42). -/

namespace Sys2Proof.Machine

/-- A value register: its integer value, from MIN to MAX (00_scope.md R10 allows the `Int` for the pattern), and its
written mark (10_state.md R41). The value of an unwritten register is 0 and is never read (log 4, log 5, log 15). -/
structure VReg where
  val : Int
  written : Bool
  deriving DecidableEq, Repr

/-- The storage of the address map as (block offset, byte) pairs, rising by offset: LB at 0x1000 to 0x1FFF and TB at
0x10000 to 0x1FFFF (20_memory.md R46). An unlisted offset holds no value: it is unwritten (10_state.md R41, log 6). -/
abbrev Memory := List Host.Cell

/-- The width of a host access: 1, 2 or 4 bytes (20_memory.md R59). -/
inductive Width where
  | b8
  | b16
  | b32
  deriving DecidableEq, Repr

/-- One step still to come: an access of the host at a bus address, the platform's reset input, or the core's completion
step (60_exceptions.md R209). -/
inductive Event where
  | read (addr : Nat) (w : Width)
  | write (addr : Nat) (w : Width) (v : Word)
  | hwReset
  | core
  deriving DecidableEq, Repr

/-- What the last host access returned (20_memory.md R59): nothing yet, a write taken, or a read's data, zero-extended to
32 bits (the model's own field, log 18). -/
inductive Resp where
  | none
  | ack
  | data (v : Word)
  deriving DecidableEq, Repr

/-- The whole state. Each field names the rule that gives it. -/
structure State where
  /-- V0 to V15 (10_state.md R21). -/
  v : Vector VReg 16
  /-- STATUS.ESTK (10_state.md R26). -/
  estk : Bool
  /-- STATUS.OVR (10_state.md R26). -/
  ovr : Bool
  /-- STATUS.ERR (10_state.md R26, 60_exceptions.md R194). -/
  err : BitVec 4
  /-- ARGLO (10_state.md R30). -/
  argLo : Word
  /-- ARGHI (10_state.md R30). -/
  argHi : Word
  /-- TLEN (10_state.md R31). -/
  tlen : Word
  /-- LB and TB with their written marks (10_state.md R32, R33, R41). -/
  mem : Memory
  /-- The in-flight command latch; that it holds a word is its valid bit and STATUS.BUSY (10_state.md R36). -/
  latch : Option Word
  /-- The hardwired capacity C that CAP shows (10_state.md R28, R44). -/
  cap : Nat
  /-- The bus address BASE of the window (20_memory.md R45). -/
  base : Nat
  /-- The fault mark kept for the whole run: a command has read an unwritten item (60_exceptions.md R217; log 5). -/
  faulted : Bool
  /-- The model's own: the steps still to come, in their single order (20_memory.md R64; log 3). -/
  events : List Event
  /-- The model's own: what the last host access returned (log 18). -/
  resp : Resp
  /-- The model's own: how many free values have been drawn (log 7). -/
  draws : Nat
  deriving DecidableEq, Repr

/-- Why a step stops with a fault. -/
inductive Fault where
  /-- Raised by a host access to a reserved offset, or of a width or alignment the offset does not accept (20_memory.md
  R49, R54; 60_exceptions.md R217). The block changes no state. Safe: the model stops where a platform may go on. -/
  | busError (off : Nat)
  deriving DecidableEq, Repr

/-- Why a step is refused. -/
inductive Refusal where
  /-- Answered by `exec` for a command that has no meaning in the model (none is left). Safe. -/
  | notModelled (mnemonic : String)
  /-- Answered by a host access outside the block's window, which is not the block's (60_exceptions.md R217). Safe. -/
  | outsideWindow (addr : Nat)
  deriving DecidableEq, Repr

/-- The state right after a hardware reset (10_state.md R42, 70_reset_and_hazards.md R225, R231): everything the spec
gives is at its reset value; the capacity and base address are the implementation's (log 1, log 2), registers are
unwritten (log 4), no step is to come (log 16). -/
def State.reset : State where
  v := Vector.replicate 16 ⟨0, false⟩
  estk := false
  ovr := false
  err := 0
  argLo := 0
  argHi := 0
  tlen := 0
  mem := []
  latch := Option.none
  cap := Config.capacity
  base := Config.base
  faulted := false
  events := []
  resp := Resp.none
  draws := 0

end Sys2Proof.Machine
end

