-- ==== Sys2Proof/Machine/Operands.lean ====
section
/-! DEFINITION. Values: patterns, limbs and integers over a capacity (00_scope.md R7 to R9), and the arithmetic primitives
of 00_scope.md R11. Everything is exact in ℤ (R12). -/

namespace Sys2Proof.Machine

/-- `W = 32·C` (00_scope.md R5). -/
def widthOf (C : Nat) : Nat := 32 * C

/-- `MIN = -2^(W-1)` (00_scope.md R8). -/
def minVal (C : Nat) : Int := -(2 ^ (widthOf C - 1))

/-- `MAX = 2^(W-1) - 1` (00_scope.md R8). -/
def maxVal (C : Nat) : Int := 2 ^ (widthOf C - 1) - 1

/-- A value is representable at capacity `C` (00_scope.md R8). -/
abbrev InRange (C : Nat) (v : Int) : Prop := minVal C ≤ v ∧ v ≤ maxVal C

/-- `enc(v) = v mod 2^W` (00_scope.md R8). -/
def enc (C : Nat) (v : Int) : Nat := (v % 2 ^ widthOf C).toNat

/-- `neg?(p) = p[W-1]` (00_scope.md R8). -/
def signBit (C p : Nat) : Bool := p.testBit (widthOf C - 1)

/-- `val(p)` (00_scope.md R8). -/
def valOf (C p : Nat) : Int := if signBit C p then (p : Int) - 2 ^ widthOf C else p

/-- `limb(p, i) = p[32·i+31 : 32·i]` (00_scope.md R7). -/
def limbOf (p i : Nat) : Nat := p / 2 ^ (32 * i) % 2 ^ 32

/-- `max { i < n | limb(p, i) ≠ 0 }`, and 0 where there is none (00_scope.md R9). -/
def topLimb (p : Nat) : Nat → Nat
  | 0 => 0
  | n + 1 => if limbOf p n ≠ 0 then n else topLimb p n

/-- `sig(p)` (00_scope.md R9). -/
def sigOf (C p : Nat) : Nat := if p = 0 then 1 else 1 + topLimb p C

/-- The error kinds (60_exceptions.md R194). -/
inductive ErrorKind where
  | overflow
  | underflow
  | invalidDigit
  | invalidRadix
  | divideByZero
  | noInverse
  | nonPositiveExponent
  | invalidArgument
  | capacityExceeded
  | illegalCommand
  deriving DecidableEq, Repr

/-- `fit(v)`: Overflow above MAX, Underflow below MIN (00_scope.md R11). -/
def fit (C : Nat) (v : Int) : Except ErrorKind Int :=
  if v > maxVal C then .error .overflow else if v < minVal C then .error .underflow else .ok v

/-- `fitO(v)`: Overflow on either side, the multiplier's check (00_scope.md R11). -/
def fitO (C : Nat) (v : Int) : Except ErrorKind Int :=
  if v > maxVal C ∨ v < minVal C then .error .overflow else .ok v

/-- `tquot(a, b) = sgn(a)·sgn(b)·(|a| div |b|)` (00_scope.md R11). -/
def tquot (a b : Int) : Int := a.sign * b.sign * ((a.natAbs / b.natAbs : Nat) : Int)

/-- `trem(a, b) = a - b·tquot(a, b)` (00_scope.md R11). -/
def trem (a b : Int) : Int := a - b * tquot a b

/-- The number of bits of a natural number, 0 for 0 (47_modpow.md R171, R174). -/
def bitLength (n : Nat) : Nat := if n = 0 then 0 else n.log2 + 1

/-- A comparison's result, 1 or 0 (41_sign_compare.md R118). -/
def truth (b : Bool) : Int := if b then 1 else 0

/-- The 64-bit native operand `ARG = {ARGHI, ARGLO}` as a pattern (10_state.md R30). -/
def State.arg (s : State) : Nat := s.argHi.toNat * 2 ^ 32 + s.argLo.toNat

/-- `ARG` as a two's-complement integer (40_construction.md R101). -/
def State.argSigned (s : State) : Int := if s.arg.testBit 63 then (s.arg : Int) - 2 ^ 64 else s.arg

end Sys2Proof.Machine
end

