-- ==== Sys2Proof/Machine/Flags.lean ====
section
/-! DEFINITION. STATUS and CAP as the host reads them (10_state.md R26, R28), the error codes (60_exceptions.md R194), and
the changes of the status fields. The block has no arithmetic flags (10_state.md R25). -/

namespace Sys2Proof.Machine

/-- The ERR code of an error kind (60_exceptions.md R194). -/
def ErrorKind.code : ErrorKind → BitVec 4
  | .overflow => 1
  | .underflow => 2
  | .invalidDigit => 3
  | .invalidRadix => 4
  | .divideByZero => 5
  | .noInverse => 6
  | .nonPositiveExponent => 7
  | .invalidArgument => 8
  | .capacityExceeded => 9
  | .illegalCommand => 15

/-- STATUS.BUSY: the latch's valid bit (10_state.md R26, R36). -/
def State.busy (s : State) : Bool := s.latch.isSome

/-- STATUS: BUSY in bit 0, ESTK in bit 1, OVR in bit 2, ERR in bits 7:4, every other bit 0 (10_state.md R26). -/
def State.statusWord (s : State) : Word :=
  BitVec.ofNat 32 (s.busy.toNat + 2 * s.estk.toNat + 4 * s.ovr.toNat + 16 * s.err.toNat)

/-- CAP: C in bits 15:0, 16 in bits 23:16, 0 above (10_state.md R28). -/
def State.capWord (s : State) : Word := BitVec.ofNat 32 (s.cap % 2 ^ 16 + 16 * 2 ^ 16)

/-- CTRL.CLR: ERR, ESTK and OVR become 0 (10_state.md R27). -/
def State.clearStatus (s : State) : State := { s with err := 0, estk := false, ovr := false }

/-- A host write is lost while busy: OVR becomes 1 (20_memory.md R62). -/
def State.markOverrun (s : State) : State := { s with ovr := true }

end Sys2Proof.Machine
end

