-- ==== Sys2Proof/Machine/Ops.lean ====
section
/-! DEFINITION. The named operations: memory, value registers, free draws, the buffers as commands read them, committing,
failing (the block's only kind of exception, 60_exceptions.md R197, R203), completion, and the shared command shapes. -/

namespace Sys2Proof.Machine

open Host (Outcome)

/-! ## Memory -/

/-- The byte an offset holds; `none` where nothing has been written since reset (10_state.md R41). -/
def Memory.read : Memory → Nat → Option Byte
  | [], _ => none
  | (a, b) :: m, x => if a = x then some b else Memory.read m x

/-- Write one byte, keeping the offsets rising. -/
def Memory.write : Memory → Nat → Byte → Memory
  | [], x, b => [(x, b)]
  | (a, c) :: m, x, b =>
    if x < a then (x, b) :: (a, c) :: m
    else if x = a then (x, b) :: m
    else (a, c) :: Memory.write m x b

/-- Write bytes at consecutive offsets, the first at `x`. -/
def Memory.writeBytes (m : Memory) (x : Nat) : List Byte → Memory
  | [] => m
  | b :: bs => Memory.writeBytes (Memory.write m x b) (x + 1) bs

/-- Mark the offsets from `lo` up to but not including `hi` unwritten. -/
def Memory.erase (m : Memory) (lo hi : Nat) : Memory := m.filter fun c => ¬ (lo ≤ c.1 ∧ c.1 < hi)

/-- The canonical form: offsets strictly rising. No listed byte equals what an unlisted offset holds, which is no value. -/
abbrev Memory.wf (m : Memory) : Prop := m.Pairwise fun a b => a.1 < b.1

/-- The bytes of a value, least significant first (20_memory.md R51). -/
def bytesOf (v : Nat) : Nat → List Byte
  | 0 => []
  | n + 1 => BitVec.ofNat 8 v :: bytesOf (v / 256) n

/-- The value of bytes, least significant first (20_memory.md R51, R52). -/
def ofBytes : List Byte → Nat
  | [] => 0
  | b :: bs => b.toNat + 256 * ofBytes bs

/-- The offset of `LB[0]` (20_memory.md R46). -/
def lbOffset : Nat := 0x1000

/-- The offset of `TB[0]` (20_memory.md R46). -/
def tbOffset : Nat := 0x10000

/-- The number of bytes of TB (00_scope.md R5). -/
def tbSize : Nat := 65536

/-! ## Value registers -/

/-- A value register with its mark. -/
def State.getV (s : State) (r : RegIx) : VReg := s.v[r.val]

/-- The integer value a register holds, `val(V[r])` (00_scope.md R11). -/
def State.val (s : State) (r : RegIx) : Int := (s.getV r).val

/-- A register has been written since reset (10_state.md R41). -/
def State.written (s : State) (r : RegIx) : Bool := (s.getV r).written

/-- Write a value register and mark it written (10_state.md R41, 60_exceptions.md R197). -/
def State.setV (s : State) (r : RegIx) (x : Int) : State := { s with v := s.v.set r.val ⟨x, true⟩ r.isLt }

/-- A register becomes unwritten; its contents are unspecified (10_state.md R41, R43). -/
def State.unwriteV (s : State) (r : RegIx) : State := { s with v := s.v.set r.val ⟨0, false⟩ r.isLt }

/-- Draw an unspecified pattern for a command's read of an unwritten register, and record the fault (10_state.md R41,
60_exceptions.md R217; log 5). -/
def State.drawValue (s : State) : Int × State :=
  (valOf s.cap (Config.freePattern s.draws % 2 ^ widthOf s.cap), { s with draws := s.draws + 1, faulted := true })

/-- A command's read of a source register: its value, or a free one where it is unwritten (10_state.md R22, R41). -/
def State.readV (s : State) (r : RegIx) : Int × State := if s.written r then (s.val r, s) else s.drawValue

/-- A command's read of a buffer byte: its value, or a free one where it is unwritten (10_state.md R41). -/
def State.readByte (s : State) (x : Nat) : Byte × State :=
  match s.mem.read x with
  | some b => (b, s)
  | none => (Config.freeByte s.draws, { s with draws := s.draws + 1, faulted := true })

/-- A command's read of `n` buffer bytes from offset `x`. -/
def State.readBytes (s : State) (x : Nat) : Nat → List Byte × State
  | 0 => ([], s)
  | n + 1 =>
    let b := s.readByte x
    let bs := State.readBytes b.2 (x + 1) n
    (b.1 :: bs.1, bs.2)

/-- A command's read of the limb `LB[j]` (10_state.md R32). -/
def State.readLimb (s : State) (j : Nat) : Nat × State :=
  let bs := s.readBytes (lbOffset + 4 * j) 4
  (ofBytes bs.1, bs.2)

/-! ## Completing a command -/

/-- What a successful command writes: value registers, and for FMT the bytes of TB (60_exceptions.md R197). -/
structure Writes where
  regs : List (RegIx × Int)
  text : Option (List Byte)
  deriving DecidableEq, Repr

/-- One value register is the destination. -/
def Writes.reg (rd : RegIx) (x : Int) : Writes := ⟨[(rd, x)], none⟩

/-- Write value registers, all marked written. -/
def State.setRegs (s : State) : List (RegIx × Int) → State
  | [] => s
  | (r, x) :: ws => State.setRegs (s.setV r x) ws

/-- Write the text buffer from its start, and TLEN with the length (49_radix.md R189). -/
def State.setText (s : State) (bs : List Byte) : State :=
  { s with mem := s.mem.writeBytes tbOffset bs, tlen := BitVec.ofNat 32 bs.length }

/-- The command ends in success: ERR becomes 0, BUSY clears, the latch empties (60_exceptions.md R197). -/
def State.succeed (s : State) : State := { s with err := 0, latch := none }

/-- All destinations are written together (60_exceptions.md R197). -/
def State.commit (s : State) (w : Writes) : State :=
  let s' := s.setRegs w.regs
  (match w.text with
    | none => s'
    | some bs => s'.setText bs).succeed

/-- Failure entry, the one shared operation that takes an exception: ERR gets the code, ESTK becomes 1, BUSY clears, the
latch empties, and nothing else changes; nothing is saved and no mode changes (60_exceptions.md R196, R197, R203). There
is no return beside it: the block is idle at once (R204), and `State.clearStatus` is CTRL.CLR. -/
def State.raise (s : State) (e : ErrorKind) : State := { s with err := e.code, estk := true, latch := none }

/-- `Complete`: commit or fail, in one step (60_exceptions.md R197). -/
def State.complete (s : State) (r : Except ErrorKind Writes) : State :=
  match r with
  | .ok w => s.commit w
  | .error e => s.raise e

/-- A command answers its completed state. -/
def State.finish (s : State) (r : Except ErrorKind Writes) : Outcome State Fault Refusal := .next (s.complete r)

/-- A command that reads no register and writes one. -/
def State.runNullary (s : State) (rd : RegIx) (r : Except ErrorKind Int) : Outcome State Fault Refusal :=
  s.finish (r.map (Writes.reg rd))

/-- A command that reads one register and writes one (00_scope.md R13). -/
def State.runUnary (s : State) (f : Nat → Int → Except ErrorKind Int) (rd ra : RegIx) : Outcome State Fault Refusal :=
  let a := s.readV ra
  a.2.finish ((f s.cap a.1).map (Writes.reg rd))

/-- A command that reads two registers and writes one: both sources are read first (00_scope.md R13). -/
def State.runBinary (s : State) (f : Nat → Int → Int → Except ErrorKind Int) (rd ra rb : RegIx) :
    Outcome State Fault Refusal :=
  let a := s.readV ra
  let b := a.2.readV rb
  b.2.finish ((f s.cap a.1 b.1).map (Writes.reg rd))

/-- A command that reads three registers and writes one (00_scope.md R13). -/
def State.runTernary (s : State) (f : Nat → Int → Int → Int → Except ErrorKind Int) (rd ra rb rc : RegIx) :
    Outcome State Fault Refusal :=
  let a := s.readV ra
  let b := a.2.readV rb
  let c := b.2.readV rc
  c.2.finish ((f s.cap a.1 b.1 c.1).map (Writes.reg rd))

end Sys2Proof.Machine
end

