-- ==== Sys2Proof/Machine/Reset.lean ====
section
/-! DEFINITION. Hardware reset, soft reset, and the destinations of the command in flight (70_reset_and_hazards.md R225,
R227; 10_state.md R43; 20_memory.md R63). -/

namespace Sys2Proof.Machine

/-- The command in flight, where the latched word is one (30_encoding.md R79). -/
def State.inFlight (s : State) : Option Instr := s.latch.bind decode

/-- The value registers that the command in flight names as destinations; none for an illegal word
(70_reset_and_hazards.md R227). -/
def State.inFlightDests (s : State) : List RegIx :=
  match s.inFlight with
  | some i => i.dests
  | none => []

/-- The command in flight is FMT (20_memory.md R63). -/
def State.inFlightText (s : State) : Bool :=
  match s.inFlight with
  | some i => i.writesText
  | none => false

/-- The control state that both resets set: STATUS, ARG, TLEN and the latch (70_reset_and_hazards.md R225, R227). -/
def State.resetControl (s : State) : State :=
  { s with estk := false, ovr := false, err := 0, argLo := 0, argHi := 0, tlen := 0, latch := none }

/-- Hardware reset: also V, LB and TB become unwritten (70_reset_and_hazards.md R225). The fault mark is kept for the
whole run (60_exceptions.md R217, log 8). -/
def State.hwReset (s : State) : State := { s.resetControl with v := Vector.replicate 16 ⟨0, false⟩, mem := [] }

/-- Every register of a list becomes unwritten. -/
def State.unwriteRegs (s : State) : List RegIx → State
  | [] => s
  | r :: rs => State.unwriteRegs (s.unwriteV r) rs

/-- All of TB becomes unwritten. -/
def State.unwriteText (s : State) : State := { s with mem := s.mem.erase tbOffset (tbOffset + tbSize) }

/-- The destinations of the command in flight become unwritten (70_reset_and_hazards.md R227, 10_state.md R43). -/
def State.abort (s : State) : State :=
  let s' := s.unwriteRegs s.inFlightDests
  if s.inFlightText then s'.unwriteText else s'

/-- Soft reset, CTRL.SRST: a command in flight is abandoned (70_reset_and_hazards.md R227). -/
def State.softReset (s : State) : State := s.abort.resetControl

end Sys2Proof.Machine
end

