-- ==== Sys2Proof/Machine/Bus.lean ====
section
/-! DEFINITION. The host interface: the offset map, the accepted accesses, reads and writes, issue of a command, and the
unspecified reads (20_memory.md R45 to R63). -/

namespace Sys2Proof.Machine

open Host (Outcome)

/-- The size of the window (20_memory.md R45). -/
def windowSize : Nat := 0x40000

/-- What stands at an offset (20_memory.md R46). -/
inductive Region where
  | cmd
  | status
  | ctrl
  | cap
  | argLo
  | argHi
  | tlen
  | lb
  | tb
  | vwin (r : RegIx) (i : Nat)
  | vsig (r : RegIx)
  deriving DecidableEq, Repr

/-- The number of bytes of an access (20_memory.md R59). -/
def Width.bytes : Width → Nat
  | .b8 => 1
  | .b16 => 2
  | .b32 => 4

/-- The offset map: what a block offset names; `none` is reserved (20_memory.md R46). -/
def regionAt (off : Nat) : Option Region :=
  if off < 0x0001C then
    match off / 4 with
    | 0 => some .cmd
    | 1 => some .status
    | 2 => some .ctrl
    | 3 => some .cap
    | 4 => some .argLo
    | 5 => some .argHi
    | _ => some .tlen
  else if 0x01000 ≤ off ∧ off < 0x02000 then some .lb
  else if 0x10000 ≤ off ∧ off < 0x20000 then some .tb
  else if 0x20000 ≤ off ∧ off < 0x30000 then
    some (.vwin ⟨(off - 0x20000) / 0x1000 % 16, Nat.mod_lt _ (by decide)⟩ ((off - 0x20000) % 0x1000 / 4))
  else if 0x30000 ≤ off ∧ off < 0x30040 then some (.vsig ⟨(off - 0x30000) / 4 % 16, Nat.mod_lt _ (by decide)⟩)
  else none

/-- The widths a region takes: TB all three, everything else 32 bits (20_memory.md R54). -/
def Region.accepts : Region → Width → Bool
  | .tb, _ => true
  | _, .b32 => true
  | _, _ => false

/-- The region an access reaches; `none` is a bus error: a reserved offset, a width the region does not take, or an offset
that is not a multiple of the width (20_memory.md R49, R54, R59). -/
def acceptedRegion (off : Nat) (w : Width) : Option Region :=
  match regionAt off with
  | none => none
  | some r => if r.accepts w ∧ off % w.bytes = 0 then some r else none

/-! ## Reads -/

/-- A host read answers `v`; nothing else changes (20_memory.md R56). -/
def State.answer (s : State) (v : Word) : State := { s with resp := .data v }

/-- A host read answers any value, drawn fresh (10_state.md R41, 20_memory.md R63; log 7). -/
def State.answerAny (s : State) : State := { s with resp := .data (Config.freeWord s.draws), draws := s.draws + 1 }

/-- The `n` bytes a host reads from offset `x`: an unwritten byte is any value, the `k`-th draw for the first of them
(10_state.md R41, 20_memory.md R52). -/
def State.hostBytes (s : State) (x k : Nat) : Nat → List Byte
  | 0 => []
  | n + 1 => (s.mem.read x).getD (Config.freeByte k) :: State.hostBytes s (x + 1) (k + 1) n

/-- A host read of LB or TB: bytes, least significant first (20_memory.md R51, R52). -/
def State.readBuffer (s : State) (off : Nat) (w : Width) : State :=
  { s.answer (BitVec.ofNat 32 (ofBytes (s.hostBytes off s.draws w.bytes))) with draws := s.draws + w.bytes }

/-- A register's window is unspecified: the command in flight names it as destination (20_memory.md R63). -/
def State.windowBusy (s : State) (r : RegIx) : Bool := s.inFlightDests.contains r

/-- A host read of limb `i` of `V[r]`: 0 from the capacity on, any value where the register is unwritten or in flight
(20_memory.md R47, R63; 10_state.md R41; log 11). -/
def State.readWindow (s : State) (r : RegIx) (i : Nat) : State :=
  if s.windowBusy r then s.answerAny
  else if i ≥ s.cap then s.answer 0
  else if s.written r then s.answer (BitVec.ofNat 32 (limbOf (enc s.cap (s.val r)) i))
  else s.answerAny

/-- A host read of `sig(V[r])`, any value where the register is unwritten or in flight (20_memory.md R48, R63;
10_state.md R41; log 12). -/
def State.readSig (s : State) (r : RegIx) : State :=
  if s.windowBusy r then s.answerAny
  else if s.written r then s.answer (BitVec.ofNat 32 (sigOf s.cap (enc s.cap (s.val r))))
  else s.answerAny

/-- A host read of an accepted access (20_memory.md R46 to R48, R59, R63). -/
def State.readRegion (s : State) (r : Region) (off : Nat) (w : Width) : State :=
  match r with
  | .cmd => s.answer 0
  | .status => s.answer s.statusWord
  | .ctrl => s.answer 0
  | .cap => s.answer s.capWord
  | .argLo => s.answer s.argLo
  | .argHi => s.answer s.argHi
  | .tlen => if s.inFlightText then s.answerAny else s.answer s.tlen
  | .lb => s.readBuffer off w
  | .tb => if s.inFlightText then s.answerAny else s.readBuffer off w
  | .vwin r i => s.readWindow r i
  | .vsig r => s.readSig r

/-! ## Writes -/

/-- A write of ARG, TLEN, LB, TB or CMD: ignored with OVR set while busy (20_memory.md R62). -/
def State.guarded (s t : State) : State := if s.busy then s.markOverrun else t

/-- Issue: the word is latched and BUSY becomes 1; nothing else changes (20_memory.md R60). -/
def State.issue (s : State) (w : Word) : State := { s with latch := some w }

/-- A write of CTRL: SRST alone where it is set, else CLR where it is set (10_state.md R27). -/
def State.writeCtrl (s : State) (v : Word) : State :=
  if v.getLsbD 1 then s.softReset else if v.getLsbD 0 then s.clearStatus else s

/-- A write of LB or TB (20_memory.md R46, R51, R52). -/
def State.writeBuffer (s : State) (off : Nat) (w : Width) (v : Word) : State :=
  { s with mem := s.mem.writeBytes off (bytesOf v.toNat w.bytes) }

/-- The effect of a host write of an accepted access (20_memory.md R56, R62). -/
def State.writeRegion (s : State) (r : Region) (off : Nat) (w : Width) (v : Word) : State :=
  match r with
  | .cmd => s.guarded (s.issue v)
  | .status => s
  | .ctrl => s.writeCtrl v
  | .cap => s
  | .argLo => s.guarded { s with argLo := v }
  | .argHi => s.guarded { s with argHi := v }
  | .tlen => s.guarded { s with tlen := v }
  | .lb => s.guarded (s.writeBuffer off w v)
  | .tb => s.guarded (s.writeBuffer off w v)
  | .vwin _ _ => s
  | .vsig _ => s

/-! ## Accesses -/

/-- The block offset of a bus address; `none` outside the window (20_memory.md R45, 60_exceptions.md R217). -/
def State.offsetOf (s : State) (addr : Nat) : Option Nat :=
  if s.base ≤ addr ∧ addr < s.base + windowSize then some (addr - s.base) else none

/-- `MemRead` (20_memory.md R59). -/
def State.hostRead (s : State) (addr : Nat) (w : Width) : Outcome State Fault Refusal :=
  match s.offsetOf addr with
  | none => .refused (.outsideWindow addr)
  | some off =>
    match acceptedRegion off w with
    | none => .fault (.busError off)
    | some r => .next (s.readRegion r off w)

/-- `MemWrite` (20_memory.md R59). -/
def State.hostWrite (s : State) (addr : Nat) (w : Width) (v : Word) : Outcome State Fault Refusal :=
  match s.offsetOf addr with
  | none => .refused (.outsideWindow addr)
  | some off =>
    match acceptedRegion off w with
    | none => .fault (.busError off)
    | some r => .next { s.writeRegion r off w v with resp := .ack }

end Sys2Proof.Machine
end

