-- ==== Sys2Proof/Machine/AddSub.lean ====
section
/-! DEFINITION. ADD, SUB, INC, DEC (42_addsub.md). Their ripple-carry datapath (R134) is in Machine/Datapath.lean. -/

namespace Sys2Proof.Machine

open Host (Outcome)

/-- ADD (42_addsub.md R130). -/
def execAdd (rd ra rb : RegIx) (s : State) : Outcome State Fault Refusal :=
  s.runBinary (fun C a b => fit C (a + b)) rd ra rb

/-- SUB (42_addsub.md R131). -/
def execSub (rd ra rb : RegIx) (s : State) : Outcome State Fault Refusal :=
  s.runBinary (fun C a b => fit C (a - b)) rd ra rb

/-- INC (42_addsub.md R132). -/
def execInc (rd ra : RegIx) (s : State) : Outcome State Fault Refusal :=
  s.runUnary (fun C a => fit C (a + 1)) rd ra

/-- DEC (42_addsub.md R133). -/
def execDec (rd ra : RegIx) (s : State) : Outcome State Fault Refusal :=
  s.runUnary (fun C a => fit C (a - 1)) rd ra

end Sys2Proof.Machine
end

