-- ==== Sys2Proof/Machine/Construction.lean ====
section
/-! DEFINITION. MOV, SETS, SETU, LDLIMBS, PARSE (40_construction.md). -/

namespace Sys2Proof.Machine

open Host (Outcome)

/-- MOV (40_construction.md R100). -/
def execMov (rd ra : RegIx) (s : State) : Outcome State Fault Refusal := s.runUnary (fun _ a => .ok a) rd ra

/-- SETS (40_construction.md R101). -/
def execSets (rd : RegIx) (s : State) : Outcome State Fault Refusal := s.runNullary rd (fit s.cap s.argSigned)

/-- SETU (40_construction.md R102). -/
def execSetu (rd : RegIx) (s : State) : Outcome State Fault Refusal := s.runNullary rd (fit s.cap (s.arg : Int))

/-- A command's read of the limbs `LB[j .. j+n-1]` (40_construction.md R103). -/
def State.readLimbs (s : State) (j : Nat) : Nat → List Nat × State
  | 0 => ([], s)
  | n + 1 =>
    let x := s.readLimb j
    let xs := State.readLimbs x.2 (j + 1) n
    (x.1 :: xs.1, xs.2)

/-- The loop `p <- p·2^32 + LB[j]`: the first limb is the most significant (40_construction.md R103). -/
def joinLimbs (p : Nat) : List Nat → Nat
  | [] => p
  | x :: xs => joinLimbs (p * 2 ^ 32 + x) xs

/-- LDLIMBS: the capacity check comes before LB is read; the limbs are a raw W-bit pattern (40_construction.md R103). -/
def execLdlimbs (rd : RegIx) (s : State) : Outcome State Fault Refusal :=
  if s.argLo.toNat > s.cap then s.finish (.error .capacityExceeded)
  else
    let xs := s.readLimbs 0 s.argLo.toNat
    xs.2.runNullary rd (.ok (valOf s.cap (joinLimbs 0 xs.1)))

/-- The digit value of a character code (40_construction.md R105). -/
def digitOf (ch : Byte) : Option Nat :=
  if 0x30 ≤ ch.toNat ∧ ch.toNat ≤ 0x39 then some (ch.toNat - 0x30)
  else if 0x41 ≤ ch.toNat ∧ ch.toNat ≤ 0x5A then some (ch.toNat - 0x41 + 10)
  else if 0x61 ≤ ch.toNat ∧ ch.toNat ≤ 0x7A then some (ch.toNat - 0x61 + 10)
  else none

/-- The radixes PARSE and FMT accept (40_construction.md R108, 49_radix.md R189). -/
def radixOk (radix : Nat) : Bool := 2 ≤ radix && radix ≤ 36

/-- The digit loop of PARSE, `m <- m·radix + d`, ending at the first character that is no digit of the radix
(40_construction.md R108). -/
def parseDigits (radix m : Nat) : List Byte → Except ErrorKind Nat
  | [] => .ok m
  | ch :: cs =>
    match digitOf ch with
    | none => .error .invalidDigit
    | some d => if d ≥ radix then .error .invalidDigit else parseDigits radix (m * radix + d) cs

/-- The digits of a string, of which there is at least one (40_construction.md R107, R108). -/
def parseMagnitude (radix : Nat) (cs : List Byte) : Except ErrorKind Nat :=
  if cs.isEmpty then .error .invalidDigit else parseDigits radix 0 cs

/-- The exact integer a string stands for: one optional sign, then digits (40_construction.md R107, R108). -/
def parseString (radix : Nat) : List Byte → Except ErrorKind Int
  | [] => .error .invalidDigit
  | ch :: cs =>
    if ch = 0x2B then (parseMagnitude radix cs).map fun m => (m : Int)
    else if ch = 0x2D then (parseMagnitude radix cs).map fun m => -(m : Int)
    else (parseMagnitude radix (ch :: cs)).map fun m => (m : Int)

/-- PARSE: radix, then length, then digits, then range (40_construction.md R108, 60_exceptions.md R200). It reads
`TB[0 .. TLEN-1]` (20_memory.md R58). -/
def execParse (rd : RegIx) (imm : BitVec 8) (s : State) : Outcome State Fault Refusal :=
  if ¬ radixOk imm.toNat then s.finish (.error .invalidRadix)
  else if s.tlen.toNat > tbSize then s.finish (.error .invalidArgument)
  else
    let cs := s.readBytes tbOffset s.tlen.toNat
    cs.2.runNullary rd ((parseString imm.toNat cs.1).bind (fit s.cap))

end Sys2Proof.Machine
end

