-- ==== Sys2Proof/Machine/Divide.lean ====
section
/-! DEFINITION. DIV, MOD, DIVMOD: truncating division (45_divide.md R151 to R155). The datapath (R156, R157) is in
Machine/Datapath.lean. -/

namespace Sys2Proof.Machine

open Host (Outcome)

/-- The quotient: DivideByZero first, then the range (45_divide.md R152, R153). -/
def divResult (C : Nat) (a b : Int) : Except ErrorKind Int :=
  if b = 0 then .error .divideByZero else fit C (tquot a b)

/-- The remainder, always in range (45_divide.md R154). -/
def modResult (_C : Nat) (a b : Int) : Except ErrorKind Int :=
  if b = 0 then .error .divideByZero else .ok (trem a b)

/-- DIV (45_divide.md R153). -/
def execDiv (rd ra rb : RegIx) (s : State) : Outcome State Fault Refusal := s.runBinary divResult rd ra rb

/-- MOD (45_divide.md R154). -/
def execMod (rd ra rb : RegIx) (s : State) : Outcome State Fault Refusal := s.runBinary modResult rd ra rb

/-- DIVMOD: the quotient to `rd` and the remainder to `rc`, both or neither (45_divide.md R155). With `rd = rc` it is
IllegalCommand, found before any operand is read (30_encoding.md R79). -/
def execDivmod (rd rc ra rb : RegIx) (s : State) : Outcome State Fault Refusal :=
  if rd = rc then s.finish (.error .illegalCommand)
  else
    let a := s.readV ra
    let b := a.2.readV rb
    b.2.finish ((divResult s.cap a.1 b.1).map fun q => ⟨[(rd, q), (rc, trem a.1 b.1)], none⟩)

end Sys2Proof.Machine
end

