-- ==== Sys2Proof/Machine/GcdInverse.lean ====
section
/-! DEFINITION. GCD and MODINV (46_gcd_inverse.md). -/

namespace Sys2Proof.Machine

open Host (Outcome)

/-- The result of GCD: exact, with Overflow only where it is `2^(W-1)` (46_gcd_inverse.md R163). -/
def gcdResult (C : Nat) (a b : Int) : Except ErrorKind Int := fit C (Nat.gcd a.natAbs b.natAbs : Int)

/-- The loop of the extended Euclidean algorithm, at most `fuel` times round, answering the last nonzero remainder and
its coefficient (46_gcd_inverse.md R166). The remainder falls each time, so `r1 + 1` rounds are enough (log 26). -/
def euclidLoop (m : Int) : Nat → Int → Int → Int → Int → Int × Int
  | 0, r0, _, p0, _ => (r0, p0)
  | fuel + 1, r0, r1, p0, p1 =>
    if r1 = 0 then (r0, p0)
    else euclidLoop m fuel r1 (r0 - r0 / r1 * r1) p1 (trem (p0 - r0 / r1 * p1) m)

/-- The last nonzero remainder for `(m, a mod m)` and its coefficient (46_gcd_inverse.md R166). -/
def extendedEuclid (a m : Int) : Int × Int := euclidLoop m ((a % m).toNat + 1) m (a % m) 0 1

/-- The result of MODINV: the modulus check, then the inverse in `[0, m)` or NoInverse (46_gcd_inverse.md R165, R166). -/
def modInvResult (_C : Nat) (a m : Int) : Except ErrorKind Int :=
  if m ≤ 0 then .error .invalidArgument
  else if (extendedEuclid a m).1 ≠ 1 then .error .noInverse
  else if (extendedEuclid a m).2 < 0 then .ok ((extendedEuclid a m).2 + m)
  else .ok (extendedEuclid a m).2

/-- GCD (46_gcd_inverse.md R163). -/
def execGcd (rd ra rb : RegIx) (s : State) : Outcome State Fault Refusal := s.runBinary gcdResult rd ra rb

/-- MODINV (46_gcd_inverse.md R165). -/
def execModinv (rd ra rb : RegIx) (s : State) : Outcome State Fault Refusal := s.runBinary modInvResult rd ra rb

end Sys2Proof.Machine
end

