-- ==== Sys2Proof/Machine/Jacobi.lean ====
section
/-! DEFINITION. JACOBI (48_jacobi.md). -/

namespace Sys2Proof.Machine

open Host (Outcome)

/-- Take out the powers of two: the exponent `e` and the odd part of `a`, `a > 0`, at most `fuel` times round
(48_jacobi.md R184). Each round halves `a`, so `a` rounds are enough (log 26). -/
def oddPart : Nat → Nat → Nat × Nat
  | 0, a => (0, a)
  | fuel + 1, a =>
    if a % 2 = 0 then
      let x := oddPart fuel (a / 2)
      (x.1 + 1, x.2)
    else (0, a)

/-- The recursion `J(a, b)` for odd `b ≥ 1`, with at most `fuel` calls; the steps and their order are those of
48_jacobi.md R184. The second argument falls in each call but the one that makes `a` positive, so `b + 2` calls are
enough (R186; log 26). -/
def jacobiRec : Nat → Int → Nat → Int
  | 0, _, _ => 0
  | fuel + 1, a, b =>
    let a' := if a ≥ b then a % b else a
    if a' = 0 then 0
    else if a' = 1 then 1
    else if a' < 0 then (if b % 4 = 1 then jacobiRec fuel (-a') b else -jacobiRec fuel (-a') b)
    else
      let x := oddPart a'.toNat a'.toNat
      let s2 : Int := if x.1 % 2 = 1 ∧ (b % 8 = 3 ∨ b % 8 = 5) then -1 else 1
      let s : Int := if b % 4 = 3 ∧ x.2 % 4 = 3 then -s2 else s2
      if x.2 = 1 then s else s * jacobiRec fuel ((b % x.2 : Nat) : Int) x.2

/-- `J(a, b)` (48_jacobi.md R184). -/
def jacobiOf (a : Int) (b : Nat) : Int := jacobiRec (b + 2) a b

/-- The result of JACOBI: InvalidArgument for an even or non-positive second operand (48_jacobi.md R183). -/
def jacobiResult (_C : Nat) (a b : Int) : Except ErrorKind Int :=
  if b ≤ 0 ∨ b % 2 = 0 then .error .invalidArgument else .ok (jacobiOf a b.toNat)

/-- JACOBI (48_jacobi.md R183). -/
def execJacobi (rd ra rb : RegIx) (s : State) : Outcome State Fault Refusal := s.runBinary jacobiResult rd ra rb

end Sys2Proof.Machine
end

