-- ==== Sys2Proof/Machine/ModPow.lean ====
section
/-! DEFINITION. MODPOW and the Barrett reduction unit (47_modpow.md). -/

namespace Sys2Proof.Machine

open Host (Outcome)

/-- The limb count of a magnitude, at least 1 (47_modpow.md R171). -/
def limbCount (n : Nat) : Nat := Nat.max 1 ((bitLength n + 31) / 32)

/-- `β^n = 2^(32·n)` (47_modpow.md R171). -/
def limbPower (n : Nat) : Nat := 2 ^ (32 * n)

/-- The Barrett constant `μ = β^(2k) div N` (47_modpow.md R173). -/
def barrettConstant (N k : Nat) : Nat := limbPower (2 * k) / N

/-- `while r ≥ N: r <- r - N`, at most `fuel` times round (47_modpow.md R172). -/
def subtractWhile (N : Nat) : Nat → Nat → Nat
  | 0, r => r
  | fuel + 1, r => if r ≥ N then subtractWhile N fuel (r - N) else r

/-- BarrettReduce (47_modpow.md R172). The subtraction of `r2` adds `β^(k+1)` once where it would be negative; the last
loop has as many rounds as `r` holds `N` (log 26). -/
def barrettReduce (N k mu x : Nat) : Nat :=
  let q1 := x / limbPower (k - 1)
  let q2 := q1 * mu
  let q3 := q2 / limbPower (k + 1)
  let r1 := x % limbPower (k + 1)
  let r2 := q3 * N % limbPower (k + 1)
  let r := if r1 < r2 then r1 + limbPower (k + 1) - r2 else r1 - r2
  subtractWhile N (r / N) r

/-- Square and multiply from exponent bit `i` on, for `n` more bits, with the early exit (47_modpow.md R174, R176). -/
def powLoop (N k mu e : Nat) : Nat → Nat → Nat → Nat → Nat
  | 0, _, result, _ => result
  | n + 1, i, result, base =>
    let result' := if e.testBit i then barrettReduce N k mu (result * base) else result
    let base' := barrettReduce N k mu (base * base)
    if base' = 1 then result' else powLoop N k mu e n (i + 1) result' base'

/-- The magnitude that MODPOW computes, from `|a|`, `e` and `N = |n|` (47_modpow.md R174). -/
def powMagnitude (a e N : Nat) : Nat :=
  powLoop N (limbCount N) (barrettConstant N (limbCount N)) e (bitLength e) 0 (1 % N) (a % N)

/-- The result of MODPOW: exponent, modulus and capacity checks in order, then the power with its sign restored
(47_modpow.md R171, R174, R175). -/
def modPowResult (C : Nat) (a e n : Int) : Except ErrorKind Int :=
  if e < 0 then .error .nonPositiveExponent
  else if n = 0 then .error .divideByZero
  else if 2 * limbCount n.natAbs + 1 > C then .error .overflow
  else
    let r : Int := powMagnitude a.natAbs e.toNat n.natAbs
    .ok (if a < 0 ∧ e % 2 = 1 then -r else r)

/-- MODPOW: result, base, exponent, modulus (47_modpow.md R174). -/
def execModpow (rd ra rb rc : RegIx) (s : State) : Outcome State Fault Refusal :=
  s.runTernary modPowResult rd ra rb rc

end Sys2Proof.Machine
end

