-- ==== Sys2Proof/Machine/Multiply.lean ====
section
/-! DEFINITION. MUL (44_multiply.md). The schoolbook datapath (R147, R148) is in Machine/Datapath.lean. -/

namespace Sys2Proof.Machine

open Host (Outcome)

/-- MUL: the exact product, with Overflow on either side of the range (44_multiply.md R146; 90_conflicts.md C1, C3). -/
def execMul (rd ra rb : RegIx) (s : State) : Outcome State Fault Refusal :=
  s.runBinary (fun C a b => fitO C (a * b)) rd ra rb

end Sys2Proof.Machine
end

