-- ==== Sys2Proof/Machine/Radix.lean ====
section
/-! DEFINITION. FMT (49_radix.md). -/

namespace Sys2Proof.Machine

open Host (Outcome)

/-- The character of a digit value: `0` to `9`, then upper-case letters (49_radix.md R190). -/
def charOf (d : Nat) : Byte := BitVec.ofNat 8 (if d ≤ 9 then 0x30 + d else 0x41 + d - 10)

/-- `while m ≠ 0`: prepend the character of `m mod radix` to `cs`, at most `fuel` times round (49_radix.md R189). Each
round divides `m` by at least 2, so `m` rounds are enough (log 26). -/
def formatDigits (radix : Nat) : Nat → Nat → List Byte → List Byte
  | 0, _, cs => cs
  | fuel + 1, m, cs => if m = 0 then cs else formatDigits radix fuel (m / radix) (charOf (m % radix) :: cs)

/-- The string FMT writes (49_radix.md R189). -/
def formatValue (radix : Nat) (a : Int) : List Byte :=
  let cs := if a = 0 then [0x30] else formatDigits radix a.natAbs a.natAbs []
  if a < 0 then 0x2D :: cs else cs

/-- FMT: its destinations are TB and TLEN (49_radix.md R189). -/
def execFmt (ra : RegIx) (imm : BitVec 8) (s : State) : Outcome State Fault Refusal :=
  let a := s.readV ra
  if ¬ radixOk imm.toNat then a.2.finish (.error .invalidRadix)
  else a.2.finish (.ok ⟨[], some (formatValue imm.toNat a.1)⟩)

end Sys2Proof.Machine
end

