-- ==== Sys2Proof/Machine/Shift.lean ====
section
/-! DEFINITION. SHL, SHLW, SHR (43_shift.md). The limb datapath (R142) is in Machine/Datapath.lean. -/

namespace Sys2Proof.Machine

open Host (Outcome)

/-- The result of SHL: a negative amount is InvalidArgument, then the range check (43_shift.md R138, R139). -/
def shlResult (C : Nat) (a n : Int) : Except ErrorKind Int :=
  if n < 0 then .error .invalidArgument
  else if a = 0 then .ok 0
  else if n ≥ widthOf C then .error (if a > 0 then .overflow else .underflow)
  else fit C (a * 2 ^ n.toNat)

/-- The result of SHLW: the pattern is shifted and cut to W bits (43_shift.md R140). -/
def shlwResult (C : Nat) (a n : Int) : Except ErrorKind Int :=
  if n < 0 then .error .invalidArgument
  else if n ≥ widthOf C then .ok 0
  else .ok (valOf C (enc C a * 2 ^ n.toNat % 2 ^ widthOf C))

/-- The result of SHR: the quotient by `2^s` rounded toward negative infinity, which `/` is for a positive divisor
(43_shift.md R141, 90_conflicts.md C16). -/
def shrResult (C : Nat) (a n : Int) : Except ErrorKind Int :=
  if n < 0 then .error .invalidArgument
  else if n ≥ widthOf C then .ok (if a < 0 then -1 else 0)
  else .ok (a / 2 ^ n.toNat)

/-- SHL (43_shift.md R139). -/
def execShl (rd ra rb : RegIx) (s : State) : Outcome State Fault Refusal := s.runBinary shlResult rd ra rb

/-- SHLW (43_shift.md R140). -/
def execShlw (rd ra rb : RegIx) (s : State) : Outcome State Fault Refusal := s.runBinary shlwResult rd ra rb

/-- SHR (43_shift.md R141). -/
def execShr (rd ra rb : RegIx) (s : State) : Outcome State Fault Refusal := s.runBinary shrResult rd ra rb

end Sys2Proof.Machine
end

