-- ==== Sys2Proof/Machine/SignCompare.lean ====
section
/-! DEFINITION. NEG, ABS, the six comparisons, MIN, MAX (41_sign_compare.md). -/

namespace Sys2Proof.Machine

open Host (Outcome)

/-- The result of NEG: Overflow at MIN only (41_sign_compare.md R115). -/
def negResult (C : Nat) (a : Int) : Except ErrorKind Int := if a = minVal C then .error .overflow else .ok (-a)

/-- The result of ABS: Overflow at MIN only (41_sign_compare.md R116). -/
def absResult (C : Nat) (a : Int) : Except ErrorKind Int := if a = minVal C then .error .overflow else .ok a.natAbs

/-- NEG (41_sign_compare.md R115). -/
def execNeg (rd ra : RegIx) (s : State) : Outcome State Fault Refusal := s.runUnary negResult rd ra

/-- ABS (41_sign_compare.md R116). -/
def execAbs (rd ra : RegIx) (s : State) : Outcome State Fault Refusal := s.runUnary absResult rd ra

/-- CMPEQ (41_sign_compare.md R118). -/
def execCmpeq (rd ra rb : RegIx) (s : State) : Outcome State Fault Refusal :=
  s.runBinary (fun _ a b => .ok (truth (a = b))) rd ra rb

/-- CMPNE (41_sign_compare.md R119). -/
def execCmpne (rd ra rb : RegIx) (s : State) : Outcome State Fault Refusal :=
  s.runBinary (fun _ a b => .ok (truth (a ≠ b))) rd ra rb

/-- CMPLT (41_sign_compare.md R120). -/
def execCmplt (rd ra rb : RegIx) (s : State) : Outcome State Fault Refusal :=
  s.runBinary (fun _ a b => .ok (truth (a < b))) rd ra rb

/-- CMPGT (41_sign_compare.md R121). -/
def execCmpgt (rd ra rb : RegIx) (s : State) : Outcome State Fault Refusal :=
  s.runBinary (fun _ a b => .ok (truth (a > b))) rd ra rb

/-- CMPLE (41_sign_compare.md R122). -/
def execCmple (rd ra rb : RegIx) (s : State) : Outcome State Fault Refusal :=
  s.runBinary (fun _ a b => .ok (truth (a ≤ b))) rd ra rb

/-- CMPGE (41_sign_compare.md R123). -/
def execCmpge (rd ra rb : RegIx) (s : State) : Outcome State Fault Refusal :=
  s.runBinary (fun _ a b => .ok (truth (a ≥ b))) rd ra rb

/-- MIN (41_sign_compare.md R124). -/
def execMin (rd ra rb : RegIx) (s : State) : Outcome State Fault Refusal :=
  s.runBinary (fun _ a b => .ok (if a ≤ b then a else b)) rd ra rb

/-- MAX (41_sign_compare.md R125). -/
def execMax (rd ra rb : RegIx) (s : State) : Outcome State Fault Refusal :=
  s.runBinary (fun _ a b => .ok (if a ≥ b then a else b)) rd ra rb

end Sys2Proof.Machine
end

