-- ==== Sys2Proof/Machine/Dispatch.lean ====
section
/-! DEFINITION. The meaning of every command: the completion step of a latched word that decodes to it (20_memory.md R61,
60_exceptions.md R197). -/

namespace Sys2Proof.Machine

def exec (i : Instr) (s : State) : Host.Outcome State Fault Refusal :=
  match i with
  | .mov rd ra => Sys2Proof.Machine.execMov rd ra s
  | .sets rd => Sys2Proof.Machine.execSets rd s
  | .setu rd => Sys2Proof.Machine.execSetu rd s
  | .ldlimbs rd => Sys2Proof.Machine.execLdlimbs rd s
  | .parse rd imm => Sys2Proof.Machine.execParse rd imm s
  | .neg rd ra => Sys2Proof.Machine.execNeg rd ra s
  | .abs rd ra => Sys2Proof.Machine.execAbs rd ra s
  | .cmpeq rd ra rb => Sys2Proof.Machine.execCmpeq rd ra rb s
  | .cmpne rd ra rb => Sys2Proof.Machine.execCmpne rd ra rb s
  | .cmplt rd ra rb => Sys2Proof.Machine.execCmplt rd ra rb s
  | .cmpgt rd ra rb => Sys2Proof.Machine.execCmpgt rd ra rb s
  | .cmple rd ra rb => Sys2Proof.Machine.execCmple rd ra rb s
  | .cmpge rd ra rb => Sys2Proof.Machine.execCmpge rd ra rb s
  | .min rd ra rb => Sys2Proof.Machine.execMin rd ra rb s
  | .max rd ra rb => Sys2Proof.Machine.execMax rd ra rb s
  | .add rd ra rb => Sys2Proof.Machine.execAdd rd ra rb s
  | .sub rd ra rb => Sys2Proof.Machine.execSub rd ra rb s
  | .inc rd ra => Sys2Proof.Machine.execInc rd ra s
  | .dec rd ra => Sys2Proof.Machine.execDec rd ra s
  | .shl rd ra rb => Sys2Proof.Machine.execShl rd ra rb s
  | .shlw rd ra rb => Sys2Proof.Machine.execShlw rd ra rb s
  | .shr rd ra rb => Sys2Proof.Machine.execShr rd ra rb s
  | .mul rd ra rb => Sys2Proof.Machine.execMul rd ra rb s
  | .div rd ra rb => Sys2Proof.Machine.execDiv rd ra rb s
  | .mod rd ra rb => Sys2Proof.Machine.execMod rd ra rb s
  | .divmod rd rc ra rb => Sys2Proof.Machine.execDivmod rd rc ra rb s
  | .gcd rd ra rb => Sys2Proof.Machine.execGcd rd ra rb s
  | .modinv rd ra rb => Sys2Proof.Machine.execModinv rd ra rb s
  | .modpow rd ra rb rc => Sys2Proof.Machine.execModpow rd ra rb rc s
  | .jacobi rd ra rb => Sys2Proof.Machine.execJacobi rd ra rb s
  | .fmt ra imm => Sys2Proof.Machine.execFmt ra imm s

end Sys2Proof.Machine
end

