-- ==== Sys2Proof/Machine/CoreStep.lean ====
section
/-! DEFINITION. The core's completion step, one step of the single order of host, reset and core (20_memory.md R61, R64;
60_exceptions.md R209), and placing a command where the next step fetches it. -/

namespace Sys2Proof.Machine

open Host (Outcome)

/-- Completion of a word: a command's meaning, or IllegalCommand, found before any operand is read (30_encoding.md R79,
60_exceptions.md R195, R197). -/
def State.completeWord (s : State) (w : Word) : Outcome State Fault Refusal :=
  match decode w with
  | some i => exec i s
  | none => s.finish (.error .illegalCommand)

/-- The core step: it is enabled exactly when a word is latched (60_exceptions.md R209). Where it is not enabled nothing
happens (60_exceptions.md R216, log 25). -/
def State.coreStep (s : State) : Outcome State Fault Refusal :=
  match s.latch with
  | none => .next s
  | some w => s.completeWord w

/-- The step of one event (60_exceptions.md R209). -/
def State.takeEvent (s : State) : Event → Outcome State Fault Refusal
  | .read addr w => s.hostRead addr w
  | .write addr w v => s.hostWrite addr w v
  | .hwReset => .next s.hwReset
  | .core => s.coreStep

/-- The next step: the first event to come; with none left, the core completes what is in flight (the weak fairness of
70_reset_and_hazards.md R240, log 3), and an idle block holds its state (60_exceptions.md R216). -/
def State.advance (s : State) : Outcome State Fault Refusal :=
  match s.events with
  | [] => s.coreStep
  | e :: es => State.takeEvent { s with events := es } e

/-- Latch the command whose low `nbits` bits are those of `w`, and let the core's step come next (log 16). -/
def State.placeCommand (s : State) (nbits w : Nat) : State :=
  { s with latch := some (BitVec.ofNat 32 (w % 2 ^ nbits)), events := .core :: s.events }

end Sys2Proof.Machine
end

