-- ==== Sys2Proof/Machine/Step.lean ====
section
/-! DEFINITION. One step of the machine, in its three outcomes. -/

namespace Sys2Proof.Machine

/-- One step: the next event, or the core's completion (Machine/CoreStep.lean). -/
def step (s : State) : Host.Outcome State Fault Refusal := s.advance

/-- The state with a command placed where the next step fetches it: the in-flight latch, with the core's step first among
the events (log 16). -/
def State.withFetchWord (s : State) (nbits w : Nat) : State := s.placeCommand nbits w

end Sys2Proof.Machine
end

