-- ==== Sys2Proof/Machine/Datapath.lean ====
section
/-! DEFINITION. The reference datapaths of the spec, limb by limb: negation (41_sign_compare.md R115), the ripple-carry
adder (42_addsub.md R134, R136), the shifter (43_shift.md R142), the schoolbook multiplier (44_multiply.md R147, R148),
single-limb division and Algorithm D (45_divide.md R156, R157), Euclid's algorithm (46_gcd_inverse.md R164). The extended
Euclid and Barrett datapaths are the meanings of MODINV and MODPOW themselves. Their scratch is private and is no state
(10_state.md R38 to R40); the meanings of the commands are the results, which the datapaths compute (log 19). -/

namespace Sys2Proof.Machine

/-! ## Limbs -/

/-- The low `n` limbs of a number, least significant first (00_scope.md R7). -/
def limbsOf : Nat → Nat → List Nat
  | 0, _ => []
  | n + 1, p => p % 2 ^ 32 :: limbsOf n (p / 2 ^ 32)

/-- The number of limbs, least significant first. -/
def ofLimbs : List Nat → Nat
  | [] => 0
  | x :: xs => x + 2 ^ 32 * ofLimbs xs

/-! ## Adder -/

/-- Limb-wise ripple-carry addition; the carry out of the last limb is discarded (42_addsub.md R134, R136). -/
def rippleAdd : List Nat → List Nat → Nat → List Nat
  | x :: xs, y :: ys, carry => (x + y + carry) % 2 ^ 32 :: rippleAdd xs ys ((x + y + carry) / 2 ^ 32)
  | _, _, _ => []

/-- The one's complement of every limb (41_sign_compare.md R115). -/
def complementLimbs (xs : List Nat) : List Nat := xs.map fun x => 2 ^ 32 - 1 - x

/-- The sum pattern over the whole capacity (42_addsub.md R134). -/
def addPattern (C p q : Nat) : Nat := ofLimbs (rippleAdd (limbsOf C p) (limbsOf C q) 0)

/-- The difference pattern: addition of the two's-complement negation (42_addsub.md R134). -/
def subPattern (C p q : Nat) : Nat := ofLimbs (rippleAdd (limbsOf C p) (complementLimbs (limbsOf C q)) 1)

/-- The negated pattern: one's complement of every limb, plus 1 with carry propagation (41_sign_compare.md R115). -/
def negPattern (C p : Nat) : Nat := ofLimbs (rippleAdd (complementLimbs (limbsOf C p)) (limbsOf C 0) 1)

/-- The error a sign check raises: the direction is that of the first operand (42_addsub.md R135). -/
def signError (negative : Bool) : ErrorKind := if negative then .underflow else .overflow

/-- The adder with the source's overflow rule for addition (42_addsub.md R134, R135). -/
def addDatapath (C p q : Nat) : Except ErrorKind Nat :=
  if signBit C p = signBit C q ∧ signBit C (addPattern C p q) ≠ signBit C p then .error (signError (signBit C p))
  else .ok (addPattern C p q)

/-- The adder with the source's overflow rule for subtraction (42_addsub.md R134, R135). -/
def subDatapath (C p q : Nat) : Except ErrorKind Nat :=
  if signBit C p ≠ signBit C q ∧ signBit C (subPattern C p q) ≠ signBit C p then .error (signError (signBit C p))
  else .ok (subPattern C p q)

/-! ## Shifter -/

/-- Shift limbs left by fewer than 32 bits, the carry going into the next limb (43_shift.md R142). -/
def shiftLeftBits (k : Nat) : List Nat → Nat → List Nat
  | [], _ => []
  | x :: xs, carry => (x * 2 ^ k + carry) % 2 ^ 32 :: shiftLeftBits k xs ((x * 2 ^ k + carry) / 2 ^ 32)

/-- Shift limbs right by fewer than 32 bits; `top` is the limb that stands above the last one (43_shift.md R142). -/
def shiftRightBits (k top : Nat) : List Nat → List Nat
  | [] => []
  | [x] => [x / 2 ^ k + top * 2 ^ (32 - k) % 2 ^ 32]
  | x :: y :: xs => (x / 2 ^ k + y * 2 ^ (32 - k) % 2 ^ 32) :: shiftRightBits k top (y :: xs)

/-- The left shifter: whole-limb moves, then one bit shift; what leaves the capacity is lost (43_shift.md R142). -/
def shlPattern (C p n : Nat) : Nat :=
  ofLimbs (shiftLeftBits (n % 32) (List.replicate (n / 32) 0 ++ limbsOf (C - n / 32) p) 0)

/-- The limb that fills a right shift: all ones for a negative pattern (43_shift.md R142). -/
def fillLimb (C p : Nat) : Nat := if signBit C p then 2 ^ 32 - 1 else 0

/-- The arithmetic right shifter: whole-limb moves, then one bit shift (43_shift.md R142). -/
def shrPattern (C p n : Nat) : Nat :=
  ofLimbs (shiftRightBits (n % 32) (fillLimb C p)
    ((limbsOf C p).drop (n / 32) ++ List.replicate (n / 32) (fillLimb C p)))

/-! ## Multiplier -/

/-- One row, `R[i+j] <- R[i+j] + A[i]·B[j] + carry` for every `j`, and the carry into `R[i+n]`; the list starts at
`R[i]` (44_multiply.md R147). -/
def mulRow (a : Nat) : List Nat → List Nat → Nat → List Nat
  | r :: rs, b :: bs, carry => (r + a * b + carry) % 2 ^ 32 :: mulRow a rs bs ((r + a * b + carry) / 2 ^ 32)
  | _ :: rs, [], carry => carry :: rs
  | [], _, _ => []

/-- The rows of all limbs of `A`; after row `i` the limb `R[i]` is final (44_multiply.md R147). -/
def mulRows (bs : List Nat) : List Nat → List Nat → List Nat
  | [], rs => rs
  | a :: as, rs =>
    match mulRow a rs bs 0 with
    | [] => []
    | r :: rs' => r :: mulRows bs as rs'

/-- The magnitude product `P` (44_multiply.md R147). -/
def mulMagnitude (A B : Nat) : Nat :=
  ofLimbs (mulRows (limbsOf (limbCount B) B) (limbsOf (limbCount A) A) (List.replicate (limbCount A + limbCount B) 0))

/-- The multiplier with its overflow and sign rule (44_multiply.md R148, 90_conflicts.md C1). -/
def mulDatapath (C : Nat) (a b : Int) : Except ErrorKind Int :=
  let P := mulMagnitude a.natAbs b.natAbs
  let neg := decide (a < 0) != decide (b < 0)
  if P ≥ 2 ^ widthOf C then .error .overflow
  else if P ≥ 2 ^ (widthOf C - 1) ∧ ¬ (P = 2 ^ (widthOf C - 1) ∧ neg = true) then .error .overflow
  else .ok (if neg then -(P : Int) else P)

/-! ## Divider -/

/-- Long division by one limb, from the most significant limb down: quotient so far and remainder (45_divide.md R156). -/
def shortDivision (d : Nat) : List Nat → Nat → Nat → Nat × Nat
  | [], q, r => (q, r)
  | x :: xs, q, r => shortDivision d xs (q * 2 ^ 32 + (r * 2 ^ 32 + x) / d) ((r * 2 ^ 32 + x) % d)

/-- The correction of a quotient-digit estimate by the second divisor limb, at most `fuel` times round (45_divide.md
R157); `top` and `second` are the divisor's two top limbs, `u` the third limb of the window (log 26). -/
def correctEstimate (top second u : Nat) : Nat → Nat → Nat → Nat
  | 0, qhat, _ => qhat
  | fuel + 1, qhat, rhat =>
    if qhat ≥ 2 ^ 32 ∨ qhat * second > rhat * 2 ^ 32 + u then
      if rhat + top ≥ 2 ^ 32 then qhat - 1 else correctEstimate top second u fuel (qhat - 1) (rhat + top)
    else qhat

/-- Trial subtraction: `while qhat·V > window: qhat <- qhat - 1`, at most `fuel` times round (45_divide.md R157). -/
def trialSubtract (V window : Nat) : Nat → Nat → Nat
  | 0, qhat => qhat
  | fuel + 1, qhat => if qhat * V > window then trialSubtract V window fuel (qhat - 1) else qhat

/-- One quotient digit: the window `U[j .. j+n]` of the remainder against the `n`-limb divisor `V` (45_divide.md R157). -/
def quotientDigit (n V window : Nat) : Nat :=
  let top := limbOf V (n - 1)
  let num := limbOf window n * 2 ^ 32 + limbOf window (n - 1)
  let qhat := correctEstimate top (limbOf V (n - 2)) (limbOf window (n - 2)) 3 (num / top) (num % top)
  trialSubtract V window qhat qhat

/-- The digits `j - 1` down to 0 of Algorithm D: quotient so far and remainder `U` (45_divide.md R157). -/
def digitLoop (n V : Nat) : Nat → Nat → Nat → Nat × Nat
  | 0, q, U => (q, U)
  | j + 1, q, U =>
    let qhat := quotientDigit n V (U / limbPower j % limbPower (n + 1))
    digitLoop n V j (q * 2 ^ 32 + qhat) (U - qhat * V * limbPower j)

/-- Algorithm D: normalize, divide digit by digit, shift the remainder back (45_divide.md R157, D41). -/
def algorithmD (A B : Nat) : Nat × Nat :=
  let n := limbCount B
  let sh := 32 * n - bitLength B
  let x := digitLoop n (B * 2 ^ sh) (limbCount A - n + 1) 0 (A * 2 ^ sh)
  (x.1, x.2 / 2 ^ sh)

/-- The divider's front end on magnitudes (45_divide.md R156). -/
def divideMagnitudes (A B : Nat) : Nat × Nat :=
  if A < B then (0, A)
  else if B < 2 ^ 32 then shortDivision B (limbsOf (limbCount A) A).reverse 0 0
  else algorithmD A B

/-- The divider: magnitudes, then the signs (45_divide.md R156). -/
def divideDatapath (a b : Int) : Int × Int :=
  let x := divideMagnitudes a.natAbs b.natAbs
  (if a.sign * b.sign < 0 then -(x.1 : Int) else x.1, if a < 0 then -(x.2 : Int) else x.2)

/-! ## Euclid -/

/-- `while y ≠ 0: (x, y) <- (y, x mod y)`, at most `fuel` times round (46_gcd_inverse.md R164). -/
def gcdLoop : Nat → Nat → Nat → Nat
  | 0, x, _ => x
  | fuel + 1, x, y => if y = 0 then x else gcdLoop fuel y (x % y)

/-- Euclid's algorithm over absolute values, the larger first (46_gcd_inverse.md R164). -/
def gcdDatapath (a b : Int) : Nat :=
  gcdLoop (Nat.min a.natAbs b.natAbs + 1) (Nat.max a.natAbs b.natAbs) (Nat.min a.natAbs b.natAbs)

end Sys2Proof.Machine
end

