-- ==== Sys2Proof/Safety.lean ====
section
/-! DEFINITION. What the statements are about: the invariant of the machine, what commands leave alone, and safe runs. -/

namespace Sys2Proof.Machine

/-- The ERR codes that are ever produced: 0 to 9 and 15 (10_state.md R26, 93_implementation_defined.md S10). -/
def legalErr (e : BitVec 4) : Bool := decide (e.toNat ≤ 9) || decide (e.toNat = 15)

/-- The offsets that have storage: LB and TB (20_memory.md R46). -/
def bufferOffset (a : Nat) : Bool := decide (0x1000 ≤ a ∧ a < 0x2000) || decide (0x10000 ≤ a ∧ a < 0x20000)

/-- An access that reaches the limb buffer: 32 bits wide, at a multiple of 4 from 0x1000 to 0x1FFF (20_memory.md R46, R54). -/
abbrev lbAccess (off : Nat) (w : Width) : Prop := w = .b32 ∧ off % 4 = 0 ∧ 0x1000 ≤ off ∧ off < 0x2000

/-- An access that reaches the text buffer: of any width, aligned to it, from 0x10000 to 0x1FFFF (20_memory.md R46, R54). -/
abbrev tbAccess (off : Nat) (w : Width) : Prop := off % w.bytes = 0 ∧ 0x10000 ≤ off ∧ off < 0x20000

/-- A limb of LB is written whole or not at all: it is one 32-bit word (10_state.md R32, 20_memory.md R53, R54). -/
def lbWhole (m : Memory) : Prop :=
  ∀ j < 1024, ∀ k < 4, (m.read (lbOffset + 4 * j + k)).isSome = (m.read (lbOffset + 4 * j)).isSome

/-- The invariant of the machine: what holds at reset and what every step keeps. -/
structure State.Inv (s : State) : Prop where
  /-- The capacity is from 1 to 1024 (00_scope.md R5). -/
  capacity : 1 ≤ s.cap ∧ s.cap ≤ 1024
  /-- BASE is a multiple of the window's size (20_memory.md R45). -/
  base : s.base % windowSize = 0
  /-- Every register holds a representable value (00_scope.md R10). -/
  values : ∀ r, InRange s.cap (s.val r)
  /-- The memory is in its canonical form. -/
  memory : s.mem.wf
  /-- Only LB and TB have storage (20_memory.md R46). -/
  storage : ∀ c ∈ s.mem, bufferOffset c.1 = true
  /-- Limbs of LB are written whole (20_memory.md R53). -/
  limbs : lbWhole s.mem
  /-- ERR is a code that is produced (10_state.md R26). -/
  error : legalErr s.err = true
  /-- A failure that ERR shows is in the sticky bit too (10_state.md R26, 60_exceptions.md R205). -/
  sticky : s.err ≠ 0 → s.estk = true

/-- A run is safe so far: no command has read an unwritten item (60_exceptions.md R217). -/
def State.safe (s : State) : Prop := s.faulted = false

/-- What every command leaves alone, besides V, TB and TLEN: ARG, OVR, the capacity, the base address, and what the host
sees and has still to do (10_state.md R30, 60_exceptions.md R197, R211). -/
structure State.SameHost (s t : State) : Prop where
  argLo : t.argLo = s.argLo
  argHi : t.argHi = s.argHi
  ovr : t.ovr = s.ovr
  cap : t.cap = s.cap
  base : t.base = s.base
  events : t.events = s.events
  resp : t.resp = s.resp

/-- The string `cs` stands in the text buffer from its start (10_state.md R33). -/
def State.textIs (s : State) (cs : List Byte) : Prop := ∀ j (h : j < cs.length), s.mem.read (tbOffset + j) = some cs[j]

/-- The limbs `xs` stand in the limb buffer, `xs[0]` in `LB[0]` (10_state.md R32, 20_memory.md R51). -/
def State.limbsAre (s : State) (xs : List Nat) : Prop :=
  ∀ j (h : j < xs.length), ∀ k < 4, s.mem.read (lbOffset + 4 * j + k) = some (BitVec.ofNat 8 (xs[j] / 256 ^ k))

/-- The string `cs` is a numeral of the radix and stands for `v`: one optional sign, then at least one digit, all below
the radix, the most significant first (40_construction.md R107, R108). -/
def IsNumeral (radix : Nat) (cs : List Byte) (v : Int) : Prop :=
  ∃ (sign chars : List Byte) (ds : List Nat),
    cs = sign ++ chars ∧ chars.map digitOf = ds.map some ∧ ds ≠ [] ∧ (∀ d ∈ ds, d < radix) ∧
      ((sign = [] ∨ sign = [0x2B]) ∧ v = (Nat.ofDigits radix ds.reverse : Nat) ∨
        sign = [0x2D] ∧ v = -((Nat.ofDigits radix ds.reverse : Nat) : Int))

end Sys2Proof.Machine
end

