-- ==== Sys2Proof/Certificates/Slice0/Obligations.lean ====
section
/-! DEFINITION. The statements for the provers. Each docstring names the rules it formalises. In the results, `s.setV rd x`
writes register `rd`, `.succeed` is a success (ERR 0, BUSY and the latch cleared) and `s.raise e` a failure (ERR the code
of `e`, ESTK 1, BUSY and the latch cleared), 60_exceptions.md R197. -/

open Sys2Proof Sys2Proof.Machine

/-! ## The command word -/

/-- For each of the 31 commands, a word that the spec works out decodes to the command it stands for, and is its encoding
(30_encoding.md R80, R83, R85; the words are those of the examples of the command rules and of 95_test_vectors.md). -/
def Obligations.WorkedWordsDecode : Prop :=
  (∀ p ∈ ([(0x01210000, .mov 2 1), (0x02000000, .sets 0), (0x03100000, .setu 1), (0x04100000, .ldlimbs 1),
    (0x05000010, .parse 0 16)] : List (Word × Instr)),
    decode p.1 = some p.2 ∧ encode p.2 = p.1) ∧
  (∀ p ∈ ([(0x10210000, .neg 2 1), (0x11110000, .abs 1 1), (0x12312000, .cmpeq 3 1 2), (0x13312000, .cmpne 3 1 2),
    (0x14312000, .cmplt 3 1 2), (0x15312000, .cmpgt 3 1 2), (0x16312000, .cmple 3 1 2), (0x17312000, .cmpge 3 1 2),
    (0x18312000, .min 3 1 2), (0x19312000, .max 3 1 2)] : List (Word × Instr)),
    decode p.1 = some p.2 ∧ encode p.2 = p.1) ∧
  (∀ p ∈ ([(0x20312000, .add 3 1 2), (0x21312000, .sub 3 1 2), (0x22110000, .inc 1 1), (0x23210000, .dec 2 1),
    (0x30312000, .shl 3 1 2), (0x31312000, .shlw 3 1 2), (0x32312000, .shr 3 1 2)] : List (Word × Instr)),
    decode p.1 = some p.2 ∧ encode p.2 = p.1) ∧
  (∀ p ∈ ([(0x40756000, .mul 7 5 6), (0x50312000, .div 3 1 2), (0x51312000, .mod 3 1 2), (0x52412500, .divmod 4 5 1 2),
    (0x60312000, .gcd 3 1 2), (0x61312000, .modinv 3 1 2), (0x62412300, .modpow 4 1 2 3), (0x63312000, .jacobi 3 1 2),
    (0x7001000A, .fmt 1 10)] : List (Word × Instr)),
    decode p.1 = some p.2 ∧ encode p.2 = p.1)

/-- Decoding an encoded well-formed command gives it back (30_encoding.md R76, R79, R80, R85). -/
def Obligations.DecodeOfEncode : Prop := ∀ i : Instr, i.wellFormed = true → decode (encode i) = some i

/-- A word that decodes is the encoding of the one well-formed command it decodes to (30_encoding.md R79, R85). -/
def Obligations.EncodeOfDecode : Prop :=
  ∀ (w : Word) (i : Instr), decode w = some i → encode i = w ∧ i.wellFormed = true

/-- A word decodes exactly when it matches a row of the opcode table and is no DIVMOD with `rd = rc`; the command it
decodes to is the one that the matching row names; at most one row matches (30_encoding.md R77, R79, R80, R81). -/
def Obligations.DecodeFollowsTable : Prop :=
  (∀ w : Word, (decode w).isSome =
    (opcodeRows.any (fun r => r.covers w) && !(fieldOp w == 0x52 && fieldRd w == fieldRc w))) ∧
  (∀ (w : Word) (i : Instr), decode w = some i → ∀ r ∈ opcodeRows, r.covers w = true → r.mnemonic = i.mnemonic) ∧
  (∀ w : Word, ∀ r ∈ opcodeRows, ∀ r' ∈ opcodeRows, r.covers w = true → r'.covers w = true → r = r')

/-! ## Steps -/

/-- The core's step runs the command that the latched word decodes to, when the core's step comes next or nothing else is
to come; an idle block with nothing to come holds its state (20_memory.md R61, 60_exceptions.md R209, R216). That the
core steps when no event is left is the model's choice, log 3. -/
def Obligations.StepRunsDecodedCommand : Prop :=
  (∀ (s : State) (w : Word) (i : Instr) (es : List Event), s.latch = some w → decode w = some i →
    s.events = .core :: es → step s = exec i { s with events := es }) ∧
  (∀ (s : State) (w : Word) (i : Instr), s.latch = some w → decode w = some i → s.events = [] → step s = exec i s) ∧
  (∀ s : State, s.latch = none → s.events = [] → step s = .next s)

/-- An illegal word completes with ERR = 15 and ESTK = 1, and changes no other state (30_encoding.md R81, 60_exceptions.md
R195, R197). -/
def Obligations.IllegalWordFails : Prop :=
  ∀ (s : State) (w : Word) (es : List Event), s.latch = some w → decode w = none → s.events = .core :: es →
    step s = .next { s with events := es, latch := none, err := 15, estk := true }

/-! ## Construction -/

/-- MOV copies the value; a read of an unwritten register is recorded in the fault mark (40_construction.md R100). -/
def Obligations.MovCopies : Prop :=
  ∀ (s : State) (rd ra : RegIx),
    (s.written ra = true → exec (.mov rd ra) s = .next (s.setV rd (s.val ra)).succeed) ∧
    (s.written ra = false → ∃ t, exec (.mov rd ra) s = .next t ∧ t.faulted = true)

/-- SETS and SETU construct from ARG, signed and unsigned; from two (three) limbs on they never fail (40_construction.md
R101, R102). -/
def Obligations.SetsAndSetuFit : Prop :=
  ∀ (s : State) (rd : RegIx) (u v : Int),
    u = (s.argHi.toNat * 2 ^ 32 + s.argLo.toNat : Nat) →
    v = (if s.argHi.getLsbD 31 then u - 2 ^ 64 else u) →
    exec (.sets rd) s = .next (if v > maxVal s.cap then s.raise .overflow
      else if v < minVal s.cap then s.raise .underflow else (s.setV rd v).succeed) ∧
    exec (.setu rd) s = .next (if u > maxVal s.cap then s.raise .overflow else (s.setV rd u).succeed) ∧
    (2 ≤ s.cap → exec (.sets rd) s = .next (s.setV rd v).succeed) ∧
    (3 ≤ s.cap → exec (.setu rd) s = .next (s.setV rd u).succeed)

/-- LDLIMBS takes the limbs of LB, most significant first, as a raw pattern; a longer array than the capacity is
CapacityExceeded (40_construction.md R103). -/
def Obligations.LdlimbsLoadsPattern : Prop :=
  (∀ (s : State) (rd : RegIx) (xs : List Nat), (∀ x ∈ xs, x < 2 ^ 32) → s.limbsAre xs → s.argLo.toNat = xs.length →
    xs.length ≤ s.cap →
    exec (.ldlimbs rd) s = .next (s.setV rd (valOf s.cap (ofLimbs xs.reverse))).succeed) ∧
  (∀ (s : State) (rd : RegIx), s.argLo.toNat > s.cap → exec (.ldlimbs rd) s = .next (s.raise .capacityExceeded))

/-- PARSE of a numeral gives its exact value, or the error of its direction (40_construction.md R105, R107, R108). -/
def Obligations.ParseReadsNumerals : Prop :=
  ∀ (s : State) (rd : RegIx) (imm : BitVec 8) (cs : List Byte) (v : Int),
    2 ≤ imm.toNat → imm.toNat ≤ 36 → s.textIs cs → s.tlen.toNat = cs.length → cs.length ≤ 65536 →
    IsNumeral imm.toNat cs v →
    exec (.parse rd imm) s = .next (if v > maxVal s.cap then s.raise .overflow
      else if v < minVal s.cap then s.raise .underflow else (s.setV rd v).succeed)

/-- PARSE's other errors, in their order: the radix, the length, and a string that is no numeral, whatever its size
(40_construction.md R107, R108; 60_exceptions.md R200). -/
def Obligations.ParseErrorsInOrder : Prop :=
  ∀ (s : State) (rd : RegIx) (imm : BitVec 8),
    (¬ (2 ≤ imm.toNat ∧ imm.toNat ≤ 36) → exec (.parse rd imm) s = .next (s.raise .invalidRadix)) ∧
    (2 ≤ imm.toNat ∧ imm.toNat ≤ 36 → s.tlen.toNat > 65536 →
      exec (.parse rd imm) s = .next (s.raise .invalidArgument)) ∧
    (∀ cs : List Byte, 2 ≤ imm.toNat ∧ imm.toNat ≤ 36 → s.textIs cs → s.tlen.toNat = cs.length → cs.length ≤ 65536 →
      (∀ v, ¬ IsNumeral imm.toNat cs v) → exec (.parse rd imm) s = .next (s.raise .invalidDigit))

/-! ## Sign and comparison -/

/-- NEG and ABS: Overflow at MIN, else the exact result (41_sign_compare.md R115, R116). -/
def Obligations.NegAndAbsFailAtMin : Prop :=
  ∀ (s : State) (rd ra : RegIx), s.written ra = true →
    exec (.neg rd ra) s =
      .next (if s.val ra = minVal s.cap then s.raise .overflow else (s.setV rd (-s.val ra)).succeed) ∧
    exec (.abs rd ra) s =
      .next (if s.val ra = minVal s.cap then s.raise .overflow else (s.setV rd |s.val ra|).succeed)

/-- The six comparisons write 1 or 0 (41_sign_compare.md R118 to R123). -/
def Obligations.ComparisonsWriteTruth : Prop :=
  ∀ (s : State) (rd ra rb : RegIx) (a b : Int), s.written ra = true → s.written rb = true → a = s.val ra → b = s.val rb →
    exec (.cmpeq rd ra rb) s = .next (s.setV rd (if a = b then 1 else 0)).succeed ∧
    exec (.cmpne rd ra rb) s = .next (s.setV rd (if a ≠ b then 1 else 0)).succeed ∧
    exec (.cmplt rd ra rb) s = .next (s.setV rd (if a < b then 1 else 0)).succeed ∧
    exec (.cmpgt rd ra rb) s = .next (s.setV rd (if b < a then 1 else 0)).succeed ∧
    exec (.cmple rd ra rb) s = .next (s.setV rd (if a ≤ b then 1 else 0)).succeed ∧
    exec (.cmpge rd ra rb) s = .next (s.setV rd (if b ≤ a then 1 else 0)).succeed

/-- MIN and MAX are the signed minimum and maximum (41_sign_compare.md R124, R125). -/
def Obligations.MinAndMaxOfTwo : Prop :=
  ∀ (s : State) (rd ra rb : RegIx), s.written ra = true → s.written rb = true →
    exec (.min rd ra rb) s = .next (s.setV rd (min (s.val ra) (s.val rb))).succeed ∧
    exec (.max rd ra rb) s = .next (s.setV rd (max (s.val ra) (s.val rb))).succeed

/-! ## Add and subtract -/

/-- ADD (42_addsub.md R130). -/
def Obligations.AddFitsOrFails : Prop :=
  ∀ (s : State) (rd ra rb : RegIx), s.written ra = true → s.written rb = true →
    exec (.add rd ra rb) s = .next (if s.val ra + s.val rb > maxVal s.cap then s.raise .overflow
      else if s.val ra + s.val rb < minVal s.cap then s.raise .underflow
      else (s.setV rd (s.val ra + s.val rb)).succeed)

/-- SUB (42_addsub.md R131). -/
def Obligations.SubFitsOrFails : Prop :=
  ∀ (s : State) (rd ra rb : RegIx), s.written ra = true → s.written rb = true →
    exec (.sub rd ra rb) s = .next (if s.val ra - s.val rb > maxVal s.cap then s.raise .overflow
      else if s.val ra - s.val rb < minVal s.cap then s.raise .underflow
      else (s.setV rd (s.val ra - s.val rb)).succeed)

/-- INC fails at MAX only, DEC at MIN only (42_addsub.md R132, R133). -/
def Obligations.IncAndDecFailAtTheEnds : Prop :=
  ∀ (s : State) (rd ra : RegIx), s.written ra = true → InRange s.cap (s.val ra) →
    exec (.inc rd ra) s =
      .next (if s.val ra = maxVal s.cap then s.raise .overflow else (s.setV rd (s.val ra + 1)).succeed) ∧
    exec (.dec rd ra) s =
      .next (if s.val ra = minVal s.cap then s.raise .underflow else (s.setV rd (s.val ra - 1)).succeed)

/-! ## Shift -/

/-- SHL: a negative amount is InvalidArgument; any other amount multiplies exactly by a power of two, with the range check
(43_shift.md R138, R139). -/
def Obligations.ShlMultipliesExactly : Prop :=
  ∀ (s : State) (rd ra rb : RegIx) (a n : Int), s.written ra = true → s.written rb = true → 1 ≤ s.cap →
    a = s.val ra → n = s.val rb →
    (n < 0 → exec (.shl rd ra rb) s = .next (s.raise .invalidArgument)) ∧
    (0 ≤ n → exec (.shl rd ra rb) s = .next (if a * 2 ^ n.toNat > maxVal s.cap then s.raise .overflow
      else if a * 2 ^ n.toNat < minVal s.cap then s.raise .underflow else (s.setV rd (a * 2 ^ n.toNat)).succeed))

/-- SHLW: a negative amount is InvalidArgument; any other amount shifts the pattern and keeps its low W bits (43_shift.md
R138, R140). -/
def Obligations.ShlwKeepsLowBits : Prop :=
  ∀ (s : State) (rd ra rb : RegIx) (n : Int), s.written ra = true → s.written rb = true → 1 ≤ s.cap → n = s.val rb →
    (n < 0 → exec (.shlw rd ra rb) s = .next (s.raise .invalidArgument)) ∧
    (0 ≤ n → ∃ x, exec (.shlw rd ra rb) s = .next (s.setV rd x).succeed ∧ InRange s.cap x ∧
      enc s.cap x = enc s.cap (s.val ra) * 2 ^ n.toNat % 2 ^ widthOf s.cap)

/-- SHR: a negative amount is InvalidArgument; any other amount rounds `a / 2^s` toward negative infinity (43_shift.md
R138, R141). -/
def Obligations.ShrRoundsDown : Prop :=
  ∀ (s : State) (rd ra rb : RegIx) (n : Int), s.written ra = true → s.written rb = true → 1 ≤ s.cap →
    InRange s.cap (s.val ra) → n = s.val rb →
    (n < 0 → exec (.shr rd ra rb) s = .next (s.raise .invalidArgument)) ∧
    (0 ≤ n → exec (.shr rd ra rb) s = .next (s.setV rd (Int.fdiv (s.val ra) (2 ^ n.toNat))).succeed)

/-! ## Multiply and divide -/

/-- MUL: the exact product, or Overflow on either side (44_multiply.md R146). -/
def Obligations.MulFitsOrOverflows : Prop :=
  ∀ (s : State) (rd ra rb : RegIx), s.written ra = true → s.written rb = true →
    exec (.mul rd ra rb) s =
      .next (if s.val ra * s.val rb > maxVal s.cap ∨ s.val ra * s.val rb < minVal s.cap then s.raise .overflow
        else (s.setV rd (s.val ra * s.val rb)).succeed)

/-- DIV and MOD: DivideByZero for a zero divisor; else the truncating quotient, which overflows for `MIN / -1` alone, and
the remainder with the dividend's sign, which never fails (45_divide.md R151 to R154). -/
def Obligations.DivAndModTruncate : Prop :=
  ∀ (s : State) (rd ra rb : RegIx) (a b : Int), s.written ra = true → s.written rb = true →
    InRange s.cap (s.val ra) → a = s.val ra → b = s.val rb →
    exec (.div rd ra rb) s = .next (if b = 0 then s.raise .divideByZero
      else if a = minVal s.cap ∧ b = -1 then s.raise .overflow else (s.setV rd (a.tdiv b)).succeed) ∧
    exec (.mod rd ra rb) s =
      .next (if b = 0 then s.raise .divideByZero else (s.setV rd (a.tmod b)).succeed)

/-- DIVMOD: both results or neither; the two it writes satisfy `q·b + r = a`, with `|r| < |b|` and the remainder of the
dividend's sign; one register named twice is IllegalCommand (45_divide.md R151, R152, R155; 30_encoding.md R79). -/
def Obligations.DivmodWritesBoth : Prop :=
  ∀ (s : State) (rd rc ra rb : RegIx) (a b : Int), s.written ra = true → s.written rb = true →
    InRange s.cap (s.val ra) → a = s.val ra → b = s.val rb →
    (rd = rc → exec (.divmod rd rc ra rb) s = .next (s.raise .illegalCommand)) ∧
    (rd ≠ rc → b = 0 → exec (.divmod rd rc ra rb) s = .next (s.raise .divideByZero)) ∧
    (rd ≠ rc → a = minVal s.cap → b = -1 → exec (.divmod rd rc ra rb) s = .next (s.raise .overflow)) ∧
    (rd ≠ rc → b ≠ 0 → ¬ (a = minVal s.cap ∧ b = -1) →
      ∃ q r, exec (.divmod rd rc ra rb) s = .next ((s.setV rd q).setV rc r).succeed ∧
        q * b + r = a ∧ |r| < |b| ∧ (r = 0 ∨ r.sign = a.sign))

/-! ## Number theory -/

/-- GCD: the greatest common divisor of the absolute values; Overflow only for `(MIN, 0)`, `(0, MIN)` and `(MIN, MIN)`
(46_gcd_inverse.md R163). -/
def Obligations.GcdOfMagnitudes : Prop :=
  ∀ (s : State) (rd ra rb : RegIx) (a b : Int), s.written ra = true → s.written rb = true → 1 ≤ s.cap →
    InRange s.cap (s.val ra) → InRange s.cap (s.val rb) → a = s.val ra → b = s.val rb →
    exec (.gcd rd ra rb) s = .next (
      if (a = minVal s.cap ∨ a = 0) ∧ (b = minVal s.cap ∨ b = 0) ∧ ¬ (a = 0 ∧ b = 0) then s.raise .overflow
      else (s.setV rd (Int.gcd a b)).succeed)

/-- MODINV: a modulus that is not positive is InvalidArgument, operands that are not coprime NoInverse; else the result
is the inverse in `[0, m)`, which is unique (46_gcd_inverse.md R165). -/
def Obligations.ModinvInverts : Prop :=
  ∀ (s : State) (rd ra rb : RegIx) (a m : Int), s.written ra = true → s.written rb = true → a = s.val ra → m = s.val rb →
    (m ≤ 0 → exec (.modinv rd ra rb) s = .next (s.raise .invalidArgument)) ∧
    (0 < m → Int.gcd a m ≠ 1 → exec (.modinv rd ra rb) s = .next (s.raise .noInverse)) ∧
    (0 < m → Int.gcd a m = 1 → ∃ x, exec (.modinv rd ra rb) s = .next (s.setV rd x).succeed ∧
      0 ≤ x ∧ x < m ∧ m ∣ a * x - 1 ∧ ∀ y, 0 ≤ y → y < m → m ∣ a * y - 1 → y = x)

/-- MODPOW: the three errors in their order; else the truncating remainder of the true power, which Barrett reduction and
square-and-multiply compute (47_modpow.md R171, R174, R175, R177). -/
def Obligations.ModpowIsRemainderOfPower : Prop :=
  ∀ (s : State) (rd ra rb rc : RegIx) (a e n : Int), s.written ra = true → s.written rb = true → s.written rc = true →
    a = s.val ra → e = s.val rb → n = s.val rc →
    (e < 0 → exec (.modpow rd ra rb rc) s = .next (s.raise .nonPositiveExponent)) ∧
    (0 ≤ e → n = 0 → exec (.modpow rd ra rb rc) s = .next (s.raise .divideByZero)) ∧
    (0 ≤ e → n ≠ 0 → 2 * limbCount n.natAbs + 1 > s.cap →
      exec (.modpow rd ra rb rc) s = .next (s.raise .overflow)) ∧
    (0 ≤ e → n ≠ 0 → 2 * limbCount n.natAbs + 1 ≤ s.cap →
      exec (.modpow rd ra rb rc) s = .next (s.setV rd ((a ^ e.toNat).tmod n)).succeed)

/-- JACOBI: an even or non-positive second operand is InvalidArgument; `J(a, 1) = 0`; for odd `b ≥ 3` the result is the
Jacobi symbol (48_jacobi.md R183, R184, R185). -/
def Obligations.JacobiIsTheSymbol : Prop :=
  ∀ (s : State) (rd ra rb : RegIx) (a b : Int), s.written ra = true → s.written rb = true → a = s.val ra → b = s.val rb →
    (b ≤ 0 ∨ b % 2 = 0 → exec (.jacobi rd ra rb) s = .next (s.raise .invalidArgument)) ∧
    (b = 1 → exec (.jacobi rd ra rb) s = .next (s.setV rd 0).succeed) ∧
    (3 ≤ b → b % 2 = 1 → exec (.jacobi rd ra rb) s = .next (s.setV rd (jacobiSym a b.toNat)).succeed)

/-! ## Radix -/

/-- FMT: a bad radix is InvalidRadix with TB and TLEN unchanged; else TB gets a minus sign where the value is negative and
its digits, most significant first, `0` for zero, and TLEN the length (49_radix.md R189, R190). -/
def Obligations.FmtWritesDigits : Prop :=
  ∀ (s : State) (ra : RegIx) (imm : BitVec 8), s.written ra = true →
    (¬ (2 ≤ imm.toNat ∧ imm.toNat ≤ 36) → exec (.fmt ra imm) s = .next (s.raise .invalidRadix)) ∧
    (2 ≤ imm.toNat → imm.toNat ≤ 36 → exec (.fmt ra imm) s = .next (s.setText (
      (if s.val ra < 0 then [0x2D] else []) ++
      (if s.val ra = 0 then [0] else (Nat.digits imm.toNat (s.val ra).natAbs).reverse).map charOf)).succeed)

/-- Formatting a value and parsing the string with the same radix gives the value back (49_radix.md R193). -/
def Obligations.ParseOfFmt : Prop :=
  ∀ (s : State) (rd ra : RegIx) (imm : BitVec 8), s.Inv → s.written ra = true → 2 ≤ imm.toNat → imm.toNat ≤ 36 →
    ∃ t, exec (.fmt ra imm) s = .next t ∧ exec (.parse rd imm) t = .next (t.setV rd (s.val ra)).succeed

/-! ## Frames -/

/-- What every command leaves alone: every register but its destinations (`rd`; `rd` and `rc` for DIVMOD; none for FMT),
ARG, OVR, and what the host sees; of STATUS it writes ERR and BUSY, and ESTK only by a failure (10_state.md R22, R23,
R30; 60_exceptions.md R197, R211). -/
def Obligations.CommandFrameRegisters : Prop :=
  ∀ (i : Instr) (s t : State), exec i s = .next t →
    (∀ r, r ∉ i.dests → t.getV r = s.getV r) ∧ s.SameHost t ∧ t.latch = none ∧
    (t.err = 0 → t.estk = s.estk) ∧ (t.err ≠ 0 → t.estk = true)

/-- Every command but FMT leaves every byte of LB and TB, and TLEN, alone (20_memory.md R58). -/
def Obligations.CommandFrameMemory : Prop :=
  ∀ (i : Instr) (s t : State), exec i s = .next t → i.writesText = false →
    t.tlen = s.tlen ∧ ∀ a, t.mem.read a = s.mem.read a

/-- FMT stores at the start of TB as many bytes as its string has and changes no other byte; a failed FMT changes neither
TB nor TLEN (49_radix.md R189, 60_exceptions.md R197). -/
def Obligations.FmtFrameMemory : Prop :=
  ∀ (ra : RegIx) (imm : BitVec 8) (s t : State), exec (.fmt ra imm) s = .next t →
    (t.err = 0 → ∀ a, (a < tbOffset ∨ tbOffset + (formatValue imm.toNat (s.readV ra).1).length ≤ a) →
      t.mem.read a = s.mem.read a) ∧
    (t.err ≠ 0 → t.tlen = s.tlen ∧ ∀ a, t.mem.read a = s.mem.read a)

/-- Every command completes, from every state: it answers a next state, which is idle, with a code that is produced
(20_memory.md R61, 60_exceptions.md R197, R217). That it completes when it reads an unwritten item, and in a state that has
no word latched, is the model's choice, log 5 and log 28. -/
def Obligations.EveryCommandCompletes : Prop :=
  ∀ (i : Instr) (s : State), ∃ t, exec i s = .next t ∧ t.busy = false ∧ legalErr t.err = true

/-- A command that reads an unwritten register, limb or byte records the fault; a command whose registers are all written
and that reads no buffer draws nothing and records nothing (10_state.md R41, 60_exceptions.md R217). What PARSE and LDLIMBS
do with written bytes is in `LdlimbsLoadsPattern`, `ParseReadsNumerals` and `ParseErrorsInOrder`. That the run goes on is
the model's choice, log 5; that a source is read although an earlier check fails is its reading, log 9, and that PARSE reads
on past a bad digit, log 10. -/
def Obligations.UnwrittenReadsAreRecorded : Prop :=
  (∀ (i : Instr) (s : State) (r : RegIx), i.wellFormed = true → r ∈ i.sources → s.written r = false →
    ∃ t, exec i s = .next t ∧ t.faulted = true) ∧
  (∀ (s : State) (rd : RegIx) (imm : BitVec 8) (j : Nat), 2 ≤ imm.toNat → imm.toNat ≤ 36 → s.tlen.toNat ≤ 65536 →
    j < s.tlen.toNat → s.mem.read (tbOffset + j) = none → ∃ t, exec (.parse rd imm) s = .next t ∧ t.faulted = true) ∧
  (∀ (s : State) (rd : RegIx) (j : Nat), s.argLo.toNat ≤ s.cap → j < s.argLo.toNat →
    s.mem.read (lbOffset + 4 * j) = none → ∃ t, exec (.ldlimbs rd) s = .next t ∧ t.faulted = true) ∧
  (∀ (i : Instr) (s t : State), (∀ r ∈ i.sources, s.written r = true) → (∀ rd imm, i ≠ .parse rd imm) →
    (∀ rd, i ≠ .ldlimbs rd) → exec i s = .next t → t.faulted = s.faulted ∧ t.draws = s.draws)

/-- Errors are precise: after a failed command the state is the state before it, but for STATUS (and the model's draws and
fault mark) (60_exceptions.md R198, R199). -/
def Obligations.FailuresArePrecise : Prop :=
  ∀ (i : Instr) (s t : State), exec i s = .next t → t.err ≠ 0 →
    t = { s with err := t.err, estk := true, latch := none, draws := t.draws, faulted := t.faulted }

/-- A failure shows the code of its kind in ERR, and the ten codes differ (60_exceptions.md R194, R197). -/
def Obligations.FailuresShowTheirCodes : Prop :=
  ∀ s : State,
    [ErrorKind.overflow, .underflow, .invalidDigit, .invalidRadix, .divideByZero, .noInverse, .nonPositiveExponent,
      .invalidArgument, .capacityExceeded, .illegalCommand].map (fun e => (s.raise e).err.toNat) =
        [1, 2, 3, 4, 5, 6, 7, 8, 9, 15] ∧
    ∀ e, s.finish (.error e) = .next (s.raise e) ∧ (s.raise e).estk = true ∧ (s.raise e).busy = false

/-- No command reads a status bit: two states that differ only in STATUS, the latch and the host's side give the same
registers, buffers, TLEN and ERR (10_state.md R25, R40). -/
def Obligations.ResultsIgnoreStatus : Prop :=
  ∀ (i : Instr) (s t : State) (estk ovr : Bool) (err : BitVec 4) (latch : Option Word) (events : List Event) (resp : Resp),
    exec i s = .next t →
    ∃ t', exec i { s with estk := estk, ovr := ovr, err := err, latch := latch, events := events, resp := resp } = .next t' ∧
      t'.v = t.v ∧ t'.mem = t.mem ∧ t'.tlen = t.tlen ∧ t'.err = t.err

/-! ## The whole machine -/

/-- The invariant holds at reset. The capacity and base there are the model's choice, log 1 and log 2. -/
def Obligations.ResetMeetsInvariant : Prop := State.reset.Inv

/-- Every step keeps the invariant: values stay representable, memory stays canonical and inside LB and TB, limbs stay
whole, ERR stays a produced code and shows in ESTK (00_scope.md R10; 10_state.md R26; 20_memory.md R46, R53). -/
def Obligations.StepKeepsInvariant : Prop := ∀ s t : State, s.Inv → step s = .next t → t.Inv

/-- What reset leaves of the state the spec gives a value: STATUS, ARG, TLEN and the latch are zero and empty, every
register, limb and byte is unwritten, no fault is recorded (10_state.md R42, 70_reset_and_hazards.md R225, R231). -/
def Obligations.ResetValues : Prop :=
  State.reset.statusWord = 0 ∧ State.reset.argLo = 0 ∧ State.reset.argHi = 0 ∧ State.reset.tlen = 0 ∧
  State.reset.latch = none ∧ (∀ r, State.reset.written r = false) ∧ (∀ a, State.reset.mem.read a = none) ∧
  State.reset.faulted = false

/-- A value register changes only by a hardware reset, by the commit of a command that names it as destination, or by
a soft reset that abandons such a command; no other write of the host changes it (10_state.md R22, R43;
70_reset_and_hazards.md R227, R230). -/
def Obligations.RegistersChangeOnlyWhenNamed : Prop :=
  ∀ (s t : State) (r : RegIx), step s = .next t → t.getV r ≠ s.getV r →
    (∃ es, s.events = .hwReset :: es) ∨
    (r ∈ s.inFlightDests ∧
      ((s.events = [] ∨ ∃ es, s.events = .core :: es) ∧ t.err = 0 ∨
        ∃ addr v es, s.events = .write addr .b32 v :: es ∧ s.offsetOf addr = some 0x8 ∧ v.getLsbD 1 = true))

/-- No step changes the capacity or the base address, and none takes back the fault mark (10_state.md R44, 60_exceptions.md
R217). That a hardware reset keeps the mark is the model's reading, log 8. -/
def Obligations.StrapsAndFaultMarkAreKept : Prop :=
  ∀ s t : State, step s = .next t → t.cap = s.cap ∧ t.base = s.base ∧ (s.faulted = true → t.faulted = true)

/-- Every run drains: when as many steps as there are events, and one more, have been taken, no event is left and no
command is in flight; a run of core steps and resets alone never stops (60_exceptions.md R217, 70_reset_and_hazards.md
R240). -/
def Obligations.RunsDrain : Prop :=
  (∀ s t : State, Sys2Proof.core.run (s.events.length + 1) s = .next t → t.events = [] ∧ t.latch = none) ∧
  (∀ s : State, (∀ e ∈ s.events, e = .core ∨ e = .hwReset) →
    ∃ t, Sys2Proof.core.run (s.events.length + 1) s = .next t ∧ t.events = [] ∧ t.latch = none)

/-! ## The host's accesses -/

/-- A write of CMD while idle latches the word and sets BUSY, and nothing else changes (20_memory.md R60). -/
def Obligations.IdleCommandWriteIssues : Prop :=
  ∀ (s : State) (w : Word) (es : List Event), s.events = .write s.base .b32 w :: es → s.latch = none →
    step s = .next { s with events := es, latch := some w, resp := .ack }

/-- While busy, a write of CMD, ARGLO, ARGHI, TLEN, LB or TB, at the offsets of these, is ignored and sets OVR; while idle a
write of ARGLO, ARGHI or TLEN stores the word (20_memory.md R46, R54, R56, R62). -/
def Obligations.BusyWritesAreLost : Prop :=
  (∀ (s : State) (off : Nat) (w : Width) (v : Word) (es : List Event),
    s.events = .write (s.base + off) w v :: es → s.busy = true →
    (w = .b32 ∧ (off = 0x0 ∨ off = 0x10 ∨ off = 0x14 ∨ off = 0x18) ∨ lbAccess off w ∨ tbAccess off w) →
    step s = .next { s with events := es, ovr := true, resp := .ack }) ∧
  (∀ (s : State) (v : Word) (es : List Event), s.busy = false →
    (s.events = .write (s.base + 0x10) .b32 v :: es → step s = .next { s with events := es, argLo := v, resp := .ack }) ∧
    (s.events = .write (s.base + 0x14) .b32 v :: es → step s = .next { s with events := es, argHi := v, resp := .ack }) ∧
    (s.events = .write (s.base + 0x18) .b32 v :: es → step s = .next { s with events := es, tlen := v, resp := .ack }))

/-- A write of STATUS, CAP, VWIN or VSIG is ignored and has no side effect (20_memory.md R56). -/
def Obligations.ReadOnlyWritesAreIgnored : Prop :=
  ∀ (s : State) (off : Nat) (v : Word) (es : List Event), s.events = .write (s.base + off) .b32 v :: es →
    off % 4 = 0 → (off = 0x4 ∨ off = 0xC ∨ (0x20000 ≤ off ∧ off < 0x30040)) →
    step s = .next { s with events := es, resp := .ack }

/-- No read has a side effect: it changes the answer and the model's draws alone (20_memory.md R56). -/
def Obligations.ReadsHaveNoSideEffect : Prop :=
  ∀ (s t : State) (addr : Nat) (w : Width) (es : List Event), s.events = .read addr w :: es → step s = .next t →
    t = { s with events := es, resp := t.resp, draws := t.draws }

/-- VWIN shows the limbs of a written register that is not in flight, least significant first, and 0 from the capacity
on; VSIG shows its significant-limb count: the least `n ≥ 1` with no nonzero limb at or above `n` (00_scope.md R9;
20_memory.md R47, R48). -/
def Obligations.WindowShowsLimbs : Prop :=
  ∀ (s : State) (r : RegIx) (es : List Event), s.Inv → s.written r = true → r ∉ s.inFlightDests →
    (∀ k < 1024, s.events = .read (s.base + (0x20000 + 0x1000 * r.val + 4 * k)) .b32 :: es →
      step s = .next { s with events := es, resp := .data (
        if k < s.cap then BitVec.ofNat 32 (enc s.cap (s.val r) / 2 ^ (32 * k)) else 0) }) ∧
    (s.events = .read (s.base + (0x30000 + 4 * r.val)) .b32 :: es →
      ∃ n, step s = .next { s with events := es, resp := .data (BitVec.ofNat 32 n) } ∧ 1 ≤ n ∧ n ≤ s.cap ∧
        (∀ k, n ≤ k → limbOf (enc s.cap (s.val r)) k = 0) ∧ (n = 1 ∨ limbOf (enc s.cap (s.val r)) (n - 1) ≠ 0))

/-- The words of STATUS and CAP, field by field; CMD and CTRL read 0; ARGLO, ARGHI and TLEN read as they stand, idle or
busy, but TLEN while FMT is in flight (10_state.md R26 to R31, 20_memory.md R63). -/
def Obligations.StatusAndCapLayout : Prop :=
  ∀ (s : State) (es : List Event),
    (s.events = .read (s.base + 0x4) .b32 :: es → ∃ w, step s = .next { s with events := es, resp := .data w } ∧
      w.getLsbD 0 = s.busy ∧ w.getLsbD 1 = s.estk ∧ w.getLsbD 2 = s.ovr ∧ w.getLsbD 3 = false ∧
      w.extractLsb' 4 4 = s.err ∧ w.extractLsb' 8 24 = 0) ∧
    (s.cap ≤ 1024 → s.events = .read (s.base + 0xC) .b32 :: es →
      ∃ w, step s = .next { s with events := es, resp := .data w } ∧
        (w.extractLsb' 0 16).toNat = s.cap ∧ w.extractLsb' 16 8 = 16 ∧ w.extractLsb' 24 8 = 0) ∧
    (s.events = .read s.base .b32 :: es → step s = .next { s with events := es, resp := .data 0 }) ∧
    (s.events = .read (s.base + 0x8) .b32 :: es → step s = .next { s with events := es, resp := .data 0 }) ∧
    (s.events = .read (s.base + 0x10) .b32 :: es → step s = .next { s with events := es, resp := .data s.argLo }) ∧
    (s.events = .read (s.base + 0x14) .b32 :: es → step s = .next { s with events := es, resp := .data s.argHi }) ∧
    (s.inFlightText = false → s.events = .read (s.base + 0x18) .b32 :: es →
      step s = .next { s with events := es, resp := .data s.tlen })

/-- Unspecified reads answer a free word, about which nothing is known: VWIN and VSIG of a destination in flight, VWIN (below
the capacity) and VSIG of an unwritten register, TLEN and TB while FMT is in flight (10_state.md R41, 20_memory.md R63). It
holds for every value of the free word (log 7). The model's choices: from the capacity on VWIN of a destination in flight is
free and of any other unwritten register 0 (log 11), VSIG may be any word (log 12), and so may TLEN and a narrow read of TB
(log 27). -/
def Obligations.UnspecifiedReadsAreFree : Prop :=
  ∀ (s : State) (es : List Event),
    (∀ (r : RegIx) (k : Nat), k < 1024 → s.events = .read (s.base + (0x20000 + 0x1000 * r.val + 4 * k)) .b32 :: es →
      (r ∈ s.inFlightDests ∨ s.written r = false ∧ k < s.cap →
        step s = .next { s with events := es, resp := .data (Config.freeWord s.draws), draws := s.draws + 1 }) ∧
      (r ∉ s.inFlightDests → s.written r = false → s.cap ≤ k →
        step s = .next { s with events := es, resp := .data 0 })) ∧
    (∀ r, r ∈ s.inFlightDests ∨ s.written r = false → s.events = .read (s.base + (0x30000 + 4 * r.val)) .b32 :: es →
      step s = .next { s with events := es, resp := .data (Config.freeWord s.draws), draws := s.draws + 1 }) ∧
    (s.inFlightText = true → s.events = .read (s.base + 0x18) .b32 :: es →
      step s = .next { s with events := es, resp := .data (Config.freeWord s.draws), draws := s.draws + 1 }) ∧
    (∀ off w, s.inFlightText = true → tbAccess off w → s.events = .read (s.base + off) w :: es →
      step s = .next { s with events := es, resp := .data (Config.freeWord s.draws), draws := s.draws + 1 })

/-- The accesses the block accepts, and the bus error of every other access in the window; outside the window it is not
the block's (20_memory.md R46, R49, R54; 60_exceptions.md R217). -/
def Obligations.AcceptedAccesses : Prop :=
  (∀ (off : Nat) (w : Width), (acceptedRegion off w).isSome = true ↔
    (w = .b32 ∧ off % 4 = 0 ∧ (off < 0x1C ∨ (0x1000 ≤ off ∧ off < 0x2000) ∨ (0x20000 ≤ off ∧ off < 0x30040))) ∨
    ((0x10000 ≤ off ∧ off < 0x20000) ∧ off % w.bytes = 0)) ∧
  (∀ (s : State) (off : Nat) (w : Width) (v : Word) (es : List Event), off < windowSize → acceptedRegion off w = none →
    (s.events = .read (s.base + off) w :: es → step s = .fault (.busError off)) ∧
    (s.events = .write (s.base + off) w v :: es → step s = .fault (.busError off))) ∧
  (∀ (s : State) (addr : Nat) (w : Width) (v : Word) (es : List Event),
    addr < s.base ∨ s.base + windowSize ≤ addr →
    (s.events = .read addr w :: es → step s = .refused (.outsideWindow addr)) ∧
    (s.events = .write addr w v :: es → step s = .refused (.outsideWindow addr)))

/-- A write of CTRL: without SRST it clears ERR, ESTK and OVR where CLR is set and does nothing where it is not; with
SRST it is a soft reset, which makes a command in flight lose its destinations and leaves every other register and byte
alone (10_state.md R27, R43; 70_reset_and_hazards.md R227). -/
def Obligations.ControlClearsAndResets : Prop :=
  ∀ (s : State) (v : Word) (es : List Event), s.events = .write (s.base + 0x8) .b32 v :: es →
    (v.getLsbD 1 = false → v.getLsbD 0 = false → step s = .next { s with events := es, resp := .ack }) ∧
    (v.getLsbD 1 = false → v.getLsbD 0 = true →
      step s = .next { s with events := es, resp := .ack, err := 0, estk := false, ovr := false }) ∧
    (v.getLsbD 1 = true → ∃ t, step s = .next t ∧ t.statusWord = 0 ∧ t.argLo = 0 ∧ t.argHi = 0 ∧ t.tlen = 0 ∧
      t.latch = none ∧ t.events = es ∧
      (∀ r, r ∈ s.inFlightDests → t.written r = false) ∧ (∀ r, r ∉ s.inFlightDests → t.getV r = s.getV r) ∧
      (∀ a, s.inFlightText = true → tbOffset ≤ a → a < tbOffset + tbSize → t.mem.read a = none) ∧
      (∀ a, s.inFlightText = false ∨ a < tbOffset ∨ tbOffset + tbSize ≤ a → t.mem.read a = s.mem.read a))

/-- A hardware reset, at any time, leaves STATUS, ARG, TLEN and the latch zero and empty, and every register, limb and
byte unwritten (70_reset_and_hazards.md R225). -/
def Obligations.HardwareResetClears : Prop :=
  ∀ (s : State) (es : List Event), s.events = .hwReset :: es →
    ∃ t, step s = .next t ∧ t.statusWord = 0 ∧ t.argLo = 0 ∧ t.argHi = 0 ∧ t.tlen = 0 ∧ t.latch = none ∧
      (∀ r, t.written r = false) ∧ (∀ a, t.mem.read a = none) ∧ t.cap = s.cap

/-- LB stands at 0x1000 to 0x1FFF and TB at 0x10000 to 0x1FFFF. A read of LB, or of TB when no FMT is in flight, idle or busy,
answers the bytes as they stand, least significant first, an unwritten one as a free byte (log 7). A write while idle, then
a read of the same place and width, gives the bytes written, and each byte stands at its own offset (10_state.md R41;
20_memory.md R46, R51, R52, R54, R63, R64). -/
def Obligations.BufferReadAfterWrite : Prop :=
  (∀ (off : Nat) (w : Width), (acceptedRegion off w = some .lb ↔ lbAccess off w) ∧
    (acceptedRegion off w = some .tb ↔ tbAccess off w)) ∧
  (∀ (s : State) (off : Nat) (w : Width) (es : List Event),
    lbAccess off w ∨ tbAccess off w ∧ s.inFlightText = false → s.events = .read (s.base + off) w :: es →
    ∃ bs : List Byte, bs.length = w.bytes ∧
      (∀ j (h : j < bs.length), bs[j] = (s.mem.read (off + j)).getD (Config.freeByte (s.draws + j))) ∧
      step s = .next { s with
        events := es, resp := .data (BitVec.ofNat 32 (ofBytes bs)), draws := s.draws + w.bytes }) ∧
  (∀ (s : State) (off : Nat) (w : Width) (v : Word) (es : List Event), s.latch = none → lbAccess off w ∨ tbAccess off w →
    s.events = .write (s.base + off) w v :: .read (s.base + off) w :: es →
    ∃ t u, step s = .next t ∧ step t = .next u ∧
      (∀ j < w.bytes, t.mem.read (off + j) = some (BitVec.ofNat 8 (v.toNat / 256 ^ j))) ∧
      (∀ a, a < off ∨ off + w.bytes ≤ a → t.mem.read a = s.mem.read a) ∧
      u.resp = .data (BitVec.ofNat 32 (v.toNat % 256 ^ w.bytes)))

/-! ## The reference datapaths compute the results -/

/-- The ripple-carry adder with the source's sign rule is exact addition and subtraction with the range check, and its
negation is negation (41_sign_compare.md R115; 42_addsub.md R134, R135, R136). -/
def Obligations.AdderIsExact : Prop :=
  ∀ (C : Nat) (a b : Int), 1 ≤ C → InRange C a → InRange C b →
    addDatapath C (enc C a) (enc C b) = (fit C (a + b)).map (enc C) ∧
    subDatapath C (enc C a) (enc C b) = (fit C (a - b)).map (enc C) ∧
    (a ≠ minVal C → negPattern C (enc C a) = enc C (-a))

/-- The limb shifter computes the shifted pattern, and the pattern of the floor (43_shift.md R142). -/
def Obligations.ShifterIsExact : Prop :=
  ∀ (C n : Nat) (a : Int), InRange C a → n < widthOf C →
    shlPattern C (enc C a) n = enc C a * 2 ^ n % 2 ^ widthOf C ∧
    shrPattern C (enc C a) n = enc C (Int.fdiv a (2 ^ n))

/-- The schoolbook multiplier with its overflow and sign rule is the exact product with the multiplier's check
(44_multiply.md R147, R148). -/
def Obligations.MultiplierIsExact : Prop :=
  ∀ (C : Nat) (a b : Int), 1 ≤ C → InRange C a → InRange C b → mulDatapath C a b = fitO C (a * b)

/-- Single-limb division and Algorithm D compute the truncating quotient and remainder of every dividend and nonzero
divisor (45_divide.md R156, R157, R158). -/
def Obligations.DividerIsExact : Prop :=
  ∀ a b : Int, b ≠ 0 → divideDatapath a b = (tquot a b, trem a b)

/-- Euclid's iteration computes the greatest common divisor (46_gcd_inverse.md R164). -/
def Obligations.EuclidIsGcd : Prop := ∀ a b : Int, gcdDatapath a b = Int.gcd a b

/-- Barrett reduction computes `x mod N` for every `x < N²` (47_modpow.md R172, R173, R177). -/
def Obligations.BarrettIsModulo : Prop :=
  ∀ N x : Nat, 1 ≤ N → x < N ^ 2 → barrettReduce N (limbCount N) (barrettConstant N (limbCount N)) x = x % N
end

