-- ==== Sys2Proof/Laws/Arith.lean ====
section
/-! SUPPORT. The arithmetic primitives in Lean's own words. -/

namespace Sys2Proof.Machine

theorem fit_of_inRange {C : Nat} {v : Int} (h : InRange C v) : fit C v = .ok v := by
  obtain ⟨h1, h2⟩ := h
  simp [fit, not_lt.mpr h1, not_lt.mpr h2]

theorem fit_of_above {C : Nat} {v : Int} (h : v > maxVal C) : fit C v = .error .overflow := by simp [fit, h]

theorem minVal_lt_maxVal (C : Nat) : minVal C ≤ maxVal C := by
  have : (1 : Int) ≤ 2 ^ (widthOf C - 1) := one_le_pow₀ (by norm_num)
  simp only [minVal, maxVal]
  omega

theorem fit_of_below {C : Nat} {v : Int} (h : v < minVal C) : fit C v = .error .underflow := by
  have := minVal_lt_maxVal C
  have h' : ¬ v > maxVal C := by omega
  simp [fit, h, h']

/-- What `fit` answers, in one line. -/
theorem fit_eq_ok {C : Nat} {v x : Int} : fit C v = .ok x ↔ x = v ∧ InRange C v := by
  unfold fit InRange
  split
  · simp; omega
  · split
    · simp; omega
    · simp only [Except.ok.injEq]
      constructor
      · rintro rfl; omega
      · rintro ⟨rfl, _⟩; rfl

theorem fitO_eq_ok {C : Nat} {v x : Int} : fitO C v = .ok x ↔ x = v ∧ InRange C v := by
  unfold fitO InRange
  split
  · simp; omega
  · simp only [Except.ok.injEq]
    constructor
    · rintro rfl; omega
    · rintro ⟨rfl, _⟩; rfl

/-- The quotient of 00_scope.md R11 is Lean's truncating quotient. -/
theorem tquot_eq_tdiv (a b : Int) : tquot a b = a.tdiv b := by
  have pos : ∀ m n : Nat, ((m : Int).tdiv n) = (m / n : Nat) := fun m n => (Int.ofNat_tdiv m n).symm
  rcases lt_trichotomy a 0 with ha | rfl | ha <;> rcases lt_trichotomy b 0 with hb | rfl | hb
  all_goals simp only [tquot, Int.sign_zero, zero_mul, mul_zero, Int.zero_tdiv, Int.tdiv_zero]
  · rw [Int.sign_eq_neg_one_of_neg ha, Int.sign_eq_neg_one_of_neg hb, ← pos, Int.ofNat_natAbs_of_nonpos ha.le,
      Int.ofNat_natAbs_of_nonpos hb.le, Int.neg_tdiv_neg]
    ring
  · rw [Int.sign_eq_neg_one_of_neg ha, Int.sign_eq_one_of_pos hb, ← pos, Int.ofNat_natAbs_of_nonpos ha.le,
      Int.natAbs_of_nonneg hb.le, Int.neg_tdiv]
    ring
  · rw [Int.sign_eq_one_of_pos ha, Int.sign_eq_neg_one_of_neg hb, ← pos, Int.ofNat_natAbs_of_nonpos hb.le,
      Int.natAbs_of_nonneg ha.le, Int.tdiv_neg]
    ring
  · rw [Int.sign_eq_one_of_pos ha, Int.sign_eq_one_of_pos hb, ← pos, Int.natAbs_of_nonneg ha.le,
      Int.natAbs_of_nonneg hb.le]
    ring

/-- The remainder of 00_scope.md R11 is Lean's truncating remainder. -/
theorem trem_eq_tmod (a b : Int) : trem a b = a.tmod b := by
  rw [trem, tquot_eq_tdiv, Int.tmod_def]

end Sys2Proof.Machine
end

