-- ==== Sys2Proof/Laws/Memory.lean ====
section
/-! SUPPORT. The laws of memory: a read after a write, and the canonical form. -/

namespace Sys2Proof.Machine

theorem Memory.read_write_same (m : Memory) (x : Nat) (b : Byte) : (m.write x b).read x = some b := by
  induction m with
  | nil => simp [Memory.write, Memory.read]
  | cons c m ih =>
    obtain ⟨a, v⟩ := c
    simp only [Memory.write]
    split
    · simp [Memory.read]
    · split
      · simp [Memory.read]
      · rename_i h
        simp [Memory.read, Ne.symm h, ih]

theorem Memory.read_write_other (m : Memory) {x y : Nat} (b : Byte) (h : y ≠ x) : (m.write x b).read y = m.read y := by
  induction m with
  | nil => simp [Memory.write, Memory.read, Ne.symm h]
  | cons c m ih =>
    obtain ⟨a, v⟩ := c
    simp only [Memory.write]
    split
    · simp [Memory.read, Ne.symm h]
    · split
      · rename_i _ e
        subst e
        simp [Memory.read, Ne.symm h]
      · simp [Memory.read, ih]

theorem Memory.read_writeBytes_other (m : Memory) (x y : Nat) (bs : List Byte) (h : y < x ∨ x + bs.length ≤ y) :
    (m.writeBytes x bs).read y = m.read y := by
  induction bs generalizing m x with
  | nil => rfl
  | cons b bs ih =>
    simp only [List.length_cons] at h
    rw [Memory.writeBytes, ih _ _ (by omega), Memory.read_write_other _ _ (by omega)]

theorem Memory.read_writeBytes_same (m : Memory) (x j : Nat) (bs : List Byte) (h : j < bs.length) :
    (m.writeBytes x bs).read (x + j) = some bs[j] := by
  induction bs generalizing m x j with
  | nil => simp at h
  | cons b bs ih =>
    rw [Memory.writeBytes]
    cases j with
    | zero => rw [Memory.read_writeBytes_other _ _ _ _ (by omega)]; exact Memory.read_write_same m x b
    | succ j =>
      simp only [List.length_cons] at h
      rw [show x + (j + 1) = x + 1 + j by omega, ih _ _ _ (by omega)]
      rfl

theorem Memory.erase_cons (a : Nat) (v : Byte) (m : Memory) (lo hi : Nat) :
    Memory.erase ((a, v) :: m) lo hi = if lo ≤ a ∧ a < hi then m.erase lo hi else (a, v) :: m.erase lo hi := by
  by_cases h : lo ≤ a ∧ a < hi <;> simp [Memory.erase, List.filter_cons, h]

theorem Memory.read_erase_inside (m : Memory) {lo hi x : Nat} (h : lo ≤ x ∧ x < hi) : (m.erase lo hi).read x = none := by
  induction m with
  | nil => rfl
  | cons c m ih =>
    obtain ⟨a, v⟩ := c
    rw [Memory.erase_cons]
    split
    · exact ih
    · rename_i ha
      have : a ≠ x := by rintro rfl; exact ha h
      rw [Memory.read, if_neg this, ih]

theorem Memory.read_erase_outside (m : Memory) {lo hi x : Nat} (h : ¬ (lo ≤ x ∧ x < hi)) :
    (m.erase lo hi).read x = m.read x := by
  induction m with
  | nil => rfl
  | cons c m ih =>
    obtain ⟨a, v⟩ := c
    rw [Memory.erase_cons]
    split
    · rename_i ha
      have : a ≠ x := by rintro rfl; exact h ha
      rw [Memory.read, if_neg this, ih]
    · rw [Memory.read, Memory.read, ih]

/-! ## The canonical form -/

theorem Memory.mem_write {m : Memory} {x : Nat} {b : Byte} {c : Host.Cell} (h : c ∈ m.write x b) : c = (x, b) ∨ c ∈ m := by
  induction m with
  | nil => simpa [Memory.write] using h
  | cons d m ih =>
    simp only [Memory.write] at h
    split at h
    · simpa using h
    · split at h
      · simp only [List.mem_cons] at h ⊢
        tauto
      · simp only [List.mem_cons] at h ⊢
        rcases h with h | h
        · tauto
        · rcases ih h with h | h <;> tauto

theorem Memory.wf_write {m : Memory} (h : m.wf) (x : Nat) (b : Byte) : (m.write x b).wf := by
  induction m with
  | nil => simp [Memory.write, Memory.wf]
  | cons c m ih =>
    obtain ⟨a, v⟩ := c
    have h' := List.pairwise_cons.mp h
    simp only [Memory.write]
    split
    · rename_i hx
      refine List.pairwise_cons.mpr ⟨fun d hd => ?_, h⟩
      rcases List.mem_cons.mp hd with rfl | hd
      · exact hx
      · exact lt_trans hx (h'.1 d hd)
    · split
      · rename_i e
        subst e
        exact List.pairwise_cons.mpr ⟨h'.1, h'.2⟩
      · refine List.pairwise_cons.mpr ⟨fun d hd => ?_, ih h'.2⟩
        rcases Memory.mem_write hd with rfl | hd
        · change a < x
          omega
        · exact h'.1 d hd

theorem Memory.wf_writeBytes {m : Memory} (h : m.wf) (x : Nat) (bs : List Byte) : (m.writeBytes x bs).wf := by
  induction bs generalizing m x with
  | nil => exact h
  | cons b bs ih => exact ih (Memory.wf_write h x b) (x + 1)

theorem Memory.wf_erase {m : Memory} (h : m.wf) (lo hi : Nat) : (m.erase lo hi).wf := h.filter _

theorem Memory.mem_writeBytes {m : Memory} {x : Nat} {bs : List Byte} {c : Host.Cell} (h : c ∈ m.writeBytes x bs) :
    (x ≤ c.1 ∧ c.1 < x + bs.length) ∨ c ∈ m := by
  induction bs generalizing m x with
  | nil => exact Or.inr h
  | cons b bs ih =>
    simp only [List.length_cons]
    rcases ih h with h | h
    · left; omega
    · rcases Memory.mem_write h with rfl | h
      · left; simp
      · exact Or.inr h

/-- The memory at reset is in its canonical form. -/
theorem State.reset_mem_wf : State.reset.mem.wf := List.Pairwise.nil

theorem bytesOf_length (v n : Nat) : (bytesOf v n).length = n := by
  induction n generalizing v with
  | zero => rfl
  | succ n ih => simp [bytesOf, ih]

theorem bytesOf_get (v n j : Nat) (h : j < (bytesOf v n).length) : (bytesOf v n)[j] = BitVec.ofNat 8 (v / 256 ^ j) := by
  induction n generalizing v j with
  | zero => simp [bytesOf] at h
  | succ n ih =>
    cases j with
    | zero => simp [bytesOf]
    | succ j => simp [bytesOf, ih, Nat.div_div_eq_div_mul, Nat.pow_succ']

theorem ofBytes_bytesOf (v n : Nat) : ofBytes (bytesOf v n) = v % 256 ^ n := by
  induction n generalizing v with
  | zero => simp [bytesOf, ofBytes, Nat.mod_one]
  | succ n ih =>
    have e : 256 ^ (n + 1) = 256 * 256 ^ n := Nat.pow_succ'
    rw [bytesOf, ofBytes, ih, BitVec.toNat_ofNat, e, Nat.mod_mul]

theorem ofBytes_lt (bs : List Byte) : ofBytes bs < 256 ^ bs.length := by
  induction bs with
  | nil => simp [ofBytes]
  | cons b bs ih =>
    have := b.isLt
    simp only [ofBytes, List.length_cons, Nat.pow_succ']
    omega

end Sys2Proof.Machine
end

