-- ==== Sys2Proof/Laws/State.lean ====
section
/-! SUPPORT. The fields of the state after each named update: one lemma a field and update that it touches, by rfl, so
that no proof unfolds a record update. -/

namespace Sys2Proof.Machine

variable (s : State)

/-! ## Value registers -/

@[simp] theorem State.getV_setV_same (r : RegIx) (x : Int) : (s.setV r x).getV r = ⟨x, true⟩ := by
  simp [State.getV, State.setV]

theorem State.getV_setV_other {r q : RegIx} (x : Int) (h : q ≠ r) : (s.setV r x).getV q = s.getV q := by
  have h' : r.val ≠ q.val := fun e => h (Fin.ext e.symm)
  simp [State.getV, State.setV, Vector.getElem_set_ne, h']

@[simp] theorem State.getV_unwriteV_same (r : RegIx) : (s.unwriteV r).getV r = ⟨0, false⟩ := by
  simp [State.getV, State.unwriteV]

theorem State.getV_unwriteV_other {r q : RegIx} (h : q ≠ r) : (s.unwriteV r).getV q = s.getV q := by
  have h' : r.val ≠ q.val := fun e => h (Fin.ext e.symm)
  simp [State.getV, State.unwriteV, Vector.getElem_set_ne, h']

@[simp] theorem State.val_setV_same (r : RegIx) (x : Int) : (s.setV r x).val r = x := by simp [State.val]

@[simp] theorem State.written_setV_same (r : RegIx) (x : Int) : (s.setV r x).written r = true := by simp [State.written]

@[simp] theorem State.setV_estk (r : RegIx) (x : Int) : (s.setV r x).estk = s.estk := rfl
@[simp] theorem State.setV_ovr (r : RegIx) (x : Int) : (s.setV r x).ovr = s.ovr := rfl
@[simp] theorem State.setV_err (r : RegIx) (x : Int) : (s.setV r x).err = s.err := rfl
@[simp] theorem State.setV_argLo (r : RegIx) (x : Int) : (s.setV r x).argLo = s.argLo := rfl
@[simp] theorem State.setV_argHi (r : RegIx) (x : Int) : (s.setV r x).argHi = s.argHi := rfl
@[simp] theorem State.setV_tlen (r : RegIx) (x : Int) : (s.setV r x).tlen = s.tlen := rfl
@[simp] theorem State.setV_mem (r : RegIx) (x : Int) : (s.setV r x).mem = s.mem := rfl
@[simp] theorem State.setV_latch (r : RegIx) (x : Int) : (s.setV r x).latch = s.latch := rfl
@[simp] theorem State.setV_cap (r : RegIx) (x : Int) : (s.setV r x).cap = s.cap := rfl
@[simp] theorem State.setV_base (r : RegIx) (x : Int) : (s.setV r x).base = s.base := rfl
@[simp] theorem State.setV_faulted (r : RegIx) (x : Int) : (s.setV r x).faulted = s.faulted := rfl
@[simp] theorem State.setV_events (r : RegIx) (x : Int) : (s.setV r x).events = s.events := rfl
@[simp] theorem State.setV_resp (r : RegIx) (x : Int) : (s.setV r x).resp = s.resp := rfl
@[simp] theorem State.setV_draws (r : RegIx) (x : Int) : (s.setV r x).draws = s.draws := rfl

/-! ## Success and failure -/

@[simp] theorem State.succeed_v : s.succeed.v = s.v := rfl
@[simp] theorem State.succeed_getV (r : RegIx) : s.succeed.getV r = s.getV r := rfl
@[simp] theorem State.succeed_estk : s.succeed.estk = s.estk := rfl
@[simp] theorem State.succeed_ovr : s.succeed.ovr = s.ovr := rfl
@[simp] theorem State.succeed_err : s.succeed.err = 0 := rfl
@[simp] theorem State.succeed_argLo : s.succeed.argLo = s.argLo := rfl
@[simp] theorem State.succeed_argHi : s.succeed.argHi = s.argHi := rfl
@[simp] theorem State.succeed_tlen : s.succeed.tlen = s.tlen := rfl
@[simp] theorem State.succeed_mem : s.succeed.mem = s.mem := rfl
@[simp] theorem State.succeed_latch : s.succeed.latch = none := rfl
@[simp] theorem State.succeed_cap : s.succeed.cap = s.cap := rfl
@[simp] theorem State.succeed_base : s.succeed.base = s.base := rfl
@[simp] theorem State.succeed_faulted : s.succeed.faulted = s.faulted := rfl
@[simp] theorem State.succeed_events : s.succeed.events = s.events := rfl
@[simp] theorem State.succeed_resp : s.succeed.resp = s.resp := rfl
@[simp] theorem State.succeed_draws : s.succeed.draws = s.draws := rfl

@[simp] theorem State.raise_v (e : ErrorKind) : (s.raise e).v = s.v := rfl
@[simp] theorem State.raise_getV (e : ErrorKind) (r : RegIx) : (s.raise e).getV r = s.getV r := rfl
@[simp] theorem State.raise_estk (e : ErrorKind) : (s.raise e).estk = true := rfl
@[simp] theorem State.raise_ovr (e : ErrorKind) : (s.raise e).ovr = s.ovr := rfl
@[simp] theorem State.raise_err (e : ErrorKind) : (s.raise e).err = e.code := rfl
@[simp] theorem State.raise_argLo (e : ErrorKind) : (s.raise e).argLo = s.argLo := rfl
@[simp] theorem State.raise_argHi (e : ErrorKind) : (s.raise e).argHi = s.argHi := rfl
@[simp] theorem State.raise_tlen (e : ErrorKind) : (s.raise e).tlen = s.tlen := rfl
@[simp] theorem State.raise_mem (e : ErrorKind) : (s.raise e).mem = s.mem := rfl
@[simp] theorem State.raise_latch (e : ErrorKind) : (s.raise e).latch = none := rfl
@[simp] theorem State.raise_cap (e : ErrorKind) : (s.raise e).cap = s.cap := rfl
@[simp] theorem State.raise_base (e : ErrorKind) : (s.raise e).base = s.base := rfl
@[simp] theorem State.raise_faulted (e : ErrorKind) : (s.raise e).faulted = s.faulted := rfl
@[simp] theorem State.raise_events (e : ErrorKind) : (s.raise e).events = s.events := rfl
@[simp] theorem State.raise_resp (e : ErrorKind) : (s.raise e).resp = s.resp := rfl
@[simp] theorem State.raise_draws (e : ErrorKind) : (s.raise e).draws = s.draws := rfl

/-! ## Text -/

@[simp] theorem State.setText_v (bs : List Byte) : (s.setText bs).v = s.v := rfl
@[simp] theorem State.setText_getV (bs : List Byte) (r : RegIx) : (s.setText bs).getV r = s.getV r := rfl
@[simp] theorem State.setText_estk (bs : List Byte) : (s.setText bs).estk = s.estk := rfl
@[simp] theorem State.setText_ovr (bs : List Byte) : (s.setText bs).ovr = s.ovr := rfl
@[simp] theorem State.setText_err (bs : List Byte) : (s.setText bs).err = s.err := rfl
@[simp] theorem State.setText_argLo (bs : List Byte) : (s.setText bs).argLo = s.argLo := rfl
@[simp] theorem State.setText_argHi (bs : List Byte) : (s.setText bs).argHi = s.argHi := rfl
@[simp] theorem State.setText_tlen (bs : List Byte) : (s.setText bs).tlen = BitVec.ofNat 32 bs.length := rfl
@[simp] theorem State.setText_mem (bs : List Byte) : (s.setText bs).mem = s.mem.writeBytes tbOffset bs := rfl
@[simp] theorem State.setText_latch (bs : List Byte) : (s.setText bs).latch = s.latch := rfl
@[simp] theorem State.setText_cap (bs : List Byte) : (s.setText bs).cap = s.cap := rfl
@[simp] theorem State.setText_base (bs : List Byte) : (s.setText bs).base = s.base := rfl
@[simp] theorem State.setText_faulted (bs : List Byte) : (s.setText bs).faulted = s.faulted := rfl
@[simp] theorem State.setText_events (bs : List Byte) : (s.setText bs).events = s.events := rfl
@[simp] theorem State.setText_resp (bs : List Byte) : (s.setText bs).resp = s.resp := rfl
@[simp] theorem State.setText_draws (bs : List Byte) : (s.setText bs).draws = s.draws := rfl

/-! ## Resets -/

@[simp] theorem State.resetControl_v : s.resetControl.v = s.v := rfl
@[simp] theorem State.resetControl_getV (r : RegIx) : s.resetControl.getV r = s.getV r := rfl
@[simp] theorem State.resetControl_mem : s.resetControl.mem = s.mem := rfl
@[simp] theorem State.resetControl_cap : s.resetControl.cap = s.cap := rfl
@[simp] theorem State.resetControl_base : s.resetControl.base = s.base := rfl
@[simp] theorem State.resetControl_faulted : s.resetControl.faulted = s.faulted := rfl
@[simp] theorem State.resetControl_events : s.resetControl.events = s.events := rfl
@[simp] theorem State.resetControl_resp : s.resetControl.resp = s.resp := rfl
@[simp] theorem State.resetControl_draws : s.resetControl.draws = s.draws := rfl

@[simp] theorem State.hwReset_getV (r : RegIx) : s.hwReset.getV r = ⟨0, false⟩ := by
  simp [State.getV, State.hwReset]

@[simp] theorem State.hwReset_mem : s.hwReset.mem = [] := rfl
@[simp] theorem State.hwReset_cap : s.hwReset.cap = s.cap := rfl
@[simp] theorem State.hwReset_base : s.hwReset.base = s.base := rfl
@[simp] theorem State.hwReset_faulted : s.hwReset.faulted = s.faulted := rfl

/-- A list of registers becomes unwritten, and nothing else changes. -/
theorem State.unwriteRegs_eq (rs : List RegIx) : ∃ v, s.unwriteRegs rs = { s with v := v } := by
  induction rs generalizing s with
  | nil => exact ⟨s.v, rfl⟩
  | cons r rs ih =>
    obtain ⟨v, h⟩ := ih (s.unwriteV r)
    exact ⟨v, by rw [State.unwriteRegs, h]; rfl⟩

theorem State.getV_unwriteRegs (rs : List RegIx) (q : RegIx) :
    (s.unwriteRegs rs).getV q = if q ∈ rs then ⟨0, false⟩ else s.getV q := by
  induction rs generalizing s with
  | nil => simp [State.unwriteRegs]
  | cons r rs ih =>
    rw [State.unwriteRegs, ih]
    by_cases hr : q ∈ rs
    · simp [hr]
    · by_cases hq : q = r
      · subst hq; simp [hr]
      · simp [hr, hq, State.getV_unwriteV_other s hq]

end Sys2Proof.Machine
end

