-- ==== Sys2Proof/Laws/Ops.lean ====
section
/-! SUPPORT. What each shared operation can do, said once; and what a command can do (`exec_shape`). -/

namespace Sys2Proof.Machine

open Host (Outcome)

/-- The state with its model's own draw counter and fault mark at other values: what reading operands can change. -/
def State.drawn (s : State) (d : Nat) (f : Bool) : State := { s with draws := d, faulted := f }

@[simp] theorem State.drawn_v (s : State) (d : Nat) (f : Bool) : (s.drawn d f).v = s.v := rfl
@[simp] theorem State.drawn_getV (s : State) (d : Nat) (f : Bool) (r : RegIx) : (s.drawn d f).getV r = s.getV r := rfl
@[simp] theorem State.drawn_val (s : State) (d : Nat) (f : Bool) (r : RegIx) : (s.drawn d f).val r = s.val r := rfl
@[simp] theorem State.drawn_written (s : State) (d : Nat) (f : Bool) (r : RegIx) : (s.drawn d f).written r = s.written r := rfl
@[simp] theorem State.drawn_estk (s : State) (d : Nat) (f : Bool) : (s.drawn d f).estk = s.estk := rfl
@[simp] theorem State.drawn_ovr (s : State) (d : Nat) (f : Bool) : (s.drawn d f).ovr = s.ovr := rfl
@[simp] theorem State.drawn_err (s : State) (d : Nat) (f : Bool) : (s.drawn d f).err = s.err := rfl
@[simp] theorem State.drawn_argLo (s : State) (d : Nat) (f : Bool) : (s.drawn d f).argLo = s.argLo := rfl
@[simp] theorem State.drawn_argHi (s : State) (d : Nat) (f : Bool) : (s.drawn d f).argHi = s.argHi := rfl
@[simp] theorem State.drawn_tlen (s : State) (d : Nat) (f : Bool) : (s.drawn d f).tlen = s.tlen := rfl
@[simp] theorem State.drawn_mem (s : State) (d : Nat) (f : Bool) : (s.drawn d f).mem = s.mem := rfl
@[simp] theorem State.drawn_latch (s : State) (d : Nat) (f : Bool) : (s.drawn d f).latch = s.latch := rfl
@[simp] theorem State.drawn_cap (s : State) (d : Nat) (f : Bool) : (s.drawn d f).cap = s.cap := rfl
@[simp] theorem State.drawn_base (s : State) (d : Nat) (f : Bool) : (s.drawn d f).base = s.base := rfl
@[simp] theorem State.drawn_events (s : State) (d : Nat) (f : Bool) : (s.drawn d f).events = s.events := rfl
@[simp] theorem State.drawn_resp (s : State) (d : Nat) (f : Bool) : (s.drawn d f).resp = s.resp := rfl
@[simp] theorem State.drawn_faulted (s : State) (d : Nat) (f : Bool) : (s.drawn d f).faulted = f := rfl
@[simp] theorem State.drawn_draws (s : State) (d : Nat) (f : Bool) : (s.drawn d f).draws = d := rfl
theorem State.drawn_self (s : State) : s.drawn s.draws s.faulted = s := rfl
theorem State.drawn_drawn (s : State) (d d' : Nat) (f f' : Bool) : (s.drawn d f).drawn d' f' = s.drawn d' f' := rfl

/-! ## Reading -/

theorem State.readV_written {s : State} {r : RegIx} (h : s.written r = true) : s.readV r = (s.val r, s) := by
  simp [State.readV, h]

theorem State.readV_unwritten {s : State} {r : RegIx} (h : s.written r = false) : s.readV r = s.drawValue := by
  simp [State.readV, h]

/-- Reading a register changes at most the draws and the fault mark, which stays once it is set. -/
theorem State.readV_drawn (s : State) (r : RegIx) :
    ∃ d f, (s.readV r).2 = s.drawn d f ∧ (s.faulted = true → f = true) := by
  unfold State.readV
  split
  · exact ⟨_, _, rfl, id⟩
  · exact ⟨_, true, rfl, fun _ => rfl⟩

theorem State.readByte_drawn (s : State) (x : Nat) :
    ∃ d f, (s.readByte x).2 = s.drawn d f ∧ (s.faulted = true → f = true) := by
  unfold State.readByte
  split
  · exact ⟨_, _, rfl, id⟩
  · exact ⟨_, true, rfl, fun _ => rfl⟩

theorem State.readBytes_drawn (s : State) (x n : Nat) :
    ∃ d f, (s.readBytes x n).2 = s.drawn d f ∧ (s.faulted = true → f = true) := by
  induction n generalizing s x with
  | zero => exact ⟨_, _, rfl, id⟩
  | succ n ih =>
    obtain ⟨d, f, h, hf⟩ := s.readByte_drawn x
    obtain ⟨d', f', h', hf'⟩ := ih (s.readByte x).2 (x + 1)
    refine ⟨d', f', ?_, fun e => hf' (by rw [h]; exact hf e)⟩
    change ((s.readByte x).2.readBytes (x + 1) n).2 = _
    rw [h', h, State.drawn_drawn]

theorem State.readLimb_drawn (s : State) (j : Nat) :
    ∃ d f, (s.readLimb j).2 = s.drawn d f ∧ (s.faulted = true → f = true) := s.readBytes_drawn _ _

theorem State.readLimbs_drawn (s : State) (j n : Nat) :
    ∃ d f, (s.readLimbs j n).2 = s.drawn d f ∧ (s.faulted = true → f = true) := by
  induction n generalizing s j with
  | zero => exact ⟨_, _, rfl, id⟩
  | succ n ih =>
    obtain ⟨d, f, h, hf⟩ := s.readLimb_drawn j
    obtain ⟨d', f', h', hf'⟩ := ih (s.readLimb j).2 (j + 1)
    refine ⟨d', f', ?_, fun e => hf' (by rw [h]; exact hf e)⟩
    change ((s.readLimb j).2.readLimbs (j + 1) n).2 = _
    rw [h', h, State.drawn_drawn]

theorem State.readBytes_length (s : State) (x n : Nat) : (s.readBytes x n).1.length = n := by
  induction n generalizing s x with
  | zero => rfl
  | succ n ih => exact congrArg Nat.succ (ih _ _)

/-- Written bytes are read as they stand, and nothing changes. -/
theorem State.readBytes_written (s : State) (x : Nat) (bs : List Byte)
    (h : ∀ j (hj : j < bs.length), s.mem.read (x + j) = some bs[j]) : s.readBytes x bs.length = (bs, s) := by
  induction bs generalizing x with
  | nil => rfl
  | cons b bs ih =>
    have h0 : s.readByte x = (b, s) := by
      have := h 0 (by simp)
      simp at this
      simp [State.readByte, this]
    have ht := ih (x + 1) fun j hj => by
      have := h (j + 1) (by simpa using hj)
      rwa [show x + (j + 1) = x + 1 + j by omega] at this
    simp [State.readBytes, h0, ht]

/-! ## Completing -/

/-- What completion can do: commit with ERR 0, or fail with everything but STATUS unchanged (60_exceptions.md R197). -/
theorem State.complete_cases (s : State) (r : Except ErrorKind Writes) :
    (∃ w, r = .ok w ∧ s.complete r = s.commit w) ∨ (∃ e, r = .error e ∧ s.complete r = s.raise e) := by
  cases r with
  | ok w => exact .inl ⟨w, rfl, rfl⟩
  | error e => exact .inr ⟨e, rfl, rfl⟩

@[simp] theorem State.complete_ok_reg (s : State) (rd : RegIx) (x : Int) :
    s.complete ((Except.ok x).map (Writes.reg rd)) = (s.setV rd x).succeed := rfl

@[simp] theorem State.complete_error (s : State) (rd : RegIx) (e : ErrorKind) :
    s.complete ((Except.error e).map (Writes.reg rd)) = s.raise e := rfl

/-- Writing registers changes the registers alone. -/
theorem State.setRegs_eq (s : State) (ws : List (RegIx × Int)) : ∃ v, s.setRegs ws = { s with v := v } := by
  induction ws generalizing s with
  | nil => exact ⟨s.v, rfl⟩
  | cons w ws ih =>
    obtain ⟨v, h⟩ := ih (s.setV w.1 w.2)
    exact ⟨v, by rw [State.setRegs, h]; rfl⟩

/-- A register that is not written keeps its value and mark. -/
theorem State.getV_setRegs_other (s : State) (ws : List (RegIx × Int)) (q : RegIx) (h : q ∉ ws.map Prod.fst) :
    (s.setRegs ws).getV q = s.getV q := by
  induction ws generalizing s with
  | nil => rfl
  | cons w ws ih =>
    simp only [List.map_cons, List.mem_cons, not_or] at h
    rw [State.setRegs, ih _ h.2, State.getV_setV_other _ _ h.1]

/-! ## Commands with written sources -/

theorem State.runNullary_eq (s : State) (rd : RegIx) (r : Except ErrorKind Int) :
    s.runNullary rd r = .next (s.complete (r.map (Writes.reg rd))) := rfl

theorem State.runUnary_written {s : State} {f : Nat → Int → Except ErrorKind Int} {rd ra : RegIx}
    (ha : s.written ra = true) : s.runUnary f rd ra = .next (s.complete ((f s.cap (s.val ra)).map (Writes.reg rd))) := by
  simp [State.runUnary, State.readV_written ha, State.finish]

theorem State.runBinary_written {s : State} {f : Nat → Int → Int → Except ErrorKind Int} {rd ra rb : RegIx}
    (ha : s.written ra = true) (hb : s.written rb = true) :
    s.runBinary f rd ra rb = .next (s.complete ((f s.cap (s.val ra) (s.val rb)).map (Writes.reg rd))) := by
  simp [State.runBinary, State.readV_written ha, State.readV_written hb, State.finish]

theorem State.runTernary_written {s : State} {f : Nat → Int → Int → Int → Except ErrorKind Int} {rd ra rb rc : RegIx}
    (ha : s.written ra = true) (hb : s.written rb = true) (hc : s.written rc = true) :
    s.runTernary f rd ra rb rc =
      .next (s.complete ((f s.cap (s.val ra) (s.val rb) (s.val rc)).map (Writes.reg rd))) := by
  simp [State.runTernary, State.readV_written ha, State.readV_written hb, State.readV_written hc, State.finish]

/-! ## What a command can do -/

/-- The shape of every command: it reads (which touches only draws and the fault mark), then completes with a result
that writes exactly the destinations its word names, or fails. -/
def State.Shaped (s : State) (i : Instr) (o : Outcome State Fault Refusal) : Prop :=
  ∃ d f r, o = (s.drawn d f).finish r ∧ (s.faulted = true → f = true) ∧
    ∀ w, r = .ok w → w.regs.map Prod.fst = i.dests ∧ w.text.isSome = i.writesText

theorem writes_of_map_reg {r : Except ErrorKind Int} {rd : RegIx} {w : Writes} (h : r.map (Writes.reg rd) = .ok w) :
    w.regs.map Prod.fst = [rd] ∧ w.text.isSome = false := by
  cases r with
  | error e => cases h
  | ok x => cases h; exact ⟨rfl, rfl⟩

/-- The shape, from the two things it says. -/
theorem State.shaped_intro {s s' : State} {i : Instr} {r : Except ErrorKind Writes}
    (h : ∃ d f, s' = s.drawn d f ∧ (s.faulted = true → f = true))
    (hw : ∀ w, r = .ok w → w.regs.map Prod.fst = i.dests ∧ w.text.isSome = i.writesText) :
    s.Shaped i (s'.finish r) := by
  obtain ⟨d, f, rfl, hf⟩ := h
  exact ⟨d, f, r, rfl, hf, hw⟩

theorem State.fail_shaped (s : State) (i : Instr) (e : ErrorKind) : s.Shaped i (s.finish (.error e)) :=
  State.shaped_intro ⟨s.draws, s.faulted, rfl, id⟩ fun _ h => by cases h

theorem State.runNullary_shaped {s s' : State} {i : Instr} {rd : RegIx} (r : Except ErrorKind Int)
    (h : ∃ d f, s' = s.drawn d f ∧ (s.faulted = true → f = true)) (hi : i.dests = [rd]) (ht : i.writesText = false) :
    s.Shaped i (s'.runNullary rd r) :=
  State.shaped_intro h fun _ e => by rw [hi, ht]; exact writes_of_map_reg e

theorem State.runUnary_shaped (s : State) {i : Instr} {rd ra : RegIx} (f : Nat → Int → Except ErrorKind Int)
    (hi : i.dests = [rd]) (ht : i.writesText = false) : s.Shaped i (s.runUnary f rd ra) :=
  State.shaped_intro (s.readV_drawn ra) fun _ e => by rw [hi, ht]; exact writes_of_map_reg e

/-- Two reads in a row change at most the draws and the fault mark. -/
theorem State.readV_readV_drawn (s : State) (r q : RegIx) :
    ∃ d f, ((s.readV r).2.readV q).2 = s.drawn d f ∧ (s.faulted = true → f = true) := by
  obtain ⟨d, f, h, hf⟩ := s.readV_drawn r
  obtain ⟨d', f', h', hf'⟩ := (s.readV r).2.readV_drawn q
  exact ⟨d', f', by rw [h', h, State.drawn_drawn], fun e => hf' (by rw [h]; exact hf e)⟩

/-- So do three reads in a row. -/
theorem State.readV_readV_readV_drawn (s : State) (r q p : RegIx) :
    ∃ d f, (((s.readV r).2.readV q).2.readV p).2 = s.drawn d f ∧ (s.faulted = true → f = true) := by
  obtain ⟨d, f, h, hf⟩ := s.readV_readV_drawn r q
  obtain ⟨d', f', h', hf'⟩ := ((s.readV r).2.readV q).2.readV_drawn p
  exact ⟨d', f', by rw [h', h, State.drawn_drawn], fun e => hf' (by rw [h]; exact hf e)⟩

theorem State.runBinary_shaped (s : State) {i : Instr} {rd ra rb : RegIx} (f : Nat → Int → Int → Except ErrorKind Int)
    (hi : i.dests = [rd]) (ht : i.writesText = false) : s.Shaped i (s.runBinary f rd ra rb) :=
  State.shaped_intro (s.readV_readV_drawn ra rb) fun _ e => by rw [hi, ht]; exact writes_of_map_reg e

theorem State.runTernary_shaped (s : State) {i : Instr} {rd ra rb rc : RegIx}
    (f : Nat → Int → Int → Int → Except ErrorKind Int) (hi : i.dests = [rd]) (ht : i.writesText = false) :
    s.Shaped i (s.runTernary f rd ra rb rc) :=
  State.shaped_intro (s.readV_readV_readV_drawn ra rb rc) fun _ e => by rw [hi, ht]; exact writes_of_map_reg e

theorem execLdlimbs_shaped (rd : RegIx) (s : State) : s.Shaped (.ldlimbs rd) (execLdlimbs rd s) := by
  unfold execLdlimbs
  split
  · exact s.fail_shaped _ _
  · exact State.runNullary_shaped _ (s.readLimbs_drawn _ _) rfl rfl

theorem execParse_shaped (rd : RegIx) (imm : BitVec 8) (s : State) : s.Shaped (.parse rd imm) (execParse rd imm s) := by
  unfold execParse
  split
  · exact s.fail_shaped _ _
  · split
    · exact s.fail_shaped _ _
    · exact State.runNullary_shaped _ (s.readBytes_drawn _ _) rfl rfl

theorem execDivmod_shaped (rd rc ra rb : RegIx) (s : State) :
    s.Shaped (.divmod rd rc ra rb) (execDivmod rd rc ra rb s) := by
  unfold execDivmod
  split
  · exact s.fail_shaped _ _
  · refine State.shaped_intro (s.readV_readV_drawn ra rb) fun w e => ?_
    cases hr : divResult s.cap (s.readV ra).1 ((s.readV ra).2.readV rb).1 with
    | error k => rw [hr] at e; cases e
    | ok q => rw [hr] at e; cases e; exact ⟨rfl, rfl⟩

theorem execFmt_shaped (ra : RegIx) (imm : BitVec 8) (s : State) : s.Shaped (.fmt ra imm) (execFmt ra imm s) := by
  unfold execFmt
  dsimp only
  split
  · exact State.shaped_intro (s.readV_drawn ra) fun _ e => by cases e
  · exact State.shaped_intro (s.readV_drawn ra) fun w e => by cases e; exact ⟨rfl, rfl⟩

/-- What any command can do, said once: frames, completion and precise failure are read off it. -/
theorem exec_shape (i : Instr) (s : State) : s.Shaped i (exec i s) := by
  cases i with
  | mov rd ra => unfold exec execMov; refine s.runUnary_shaped _ ?_ ?_ <;> rfl
  | sets rd => unfold exec execSets; refine State.runNullary_shaped _ ⟨s.draws, s.faulted, rfl, id⟩ ?_ ?_ <;> rfl
  | setu rd => unfold exec execSetu; refine State.runNullary_shaped _ ⟨s.draws, s.faulted, rfl, id⟩ ?_ ?_ <;> rfl
  | ldlimbs rd => exact execLdlimbs_shaped rd s
  | parse rd imm => exact execParse_shaped rd imm s
  | neg rd ra => unfold exec execNeg; refine s.runUnary_shaped _ ?_ ?_ <;> rfl
  | abs rd ra => unfold exec execAbs; refine s.runUnary_shaped _ ?_ ?_ <;> rfl
  | cmpeq rd ra rb => unfold exec execCmpeq; refine s.runBinary_shaped _ ?_ ?_ <;> rfl
  | cmpne rd ra rb => unfold exec execCmpne; refine s.runBinary_shaped _ ?_ ?_ <;> rfl
  | cmplt rd ra rb => unfold exec execCmplt; refine s.runBinary_shaped _ ?_ ?_ <;> rfl
  | cmpgt rd ra rb => unfold exec execCmpgt; refine s.runBinary_shaped _ ?_ ?_ <;> rfl
  | cmple rd ra rb => unfold exec execCmple; refine s.runBinary_shaped _ ?_ ?_ <;> rfl
  | cmpge rd ra rb => unfold exec execCmpge; refine s.runBinary_shaped _ ?_ ?_ <;> rfl
  | min rd ra rb => unfold exec execMin; refine s.runBinary_shaped _ ?_ ?_ <;> rfl
  | max rd ra rb => unfold exec execMax; refine s.runBinary_shaped _ ?_ ?_ <;> rfl
  | add rd ra rb => unfold exec execAdd; refine s.runBinary_shaped _ ?_ ?_ <;> rfl
  | sub rd ra rb => unfold exec execSub; refine s.runBinary_shaped _ ?_ ?_ <;> rfl
  | inc rd ra => unfold exec execInc; refine s.runUnary_shaped _ ?_ ?_ <;> rfl
  | dec rd ra => unfold exec execDec; refine s.runUnary_shaped _ ?_ ?_ <;> rfl
  | shl rd ra rb => unfold exec execShl; refine s.runBinary_shaped _ ?_ ?_ <;> rfl
  | shlw rd ra rb => unfold exec execShlw; refine s.runBinary_shaped _ ?_ ?_ <;> rfl
  | shr rd ra rb => unfold exec execShr; refine s.runBinary_shaped _ ?_ ?_ <;> rfl
  | mul rd ra rb => unfold exec execMul; refine s.runBinary_shaped _ ?_ ?_ <;> rfl
  | div rd ra rb => unfold exec execDiv; refine s.runBinary_shaped _ ?_ ?_ <;> rfl
  | mod rd ra rb => unfold exec execMod; refine s.runBinary_shaped _ ?_ ?_ <;> rfl
  | divmod rd rc ra rb => exact execDivmod_shaped rd rc ra rb s
  | gcd rd ra rb => unfold exec execGcd; refine s.runBinary_shaped _ ?_ ?_ <;> rfl
  | modinv rd ra rb => unfold exec execModinv; refine s.runBinary_shaped _ ?_ ?_ <;> rfl
  | modpow rd ra rb rc => unfold exec execModpow; refine s.runTernary_shaped _ ?_ ?_ <;> rfl
  | jacobi rd ra rb => unfold exec execJacobi; refine s.runBinary_shaped _ ?_ ?_ <;> rfl
  | fmt ra imm => exact execFmt_shaped ra imm s

end Sys2Proof.Machine
end

