-- ==== Sys2Proof/Laws/PerInstr.lean ====
section
/-! SUPPORT. Statements for all commands, made one command at a time. The family OpcodeByte: the encoder puts the opcode of
30_encoding.md R80 into bits 31:24. -/

namespace Sys2Proof

/-- The field `op` of a packed word is the opcode, whatever the other fields hold. -/
theorem fieldOp_pack {op : Nat} (h : op < 256) (rd ra rb rc : RegIx) (imm : BitVec 8) :
    fieldOp (pack op rd ra rb rc imm) = op := by
  have := rd.isLt; have := ra.isLt; have := rb.isLt; have := rc.isLt; have := imm.isLt
  simp only [fieldOp, pack, BitVec.toNat_ofNat]
  omega

/-- The other fields of a packed word are the fields packed. -/
theorem fields_pack (op : Nat) (rd ra rb rc : RegIx) (imm : BitVec 8) :
    fieldRd (pack op rd ra rb rc imm) = rd ∧ fieldRa (pack op rd ra rb rc imm) = ra ∧
      fieldRb (pack op rd ra rb rc imm) = rb ∧ fieldRc (pack op rd ra rb rc imm) = rc ∧
      fieldImm (pack op rd ra rb rc imm) = imm := by
  have := rd.isLt; have := ra.isLt; have := rb.isLt; have := rc.isLt; have := imm.isLt
  refine ⟨Fin.ext ?_, Fin.ext ?_, Fin.ext ?_, Fin.ext ?_, BitVec.eq_of_toNat_eq ?_⟩ <;>
    simp only [fieldRd, fieldRa, fieldRb, fieldRc, fieldImm, pack, BitVec.toNat_ofNat] <;> omega

namespace Laws.OpcodeByte

/-- The opcode of a command (30_encoding.md R80). -/
def opcodeOf : Instr → Nat
  | .mov _ _ => 0x01 | .sets _ => 0x02 | .setu _ => 0x03 | .ldlimbs _ => 0x04 | .parse _ _ => 0x05
  | .neg _ _ => 0x10 | .abs _ _ => 0x11 | .cmpeq _ _ _ => 0x12 | .cmpne _ _ _ => 0x13 | .cmplt _ _ _ => 0x14
  | .cmpgt _ _ _ => 0x15 | .cmple _ _ _ => 0x16 | .cmpge _ _ _ => 0x17 | .min _ _ _ => 0x18 | .max _ _ _ => 0x19
  | .add _ _ _ => 0x20 | .sub _ _ _ => 0x21 | .inc _ _ => 0x22 | .dec _ _ => 0x23
  | .shl _ _ _ => 0x30 | .shlw _ _ _ => 0x31 | .shr _ _ _ => 0x32 | .mul _ _ _ => 0x40
  | .div _ _ _ => 0x50 | .mod _ _ _ => 0x51 | .divmod _ _ _ _ => 0x52
  | .gcd _ _ _ => 0x60 | .modinv _ _ _ => 0x61 | .modpow _ _ _ _ => 0x62 | .jacobi _ _ _ => 0x63 | .fmt _ _ => 0x70

/-- The encoded word carries the command's opcode in bits 31:24 (30_encoding.md R76, R80, R85). -/
def Statement (i : Instr) : Prop := fieldOp (encode i) = opcodeOf i

theorem mov (rd ra : RegIx) : Statement (.mov rd ra) := fieldOp_pack (by decide) ..
theorem sets (rd : RegIx) : Statement (.sets rd) := fieldOp_pack (by decide) ..
theorem setu (rd : RegIx) : Statement (.setu rd) := fieldOp_pack (by decide) ..
theorem ldlimbs (rd : RegIx) : Statement (.ldlimbs rd) := fieldOp_pack (by decide) ..
theorem parse (rd : RegIx) (imm : BitVec 8) : Statement (.parse rd imm) := fieldOp_pack (by decide) ..
theorem neg (rd ra : RegIx) : Statement (.neg rd ra) := fieldOp_pack (by decide) ..
theorem abs (rd ra : RegIx) : Statement (.abs rd ra) := fieldOp_pack (by decide) ..
theorem cmpeq (rd ra rb : RegIx) : Statement (.cmpeq rd ra rb) := fieldOp_pack (by decide) ..
theorem cmpne (rd ra rb : RegIx) : Statement (.cmpne rd ra rb) := fieldOp_pack (by decide) ..
theorem cmplt (rd ra rb : RegIx) : Statement (.cmplt rd ra rb) := fieldOp_pack (by decide) ..
theorem cmpgt (rd ra rb : RegIx) : Statement (.cmpgt rd ra rb) := fieldOp_pack (by decide) ..
theorem cmple (rd ra rb : RegIx) : Statement (.cmple rd ra rb) := fieldOp_pack (by decide) ..
theorem cmpge (rd ra rb : RegIx) : Statement (.cmpge rd ra rb) := fieldOp_pack (by decide) ..
theorem min (rd ra rb : RegIx) : Statement (.min rd ra rb) := fieldOp_pack (by decide) ..
theorem max (rd ra rb : RegIx) : Statement (.max rd ra rb) := fieldOp_pack (by decide) ..
theorem add (rd ra rb : RegIx) : Statement (.add rd ra rb) := fieldOp_pack (by decide) ..
theorem sub (rd ra rb : RegIx) : Statement (.sub rd ra rb) := fieldOp_pack (by decide) ..
theorem inc (rd ra : RegIx) : Statement (.inc rd ra) := fieldOp_pack (by decide) ..
theorem dec (rd ra : RegIx) : Statement (.dec rd ra) := fieldOp_pack (by decide) ..
theorem shl (rd ra rb : RegIx) : Statement (.shl rd ra rb) := fieldOp_pack (by decide) ..
theorem shlw (rd ra rb : RegIx) : Statement (.shlw rd ra rb) := fieldOp_pack (by decide) ..
theorem shr (rd ra rb : RegIx) : Statement (.shr rd ra rb) := fieldOp_pack (by decide) ..
theorem mul (rd ra rb : RegIx) : Statement (.mul rd ra rb) := fieldOp_pack (by decide) ..
theorem div (rd ra rb : RegIx) : Statement (.div rd ra rb) := fieldOp_pack (by decide) ..
theorem mod (rd ra rb : RegIx) : Statement (.mod rd ra rb) := fieldOp_pack (by decide) ..
theorem divmod (rd rc ra rb : RegIx) : Statement (.divmod rd rc ra rb) := fieldOp_pack (by decide) ..
theorem gcd (rd ra rb : RegIx) : Statement (.gcd rd ra rb) := fieldOp_pack (by decide) ..
theorem modinv (rd ra rb : RegIx) : Statement (.modinv rd ra rb) := fieldOp_pack (by decide) ..
theorem modpow (rd ra rb rc : RegIx) : Statement (.modpow rd ra rb rc) := fieldOp_pack (by decide) ..
theorem jacobi (rd ra rb : RegIx) : Statement (.jacobi rd ra rb) := fieldOp_pack (by decide) ..
theorem fmt (ra : RegIx) (imm : BitVec 8) : Statement (.fmt ra imm) := fieldOp_pack (by decide) ..

end Laws.OpcodeByte

end Sys2Proof
end

