-- ==== Sys2Proof/Laws/Step.lean ====
section
/-! SUPPORT. What a step can do: the five kinds of step, and what each host access can do. -/

namespace Sys2Proof.Machine

open Host (Outcome)

theorem step_of_no_event {s : State} (h : s.events = []) : step s = s.coreStep := by simp [step, State.advance, h]

theorem step_of_core {s : State} {es : List Event} (h : s.events = .core :: es) :
    step s = State.coreStep { s with events := es } := by simp [step, State.advance, h, State.takeEvent]

theorem step_of_read {s : State} {es : List Event} {addr : Nat} {w : Width} (h : s.events = .read addr w :: es) :
    step s = State.hostRead { s with events := es } addr w := by simp [step, State.advance, h, State.takeEvent]

theorem step_of_write {s : State} {es : List Event} {addr : Nat} {w : Width} {v : Word}
    (h : s.events = .write addr w v :: es) : step s = State.hostWrite { s with events := es } addr w v := by
  simp [step, State.advance, h, State.takeEvent]

theorem step_of_hwReset {s : State} {es : List Event} (h : s.events = .hwReset :: es) :
    step s = .next (State.hwReset { s with events := es }) := by simp [step, State.advance, h, State.takeEvent]

/-- A completed word is a command's meaning or IllegalCommand, and either way the next state has its shape. -/
theorem State.completeWord_cases (s : State) (w : Word) :
    (∃ i, decode w = some i ∧ s.completeWord w = exec i s) ∨
      (decode w = none ∧ s.completeWord w = .next (s.raise .illegalCommand)) := by
  unfold State.completeWord
  split
  · exact .inl ⟨_, ‹_›, rfl⟩
  · exact .inr ⟨‹_›, rfl⟩

/-- The step after a command is placed is the completion of that command's word. -/
theorem step_withFetchWord (s : State) (nbits w : Nat) :
    step (s.withFetchWord nbits w) =
      State.completeWord { s with latch := some (BitVec.ofNat 32 (w % 2 ^ nbits)) } (BitVec.ofNat 32 (w % 2 ^ nbits)) := rfl

/-- A host read answers the read of an accepted region, a bus error, or a refusal. -/
theorem State.hostRead_cases (s : State) (addr : Nat) (w : Width) :
    (s.offsetOf addr = none ∧ s.hostRead addr w = .refused (.outsideWindow addr)) ∨
    (∃ off, s.offsetOf addr = some off ∧ acceptedRegion off w = none ∧ s.hostRead addr w = .fault (.busError off)) ∨
    (∃ off r, s.offsetOf addr = some off ∧ acceptedRegion off w = some r ∧
      s.hostRead addr w = .next (s.readRegion r off w)) := by
  unfold State.hostRead
  split
  · exact .inl ⟨‹_›, rfl⟩
  · split
    · exact .inr (.inl ⟨_, ‹_›, ‹_›, rfl⟩)
    · exact .inr (.inr ⟨_, _, ‹_›, ‹_›, rfl⟩)

/-- A host write answers the write of an accepted region, a bus error, or a refusal. -/
theorem State.hostWrite_cases (s : State) (addr : Nat) (w : Width) (v : Word) :
    (s.offsetOf addr = none ∧ s.hostWrite addr w v = .refused (.outsideWindow addr)) ∨
    (∃ off, s.offsetOf addr = some off ∧ acceptedRegion off w = none ∧ s.hostWrite addr w v = .fault (.busError off)) ∨
    (∃ off r, s.offsetOf addr = some off ∧ acceptedRegion off w = some r ∧
      s.hostWrite addr w v = .next { s.writeRegion r off w v with resp := .ack }) := by
  unfold State.hostWrite
  split
  · exact .inl ⟨‹_›, rfl⟩
  · split
    · exact .inr (.inl ⟨_, ‹_›, ‹_›, rfl⟩)
    · exact .inr (.inr ⟨_, _, ‹_›, ‹_›, rfl⟩)

/-! ## Runs -/

/-- One more step at the start of a run. -/
theorem run_succ (n : Nat) (s : State) :
    Sys2Proof.core.run (n + 1) s = match step s with
      | .next t => Sys2Proof.core.run n t
      | .fault r => .fault r
      | .refused r => .refused r := by
  have first (M : Host.Core) (q : M.State) : M.run (n + 1) q = match M.step q with
      | .next t => M.run n t
      | .fault r => .fault r
      | .refused r => .refused r := rfl
  have same : Sys2Proof.core.step s = step s := rfl
  refine (first Sys2Proof.core s).trans ?_
  rw [same]
  cases step s <;> rfl

/-! ## Buffer reads -/

theorem State.hostBytes_length (s : State) (x k n : Nat) : (s.hostBytes x k n).length = n := by
  induction n generalizing x k with
  | zero => rfl
  | succ n ih => simp [State.hostBytes, ih]

/-- A byte that the host reads is the one that stands there, or a free one (10_state.md R41). -/
theorem State.hostBytes_get (s : State) (x k n j : Nat) (h : j < (s.hostBytes x k n).length) :
    (s.hostBytes x k n)[j] = (s.mem.read (x + j)).getD (Config.freeByte (k + j)) := by
  induction n generalizing x k j with
  | zero => simp [State.hostBytes] at h
  | succ n ih =>
    cases j with
    | zero => simp [State.hostBytes]
    | succ j =>
      have := ih (x + 1) (k + 1) j (by simpa [State.hostBytes] using h)
      rw [show x + (j + 1) = x + 1 + j by omega, show k + (j + 1) = k + 1 + j by omega, ← this]
      simp [State.hostBytes]

/-! ## Accepted accesses -/

/-- An accepted access lies inside the window (20_memory.md R45). -/
theorem acceptedRegion_lt {off : Nat} {w : Width} {r : Region} (h : acceptedRegion off w = some r) : off < windowSize := by
  unfold acceptedRegion regionAt at h
  unfold windowSize
  by_contra hn
  rw [if_neg (show ¬ off < 0x1C by omega), if_neg (show ¬ (0x1000 ≤ off ∧ off < 0x2000) by omega),
    if_neg (show ¬ (0x10000 ≤ off ∧ off < 0x20000) by omega), if_neg (show ¬ (0x20000 ≤ off ∧ off < 0x30000) by omega),
    if_neg (show ¬ (0x30000 ≤ off ∧ off < 0x30040) by omega)] at h
  cases h

/-- The bus address of an offset inside the window stands for that offset. -/
theorem State.offsetOf_base (s : State) {off : Nat} (h : off < windowSize) : s.offsetOf (s.base + off) = some off := by
  simp [State.offsetOf, h]

/-- The step of an accepted read. -/
theorem step_of_accepted_read {s : State} {es : List Event} {off : Nat} {w : Width} {r : Region}
    (h : s.events = .read (s.base + off) w :: es) (ha : acceptedRegion off w = some r) :
    step s = .next (State.readRegion { s with events := es } r off w) := by
  have ho : State.offsetOf { s with events := es } (s.base + off) = some off :=
    State.offsetOf_base { s with events := es } (acceptedRegion_lt ha)
  rw [step_of_read h, State.hostRead, ho]
  simp only [ha]

/-- The step of an accepted write. -/
theorem step_of_accepted_write {s : State} {es : List Event} {off : Nat} {w : Width} {v : Word} {r : Region}
    (h : s.events = .write (s.base + off) w v :: es) (ha : acceptedRegion off w = some r) :
    step s = .next { State.writeRegion { s with events := es } r off w v with resp := .ack } := by
  have ho : State.offsetOf { s with events := es } (s.base + off) = some off :=
    State.offsetOf_base { s with events := es } (acceptedRegion_lt ha)
  rw [step_of_write h, State.hostWrite, ho]
  simp only [ha]

end Sys2Proof.Machine
end

