-- ==== Sys2Proof/Tests/Slice0.lean ====
section
/-! SUPPORT. Tests of one step each, with expected results from spec/95_test_vectors.md, and for every statement with
hypotheses a witness that meets them. -/

namespace Sys2Proof.Tests

open Sys2Proof Sys2Proof.Machine Host

/-! ## Helpers -/

/-- The state after reset at capacity `C`, with V1, V2 and V3 written. -/
def loaded (C : Nat) (a b n : Int) : State := ((({ State.reset with cap := C }.setV 1 a).setV 2 b).setV 3 n)

/-- The state after reset at capacity `C`, with a string in TB and its length in TLEN. -/
def typed (C : Nat) (cs : List Byte) : State := { State.reset with cap := C }.setText cs

/-- The state after reset at capacity 2 with limbs 1 and 2 in LB and their count in ARGLO. -/
def limbed : State :=
  { State.reset with cap := 2, argLo := 2, mem := (Memory.writeBytes [] 0x1000 (bytesOf 1 4)).writeBytes 0x1004 (bytesOf 2 4) }

/-- A busy state: `loaded` with a word in flight. -/
def busyWith (w : Word) : State := { loaded 2 5 3 0 with latch := some w }

/-- The state that a step answers. -/
def after : Outcome State Fault Refusal → Option State
  | .next t => some t
  | _ => none

/-- Value, ERR and ESTK after a command word is run, as the register `r` and STATUS show them. -/
def run (s : State) (w : Nat) (r : RegIx) : Option (Int × BitVec 4 × Bool) :=
  (after (step (s.withFetchWord 32 w))).map fun t => (t.val r, t.err, t.estk)

/-- The string that a command leaves in TB, as long as TLEN says. -/
def runText (s : State) (w : Nat) : Option (List (Option Byte)) :=
  (after (step (s.withFetchWord 32 w))).map fun t => (List.range t.tlen.toNat).map fun j => t.mem.read (tbOffset + j)

/-- The answer of one host read at an offset. -/
def readAt (s : State) (off : Nat) (w : Width) : Option Resp := (after (s.hostRead (s.base + off) w)).map State.resp

/-! ## Well-formedness and decoding -/

/-- DIVMOD with `rd = rc` is ill-formed (30_encoding.md R79). -/
theorem test_divmod_same_destination_illformed : Instr.wellFormed (.divmod 4 4 1 2) = false := by decide

theorem test_divmod_two_destinations_wellformed : Instr.wellFormed (.divmod 4 5 1 2) = true := by decide

/-- Words written out from 30_encoding.md R76, R77, R80: op, rd, ra, rb, rc, imm. -/
theorem test_decode_construction :
    decode 0b00000001_0010_0001_0000_0000_00000000 = some (.mov 2 1) ∧
    decode 0b00000010_0111_0000_0000_0000_00000000 = some (.sets 7) ∧
    decode 0b00000011_0001_0000_0000_0000_00000000 = some (.setu 1) ∧
    decode 0b00000100_0001_0000_0000_0000_00000000 = some (.ldlimbs 1) ∧
    decode 0b00000101_0001_0000_0000_0000_00010000 = some (.parse 1 16) := by decide

theorem test_decode_sign_compare :
    decode 0b00010000_0010_0001_0000_0000_00000000 = some (.neg 2 1) ∧
    decode 0b00010001_0001_0001_0000_0000_00000000 = some (.abs 1 1) ∧
    decode 0b00010010_0011_0001_0010_0000_00000000 = some (.cmpeq 3 1 2) ∧
    decode 0b00010011_0011_0001_0010_0000_00000000 = some (.cmpne 3 1 2) ∧
    decode 0b00010100_0011_0001_0010_0000_00000000 = some (.cmplt 3 1 2) ∧
    decode 0b00010101_0011_0001_0010_0000_00000000 = some (.cmpgt 3 1 2) ∧
    decode 0b00010110_0011_0001_0010_0000_00000000 = some (.cmple 3 1 2) ∧
    decode 0b00010111_0011_0001_0010_0000_00000000 = some (.cmpge 3 1 2) ∧
    decode 0b00011000_0011_0001_0010_0000_00000000 = some (.min 3 1 2) ∧
    decode 0b00011001_0011_0001_0010_0000_00000000 = some (.max 3 1 2) := by decide

theorem test_decode_arithmetic :
    decode 0b00100000_0011_0001_0010_0000_00000000 = some (.add 3 1 2) ∧
    decode 0b00100001_0011_0001_0010_0000_00000000 = some (.sub 3 1 2) ∧
    decode 0b00100010_0001_0001_0000_0000_00000000 = some (.inc 1 1) ∧
    decode 0b00100011_0010_0001_0000_0000_00000000 = some (.dec 2 1) ∧
    decode 0b00110000_0011_0001_0010_0000_00000000 = some (.shl 3 1 2) ∧
    decode 0b00110001_0011_0001_0010_0000_00000000 = some (.shlw 3 1 2) ∧
    decode 0b00110010_0011_0001_0010_0000_00000000 = some (.shr 3 1 2) ∧
    decode 0b01000000_0111_0101_0110_0000_00000000 = some (.mul 7 5 6) := by decide

theorem test_decode_division_and_number_theory :
    decode 0b01010000_0011_0001_0010_0000_00000000 = some (.div 3 1 2) ∧
    decode 0b01010001_0011_0001_0010_0000_00000000 = some (.mod 3 1 2) ∧
    decode 0b01010010_0100_0001_0010_0101_00000000 = some (.divmod 4 5 1 2) ∧
    decode 0b01100000_0011_0001_0010_0000_00000000 = some (.gcd 3 1 2) ∧
    decode 0b01100001_0011_0001_0010_0000_00000000 = some (.modinv 3 1 2) ∧
    decode 0b01100010_0100_0001_0010_0011_00000000 = some (.modpow 4 1 2 3) ∧
    decode 0b01100011_0011_0001_0010_0000_00000000 = some (.jacobi 3 1 2) ∧
    decode 0b01110000_0000_0001_0000_0000_00001010 = some (.fmt 1 10) := by decide

/-- The illegal words of 95_test_vectors.md L2.11. -/
theorem test_illegal_words :
    decode 0x00000000 = none ∧ decode 0xFF000000 = none ∧ decode 0x06000000 = none ∧
    decode 0x20312001 = none ∧ decode 0x02010000 = none ∧ decode 0x10211000 = none ∧
    decode 0x62412301 = none ∧ decode 0x7011000A = none ∧ decode 0x52412400 = none := by decide

/-- An illegal word fails even though it names unwritten registers, and reads none (95_test_vectors.md L2.11). -/
theorem test_illegal_reads_nothing :
    (after (step (State.reset.withFetchWord 32 0x20312001))).map (fun t => (t.err, t.estk, t.faulted, t.busy)) =
      some (15, true, false, false) := by decide

/-! ## Construction (95_test_vectors.md L2.1) -/

theorem test_mov_same_register : run (loaded 2 (-2 ^ 63) 0 0) 0x01110000 1 = some (-2 ^ 63, 0, false) := by decide

theorem test_sets_underflow_one_limb :
    run { State.reset with cap := 1, argHi := 0xFFFFFFFF, argLo := 0x7FFFFFFF } 0x02000000 0 = some (0, 2, true) := by decide

theorem test_sets_negative :
    run { State.reset with cap := 2, argHi := 0xFFFFFFFF, argLo := 0xFFFFFFFB } 0x02000000 0 = some (-5, 0, false) := by
  decide

theorem test_setu_overflow_two_limbs :
    run { State.reset with cap := 2, argHi := 0x80000000 } 0x03000000 0 = some (0, 1, true) := by decide

theorem test_setu_fits_three_limbs :
    run { State.reset with cap := 3, argHi := 0x80000000 } 0x03000000 0 = some (2 ^ 63, 0, false) := by decide

theorem test_ldlimbs_most_significant_first : run limbed 0x04000000 0 = some (4294967298, 0, false) := by decide

theorem test_ldlimbs_capacity_before_reading :
    (after (step ({ State.reset with cap := 2, argLo := 3 }.withFetchWord 32 0x04000000))).map
      (fun t => (t.err, t.faulted)) = some (9, false) := by decide

theorem test_parse_negative : run (typed 2 [0x2D, 0x32, 0x30]) 0x0500000A 0 = some (-20, 0, false) := by decide

/-- A bad digit outranks a value too large (95_test_vectors.md L2.1, "99…9x"). -/
theorem test_parse_digit_before_range :
    run (typed 1 [0x39, 0x39, 0x39, 0x39, 0x39, 0x39, 0x39, 0x39, 0x39, 0x39, 0x78]) 0x0500000A 0 = some (0, 3, true) := by
  decide

/-! ## Sign and comparison (L2.2) -/

theorem test_neg_max : run (loaded 2 (2 ^ 63 - 1) 0 0) 0x10410000 4 = some (-2 ^ 63 + 1, 0, false) := by decide

theorem test_neg_min_fails : run (loaded 2 (-2 ^ 63) 0 0) 0x10410000 1 = some (-2 ^ 63, 1, true) := by decide

theorem test_abs_negative : run (loaded 2 (-42) 0 0) 0x11110000 1 = some (42, 0, false) := by decide

theorem test_cmpeq_min : run (loaded 2 (-2 ^ 63) (-2 ^ 63) 0) 0x12412000 4 = some (1, 0, false) := by decide

theorem test_cmpne_zero_minus_one : run (loaded 2 0 (-1) 0) 0x13412000 4 = some (1, 0, false) := by decide

theorem test_cmplt_signed : run (loaded 2 (-1) 0 0) 0x14312000 3 = some (1, 0, false) := by decide

theorem test_cmpgt_minus_one_min : run (loaded 2 (-1) (-2 ^ 63) 0) 0x15412000 4 = some (1, 0, false) := by decide

theorem test_cmple_equal : run (loaded 2 5 5 0) 0x16412000 4 = some (1, 0, false) := by decide

theorem test_cmpge_minus_one_zero : run (loaded 2 (-1) 0 0) 0x17412000 4 = some (0, 0, false) := by decide

theorem test_min_signed : run (loaded 2 (-3) 2 0) 0x18412000 4 = some (-3, 0, false) := by decide

theorem test_max_signed : run (loaded 2 (-2 ^ 63) (-1) 0) 0x19412000 4 = some (-1, 0, false) := by decide

/-! ## Add, subtract, shift, multiply (L2.3 to L2.5) -/

theorem test_add_overflow : run (loaded 2 (2 ^ 63 - 1) 1 0) 0x20412000 1 = some (2 ^ 63 - 1, 1, true) := by decide

theorem test_add_max_min : run (loaded 2 (2 ^ 63 - 1) (-2 ^ 63) 0) 0x20412000 4 = some (-1, 0, false) := by decide

theorem test_sub_minus_one_min : run (loaded 2 (-1) (-2 ^ 63) 0) 0x21412000 4 = some (2 ^ 63 - 1, 0, false) := by decide

theorem test_sub_into_source : run (loaded 2 5 3 0) 0x21112000 1 = some (2, 0, false) := by decide

theorem test_inc_minus_one : run (loaded 2 (-1) 0 0) 0x22410000 4 = some (0, 0, false) := by decide

theorem test_dec_min_fails : run (loaded 2 (-2 ^ 63) 0 0) 0x23410000 1 = some (-2 ^ 63, 2, true) := by decide

theorem test_shl_to_min : run (loaded 2 (-1) 63 0) 0x30412000 4 = some (-2 ^ 63, 0, false) := by decide

theorem test_shl_past_width : run (loaded 2 (-1) 64 0) 0x30412000 1 = some (-1, 2, true) := by decide

theorem test_shlw_discards : run (loaded 2 0x7FFFFFFF 33 0) 0x31412000 4 = some (-8589934592, 0, false) := by decide

theorem test_shr_floor : run (loaded 2 (-5) 1 0) 0x32412000 4 = some (-3, 0, false) := by decide

theorem test_shr_past_width : run (loaded 2 (-2 ^ 63) 1000 0) 0x32412000 4 = some (-1, 0, false) := by decide

theorem test_mul_to_min : run (loaded 2 (-2 ^ 62) 2 0) 0x40412000 4 = some (-2 ^ 63, 0, false) := by decide

theorem test_mul_hidden_overflow : run (loaded 2 (2 ^ 32) (2 ^ 32) 0) 0x40412000 1 = some (2 ^ 32, 1, true) := by decide

/-! ## Divide (L2.6) -/

theorem test_div_toward_zero : run (loaded 2 (-7) 2 0) 0x50412000 4 = some (-3, 0, false) := by decide

theorem test_div_min_by_minus_one : run (loaded 2 (-2 ^ 63) (-1) 0) 0x50412000 1 = some (-2 ^ 63, 1, true) := by decide

theorem test_mod_dividend_sign : run (loaded 2 (-7) 2 0) 0x51412000 4 = some (-1, 0, false) := by decide

theorem test_mod_min_by_minus_one : run (loaded 2 (-2 ^ 63) (-1) 0) 0x51412000 4 = some (0, 0, false) := by decide

theorem test_divmod_remainder_into_dividend :
    run (loaded 2 100 7 0) 0x52212100 1 = some (2, 0, false) ∧ run (loaded 2 100 7 0) 0x52212100 2 = some (14, 0, false) := by
  decide

/-- The first row of the Algorithm D table, `C = 4` (95_test_vectors.md L2.6), through the datapath. -/
theorem test_algorithmD_row :
    divideDatapath (2 ^ 100 + 12345) (2 ^ 64 + 7) = (68719476735, 18446743592673226816) := by decide

/-! ## Number theory (L2.7 to L2.9) -/

theorem test_gcd_min : run (loaded 2 (-2 ^ 63) 6 0) 0x60412000 4 = some (2, 0, false) := by decide

theorem test_gcd_min_min_fails : run (loaded 2 (-2 ^ 63) (-2 ^ 63) 0) 0x60412000 4 = some (0, 1, true) := by decide

theorem test_modinv_negative : run (loaded 2 (-3) 7 0) 0x61412000 4 = some (2, 0, false) := by decide

theorem test_modinv_modulus_one : run (loaded 2 5 1 0) 0x61412000 4 = some (0, 0, false) := by decide

theorem test_modpow_negative_base : run (loaded 3 (-3) 3 7) 0x62412300 4 = some (-6, 0, false) := by decide

theorem test_modpow_two_limb_modulus : run (loaded 5 2 100 (2 ^ 32 + 15)) 0x62412300 4 = some (4294913311, 0, false) := by
  decide

theorem test_jacobi_many_steps : run (loaded 2 1001 9907 0) 0x63412000 4 = some (-1, 0, false) := by decide

theorem test_jacobi_one : run (loaded 2 5 1 0) 0x63412000 4 = some (0, 0, false) := by decide

/-! ## Radix (L2.10) -/

theorem test_fmt_negative : runText (loaded 2 (-20) 0 0) 0x7001000A = some [some 0x2D, some 0x32, some 0x30] := by decide

theorem test_fmt_upper_case : runText (loaded 2 255 0 0) 0x70010010 = some [some 0x46, some 0x46] := by decide

/-! ## The bus and resets (L2.12, L2.13) -/

theorem test_read_cap : readAt (loaded 2 0 0 0) 0xC .b32 = some (.data 0x00100002) := by decide

theorem test_read_window :
    readAt (loaded 2 (-20) 0 0) 0x21000 .b32 = some (.data 0xFFFFFFEC) ∧
    readAt (loaded 2 (-20) 0 0) 0x21008 .b32 = some (.data 0) ∧
    readAt (loaded 2 (-20) 0 0) 0x30004 .b32 = some (.data 2) ∧
    readAt (loaded 2 (-20) 0 0) 0x30008 .b32 = some (.data 1) := by decide

theorem test_bus_errors :
    ∀ x ∈ [(0x20, Width.b32), (0x6, .b32), (0x4, .b8), (0x10001, .b16)], acceptedRegion x.1 x.2 = none := by decide

theorem test_text_word : readAt (typed 2 [0x2D, 0x32, 0x30, 0]) 0x10000 .b32 = some (.data 0x0030322D) := by decide

theorem test_status_after_failure :
    (after (step ((loaded 2 (2 ^ 32) 0 0).withFetchWord 32 0x40211000))).map State.statusWord = some 0x12 := by decide

theorem test_write_while_busy :
    (after ((busyWith 0x02200000).hostWrite 0x10 .b32 11)).map (fun t => (t.argLo, t.ovr)) = some (0, true) := by decide

/-- A soft reset abandons NEG V2, V1: V2 is lost, V1 is kept (95_test_vectors.md P6). -/
theorem test_soft_reset_in_flight :
    (after ((busyWith 0x10210000).hostWrite 0x8 .b32 2)).map (fun t => (t.written 2, t.getV 1, t.busy)) =
      some (false, ⟨5, true⟩, false) := by decide

/-! ## Witnesses: states and operands that meet the hypotheses of each statement -/

theorem witness_wellFormed : (Instr.divmod 4 5 1 2).wellFormed = true ∧ (Instr.fmt 15 255).wellFormed = true := by decide

theorem witness_decodes : decode 0x52412500 = some (.divmod 4 5 1 2) := by decide

theorem witness_row_covers : ∃ r ∈ opcodeRows, r.covers 0x20312000 = true := by decide

theorem witness_stepRuns :
    ((loaded 2 5 3 0).withFetchWord 32 0x20312000).latch = some 0x20312000 ∧ decode 0x20312000 = some (.add 3 1 2) ∧
      ((loaded 2 5 3 0).withFetchWord 32 0x20312000).events = .core :: [] := by decide

theorem witness_stepRuns_no_event : (busyWith 0x20312000).latch = some 0x20312000 ∧ (busyWith 0x20312000).events = [] := by
  decide

theorem witness_idle : (loaded 2 5 3 0).latch = none ∧ (loaded 2 5 3 0).events = [] := by decide

theorem witness_illegalWord :
    (State.reset.withFetchWord 32 0).latch = some 0 ∧ decode 0 = none ∧
      (State.reset.withFetchWord 32 0).events = .core :: [] := by decide

theorem witness_written : (loaded 2 5 3 7).written 1 = true ∧ (loaded 2 5 3 7).written 2 = true ∧
    (loaded 2 5 3 7).written 3 = true ∧ (loaded 2 5 3 7).val 1 = 5 ∧ (loaded 2 5 3 7).val 2 = 3 ∧
    (loaded 2 5 3 7).val 3 = 7 := by decide

theorem witness_unwritten : (loaded 2 5 3 7).written 4 = false := by decide

theorem witness_setsAndSetu :
    ((0x8000000000000000 : Int) =
      (({ State.reset with argHi := 0x80000000 } : State).argHi.toNat * 2 ^ 32 + State.reset.argLo.toNat : Nat)) ∧
    (0x80000000 : Word).getLsbD 31 = true ∧ 3 ≤ State.reset.cap := by decide

theorem witness_ldlimbs :
    (∀ x ∈ [1, 2], x < 2 ^ 32) ∧ limbed.limbsAre [1, 2] ∧ limbed.argLo.toNat = [1, 2].length ∧
      [1, 2].length ≤ limbed.cap := by
  refine ⟨by decide, ?_, by decide, by decide⟩
  unfold State.limbsAre
  decide

theorem witness_ldlimbs_none : State.reset.limbsAre [] ∧ State.reset.argLo.toNat = ([] : List Nat).length := by
  refine ⟨?_, by decide⟩
  unfold State.limbsAre
  decide

theorem witness_ldlimbs_too_long : ({ State.reset with cap := 1024, argLo := 1025 } : State).argLo.toNat > 1024 := by decide

theorem witness_parse :
    (typed 2 [0x2D, 0x32, 0x30]).textIs [0x2D, 0x32, 0x30] ∧ (typed 2 [0x2D, 0x32, 0x30]).tlen.toNat = 3 ∧
      IsNumeral (10#8).toNat [0x2D, 0x32, 0x30] (-20) := by
  refine ⟨?_, by decide, [0x2D], [0x32, 0x30], [2, 0], by decide, by decide, by decide, by decide, Or.inr ⟨rfl, by decide⟩⟩
  unfold State.textIs
  decide

theorem witness_parse_radix_36 : IsNumeral (36#8).toNat [0x7A, 0x5A] 1295 :=
  ⟨[], [0x7A, 0x5A], [35, 35], by decide, by decide, by decide, by decide, Or.inl ⟨Or.inl rfl, by decide⟩⟩

theorem witness_parse_not_a_numeral : (typed 2 []).textIs [] ∧ (typed 2 []).tlen.toNat = 0 ∧
    ∀ v, ¬ IsNumeral (2#8).toNat [] v := by
  refine ⟨?_, by decide, ?_⟩
  · unfold State.textIs
    decide
  · rintro v ⟨sign, chars, ds, h, hm, hne, _⟩
    obtain ⟨-, rfl⟩ := List.append_eq_nil_iff.mp h.symm
    exact hne (by simpa using hm.symm)

theorem witness_parse_too_long :
    ({ State.reset with tlen := 65537 } : State).tlen.toNat > 65536 ∧ ¬ (2 ≤ (37#8).toNat ∧ (37#8).toNat ≤ 36) ∧
      ¬ (2 ≤ (1#8).toNat ∧ (1#8).toNat ≤ 36) := by decide

theorem witness_inRange : InRange (loaded 2 (-2 ^ 63) (2 ^ 63 - 1) 0).cap ((loaded 2 (-2 ^ 63) (2 ^ 63 - 1) 0).val 1) ∧
    InRange 2 (2 ^ 63 - 1) ∧ ¬ InRange 2 (2 ^ 63) := by decide

theorem witness_shift_amounts : (loaded 2 (-1) 64 0).val 2 = 64 ∧ (loaded 2 (-1) (-1) 0).val 2 < 0 ∧
    1 ≤ (loaded 2 (-1) 64 0).cap := by decide

theorem witness_div_min : (loaded 2 (-2 ^ 63) (-1) 0).val 1 = minVal 2 ∧ (loaded 2 (-2 ^ 63) (-1) 0).val 2 = -1 ∧
    (4 : RegIx) ≠ 5 := by decide

theorem witness_modinv : (0 : Int) < 7 ∧ Int.gcd 3 7 = 1 ∧ Int.gcd 4 8 ≠ 1 ∧ (0 : Int) < 8 := by decide

theorem witness_modpow : 2 * limbCount (7 : Int).natAbs + 1 ≤ (loaded 3 3 4 7).cap ∧
    2 * limbCount (2 ^ 32 : Int).natAbs + 1 > (loaded 3 2 5 (2 ^ 32)).cap ∧ (loaded 3 7 (-1) 0).val 2 < 0 ∧
    (loaded 3 7 3 0).val 3 = 0 := by decide

theorem witness_jacobi : (3 : Int) ≤ 9907 ∧ (9907 : Int) % 2 = 1 ∧ (loaded 2 1001 9907 0).val 2 = 9907 ∧
    (loaded 2 5 1 0).val 2 = 1 ∧ (loaded 2 3 (-7) 0).val 2 ≤ 0 ∧ (loaded 2 3 4 0).val 2 % 2 = 0 := by decide

/-- The invariant holds in `loaded` states with representable values. -/
theorem inv_loaded {C : Nat} {a b n : Int} (hC : 1 ≤ C ∧ C ≤ 1024) (ha : InRange C a) (hb : InRange C b)
    (hn : InRange C n) : (loaded C a b n).Inv where
  capacity := hC
  base := rfl
  values r := by
    have h0 : InRange C 0 := by
      have : (1 : Int) ≤ 2 ^ (widthOf C - 1) := one_le_pow₀ (by norm_num)
      constructor <;> simp only [minVal, maxVal] <;> omega
    by_cases h3 : r = 3
    · subst h3; simpa [loaded] using hn
    by_cases h2 : r = 2
    · subst h2; simpa [loaded, State.val, State.getV_setV_other] using hb
    by_cases h1 : r = 1
    · subst h1; simpa [loaded, State.val, State.getV_setV_other] using ha
    · have h : (loaded C a b n).getV r = ⟨0, false⟩ := by
        rw [loaded, State.getV_setV_other _ _ h3, State.getV_setV_other _ _ h2, State.getV_setV_other _ _ h1]
        simp [State.getV, State.reset]
      simp only [State.val, h]
      exact h0
  memory := List.Pairwise.nil
  storage := by simp [loaded, State.reset]
  limbs := by simp [lbWhole, loaded, State.reset, Memory.read]
  error := rfl
  sticky := by simp [loaded, State.reset]

theorem witness_inv : (loaded 2 (-2 ^ 63) (2 ^ 63 - 1) 0).Inv :=
  inv_loaded (by decide) (by decide) (by decide) (by decide)

theorem witness_parseOfFmt : (loaded 2 (-2 ^ 63) 0 0).Inv ∧ (loaded 2 (-2 ^ 63) 0 0).written 1 = true ∧
    2 ≤ (36#8).toNat ∧ (36#8).toNat ≤ 36 :=
  ⟨inv_loaded (by decide) (by decide) (by decide) (by decide), by decide, by decide, by decide⟩

theorem witness_exec_next : ∃ t, exec (.add 4 1 2) (loaded 2 5 3 0) = .next t ∧ t.err = 0 := ⟨_, rfl, rfl⟩

theorem witness_exec_fails : ∃ t, exec (.div 4 1 2) (loaded 2 5 0 0) = .next t ∧ t.err ≠ 0 := by
  refine ⟨_, rfl, ?_⟩
  decide

theorem witness_fmt_next : ∃ t, exec (.fmt 1 10) (loaded 2 5 0 0) = .next t ∧ t.err = 0 := ⟨_, rfl, rfl⟩

theorem witness_fmt_fails : ∃ t, exec (.fmt 1 37) (loaded 2 5 0 0) = .next t ∧ t.err ≠ 0 := by
  refine ⟨_, rfl, ?_⟩
  decide

theorem witness_unwritten_source : (4 : RegIx) ∈ (Instr.add 3 4 2).sources ∧ (loaded 2 5 3 0).written 4 = false := by decide

theorem witness_unwritten_byte : ({ State.reset with tlen := 1 } : State).mem.read (tbOffset + 0) = none ∧
    0 < ({ State.reset with tlen := 1 } : State).tlen.toNat ∧
    ({ State.reset with argLo := 1 } : State).argLo.toNat ≤ State.reset.cap ∧
    ({ State.reset with argLo := 1 } : State).mem.read (lbOffset + 4 * 0) = none := by decide

theorem witness_written_sources : ∀ r ∈ (Instr.modpow 4 1 2 3).sources, (loaded 3 3 4 7).written r = true := by decide

theorem witness_step_keeps : ∃ t, (loaded 2 5 3 0).Inv ∧ step (loaded 2 5 3 0) = .next t :=
  ⟨_, inv_loaded (by decide) (by decide) (by decide) (by decide), rfl⟩

theorem witness_register_changes :
    (after (step (busyWith 0x20312000))).map (fun t => decide (t.getV 3 ≠ (busyWith 0x20312000).getV 3)) = some true ∧
    (after (step { loaded 2 5 3 0 with events := [.hwReset] })).map (fun t => decide (t.getV 1 ≠ (loaded 2 5 3 0).getV 1)) =
      some true ∧
    (after (step { busyWith 0x10210000 with events := [.write 0x8 .b32 2] })).map
      (fun t => decide (t.getV 2 ≠ (busyWith 0x10210000).getV 2)) = some true := by decide

theorem witness_faulted : ({ State.reset with faulted := true } : State).faulted = true := by decide

theorem witness_drains : ∀ e ∈ ({ State.reset with events := [.core, .hwReset] } : State).events, e = .core ∨ e = .hwReset := by
  decide

theorem witness_drains_next : ∃ t, Sys2Proof.core.run (State.reset.events.length + 1) State.reset = .next t := ⟨_, rfl⟩

theorem witness_busy_write : (busyWith 0x20312000).busy = true ∧ lbAccess 0x1000 .b32 ∧ lbAccess 0x1FFC .b32 ∧
    tbAccess 0x10000 .b32 ∧ tbAccess 0x1FFFF .b8 ∧ tbAccess 0x1FFFE .b16 := by decide

theorem witness_buffer_read : (lbAccess 0x1000 .b32 ∨ tbAccess 0x1000 .b32 ∧ (busyWith 0x7001000A).inFlightText = false) ∧
    (lbAccess 0x1FFFF .b8 ∨ tbAccess 0x1FFFF .b8 ∧ (busyWith 0x20312000).inFlightText = false) ∧
    (busyWith 0x20312000).busy = true := by decide

theorem witness_buffer_write_read :
    { State.reset with events := [.write 0x1FFFF .b8 7, .read 0x1FFFF .b8] }.latch = none ∧
    { State.reset with events := [.write 0x1FFFF .b8 7, .read 0x1FFFF .b8] }.events =
      .write (State.reset.base + 0x1FFFF) .b8 7 :: .read (State.reset.base + 0x1FFFF) .b8 :: [] ∧
    (lbAccess 0x1FFFF .b8 ∨ tbAccess 0x1FFFF .b8) := by decide

theorem witness_readOnly : (0x3003C : Nat) % 4 = 0 ∧ (0x20000 ≤ 0x3003C ∧ 0x3003C < 0x30040) := by decide

theorem witness_read_next : ∃ t, step { loaded 2 5 3 0 with events := [.read 0x4 .b32] } = .next t := ⟨_, rfl⟩

theorem witness_window : (loaded 2 5 3 0).Inv ∧ (loaded 2 5 3 0).written 1 = true ∧ (1 : RegIx) ∉ (loaded 2 5 3 0).inFlightDests :=
  ⟨inv_loaded (by decide) (by decide) (by decide) (by decide), by decide, by decide⟩

theorem witness_in_flight : (3 : RegIx) ∈ (busyWith 0x20312000).inFlightDests ∧
    (busyWith 0x7001000A).inFlightText = true ∧ tbAccess 0x10001 .b8 := by decide

theorem witness_unwritten_window : (4 : RegIx) ∉ (busyWith 0x20312000).inFlightDests ∧
    (busyWith 0x20312000).written 4 = false ∧ 1 < (busyWith 0x20312000).cap ∧ (busyWith 0x20312000).cap ≤ 2 := by decide

theorem witness_tlen_read : (busyWith 0x20312000).inFlightText = false ∧ (busyWith 0x20312000).busy = true := by decide

theorem witness_not_accepted : acceptedRegion 0x30040 .b32 = none ∧ 0x30040 < windowSize ∧
    acceptedRegion 0x3FFFF .b8 = none ∧ acceptedRegion 0x1C .b32 = none := by decide

theorem witness_outside : State.reset.base + windowSize ≤ 0x40000 := by decide

theorem witness_control : (0x1 : Word).getLsbD 1 = false ∧ (0x1 : Word).getLsbD 0 = true ∧ (0x2 : Word).getLsbD 1 = true ∧
    (0x4 : Word).getLsbD 1 = false ∧ (0x4 : Word).getLsbD 0 = false ∧ (0x3 : Word).getLsbD 1 = true := by decide

theorem witness_shifter : InRange 2 (-2 ^ 63) ∧ 63 < widthOf 2 := by decide

theorem witness_barrett : (1 ≤ 1 ∧ 0 < 1 ^ 2) ∧ 1 ≤ 3233 ∧ 3232 * 3232 < 3233 ^ 2 := by decide

theorem witness_divider : (-9223372036854775808 : Int) ≠ 0 := by decide

end Sys2Proof.Tests
end

section
/-! Representable values (00_scope.md R8, R10): what keeps a value in range, and the results of the commands. -/

namespace Sys2Proof.Machine

/-! ## The range -/

theorem inRange_of_natAbs_lt {C : Nat} {v : Int} (h : v.natAbs < 2 ^ (widthOf C - 1)) : InRange C v := by
  have h' : (v.natAbs : Int) < 2 ^ (widthOf C - 1) := by exact_mod_cast h
  simp only [InRange, minVal, maxVal]
  omega

theorem natAbs_le_of_inRange {C : Nat} {v : Int} (h : InRange C v) : v.natAbs ≤ 2 ^ (widthOf C - 1) := by
  have h' : (v.natAbs : Int) ≤ 2 ^ (widthOf C - 1) := by
    simp only [InRange, minVal, maxVal] at h
    omega
  exact_mod_cast h'

theorem inRange_zero (C : Nat) : InRange C 0 := inRange_of_natAbs_lt (Nat.two_pow_pos _)

/-- At every capacity of the block the range holds -1, 0 and 1 (00_scope.md R5). -/
theorem inRange_of_natAbs_le_one {C : Nat} (hC : 1 ≤ C) {v : Int} (h : v.natAbs ≤ 1) : InRange C v :=
  inRange_of_natAbs_lt (h.trans_lt (Nat.one_lt_two_pow (by unfold widthOf; omega)))

theorem inRange_of_natAbs_lt_natAbs {C : Nat} {v w : Int} (hw : InRange C w) (h : v.natAbs < w.natAbs) : InRange C v :=
  inRange_of_natAbs_lt (h.trans_le (natAbs_le_of_inRange hw))

theorem inRange_of_nonneg_of_le {C : Nat} {v w : Int} (hw : InRange C w) (h0 : 0 ≤ v) (h : v ≤ w) : InRange C v :=
  ⟨(inRange_zero C).1.trans h0, h.trans hw.2⟩

theorem inRange_neg {C : Nat} {v : Int} (hv : InRange C v) (h : v ≠ minVal C) : InRange C (-v) := by
  simp only [InRange, minVal, maxVal] at *
  omega

/-- Rounding down never leaves the range. -/
theorem inRange_ediv_two_pow {C : Nat} {v : Int} (hv : InRange C v) (n : Nat) : InRange C (v / 2 ^ n) := by
  have hn : (1 : Int) ≤ 2 ^ n := one_le_pow₀ (by norm_num)
  rcases le_or_gt 0 v with h | h
  · exact inRange_of_nonneg_of_le hv (Int.ediv_nonneg h (by omega)) (Int.ediv_le_self _ h)
  · have hlow : v ≤ v / 2 ^ n := by
      rw [Int.le_ediv_iff_mul_le (by omega)]
      nlinarith
    have hhigh : v / 2 ^ n < 0 := Int.ediv_neg_of_neg_of_pos h (by omega)
    exact ⟨hv.1.trans hlow, hhigh.le.trans (inRange_zero C).2⟩

theorem two_pow_widthOf {C : Nat} (hC : 1 ≤ C) : 2 ^ widthOf C = 2 * 2 ^ (widthOf C - 1) := by
  rw [← Nat.pow_succ', Nat.succ_eq_add_one, Nat.sub_add_cancel (by unfold widthOf; omega)]

/-- The value of a W-bit pattern is representable (00_scope.md R8). -/
theorem inRange_valOf {C p : Nat} (hC : 1 ≤ C) (hp : p < 2 ^ widthOf C) : InRange C (valOf C p) := by
  have hW : widthOf C - 1 + 1 = widthOf C := Nat.sub_add_cancel (by unfold widthOf; omega)
  have h2 : (2 : Int) ^ widthOf C = 2 * 2 ^ (widthOf C - 1) := by exact_mod_cast two_pow_widthOf hC
  have hp' : (p : Int) < 2 ^ widthOf C := by exact_mod_cast hp
  rcases lt_or_ge p (2 ^ (widthOf C - 1)) with h | h
  · have hs : signBit C p = false := Nat.testBit_lt_two_pow h
    rw [valOf, hs]
    exact inRange_of_natAbs_lt h
  · have hs : signBit C p = true := Nat.testBit_of_two_pow_le_and_two_pow_add_one_gt h (by rwa [hW])
    have h' : (2 : Int) ^ (widthOf C - 1) ≤ p := by exact_mod_cast h
    rw [valOf, hs]
    simp only [InRange, minVal, maxVal, if_true]
    omega

theorem enc_lt (C : Nat) (v : Int) : enc C v < 2 ^ widthOf C := by
  have hpos : (0 : Int) < 2 ^ widthOf C := by positivity
  have h0 := Int.emod_nonneg v hpos.ne'
  have h1 := Int.emod_lt_of_pos v hpos
  rw [enc, ← Int.ofNat_lt, Int.toNat_of_nonneg h0]
  exact_mod_cast h1

/-! ## Results -/

/-- A result that is no error is a representable value. -/
def Representable (C : Nat) (r : Except ErrorKind Int) : Prop := ∀ x, r = .ok x → InRange C x

theorem representable_error {C : Nat} (e : ErrorKind) : Representable C (.error e) := fun _ h => by cases h

theorem representable_ok {C : Nat} {x : Int} (h : InRange C x) : Representable C (.ok x) := fun _ e => by cases e; exact h

theorem representable_fit (C : Nat) (v : Int) : Representable C (fit C v) := fun _ h => by
  obtain ⟨rfl, hv⟩ := fit_eq_ok.mp h
  exact hv

theorem representable_fitO (C : Nat) (v : Int) : Representable C (fitO C v) := fun _ h => by
  obtain ⟨rfl, hv⟩ := fitO_eq_ok.mp h
  exact hv

theorem representable_bind_fit (C : Nat) (r : Except ErrorKind Int) : Representable C (r.bind (fit C)) := by
  cases r with
  | error e => exact representable_error e
  | ok v => exact representable_fit C v

theorem representable_truth {C : Nat} (hC : 1 ≤ C) (b : Bool) : Representable C (.ok (truth b)) :=
  representable_ok (inRange_of_natAbs_le_one hC (by cases b <;> decide))

theorem negResult_representable {C : Nat} {a : Int} (ha : InRange C a) : Representable C (negResult C a) := by
  unfold negResult
  split
  · exact representable_error _
  · exact representable_ok (inRange_neg ha ‹_›)

theorem absResult_representable {C : Nat} {a : Int} (ha : InRange C a) : Representable C (absResult C a) := by
  unfold absResult
  split
  · exact representable_error _
  · next h =>
    refine representable_ok ?_
    rcases Int.natAbs_eq a with e | e
    · rwa [← e]
    · rw [show (a.natAbs : Int) = -a by omega]
      exact inRange_neg ha h

theorem shlResult_representable (C : Nat) (a n : Int) : Representable C (shlResult C a n) := by
  unfold shlResult
  split_ifs
  · exact representable_error _
  · exact representable_ok (inRange_zero C)
  · exact representable_error _
  · exact representable_error _
  · exact representable_fit C _

theorem shlwResult_representable {C : Nat} (hC : 1 ≤ C) (a n : Int) : Representable C (shlwResult C a n) := by
  unfold shlwResult
  split_ifs
  · exact representable_error _
  · exact representable_ok (inRange_zero C)
  · exact representable_ok (inRange_valOf hC (Nat.mod_lt _ (Nat.two_pow_pos _)))

theorem shrResult_representable {C : Nat} (hC : 1 ≤ C) {a : Int} (ha : InRange C a) (n : Int) :
    Representable C (shrResult C a n) := by
  unfold shrResult
  split_ifs
  · exact representable_error _
  · exact representable_ok (inRange_of_natAbs_le_one hC (by decide))
  · exact representable_ok (inRange_zero C)
  · exact representable_ok (inRange_ediv_two_pow ha _)

/-! ### Division -/

theorem natAbs_trem_lt (a : Int) {b : Int} (hb : b ≠ 0) : (trem a b).natAbs < b.natAbs := by
  rw [trem_eq_tmod, Int.natAbs_tmod]
  exact Nat.mod_lt _ (Int.natAbs_pos.mpr hb)

theorem inRange_trem {C : Nat} (a : Int) {b : Int} (hb : InRange C b) (h0 : b ≠ 0) : InRange C (trem a b) :=
  inRange_of_natAbs_lt_natAbs hb (natAbs_trem_lt a h0)

theorem divResult_representable (C : Nat) (a b : Int) : Representable C (divResult C a b) := by
  unfold divResult
  split
  · exact representable_error _
  · exact representable_fit C _

theorem modResult_representable {C : Nat} (a : Int) {b : Int} (hb : InRange C b) : Representable C (modResult C a b) := by
  unfold modResult
  split
  · exact representable_error _
  · exact representable_ok (inRange_trem a hb ‹_›)

/-- DIVMOD's quotient comes with a divisor that is not 0. -/
theorem divResult_ok_ne_zero {C : Nat} {a b q : Int} (h : divResult C a b = .ok q) : b ≠ 0 := by
  rintro rfl
  simp [divResult] at h

/-! ### MODINV, JACOBI, MODPOW -/

/-- The coefficients of the extended Euclidean loop are remainders by the modulus (46_gcd_inverse.md R166). -/
theorem natAbs_euclidLoop_le {m : Int} (hm : 0 < m) (fuel : Nat) (r0 r1 p0 p1 : Int) (h0 : p0.natAbs ≤ m.natAbs)
    (h1 : p1.natAbs ≤ m.natAbs) : (euclidLoop m fuel r0 r1 p0 p1).2.natAbs ≤ m.natAbs := by
  induction fuel generalizing r0 r1 p0 p1 with
  | zero => exact h0
  | succ fuel ih =>
    unfold euclidLoop
    split
    · exact h0
    · exact ih _ _ _ _ h1 (natAbs_trem_lt _ hm.ne').le

theorem natAbs_extendedEuclid_le (a : Int) {m : Int} (hm : 0 < m) : (extendedEuclid a m).2.natAbs ≤ m.natAbs :=
  natAbs_euclidLoop_le hm _ _ _ _ _ (Nat.zero_le _) (Int.natAbs_pos.mpr hm.ne')

theorem modInvResult_representable {C : Nat} (a : Int) {m : Int} (hm : InRange C m) :
    Representable C (modInvResult C a m) := by
  unfold modInvResult
  split_ifs with hpos
  · exact representable_error _
  · exact representable_error _
  all_goals
    have hle := natAbs_extendedEuclid_le a (not_le.mp hpos)
    exact representable_ok (inRange_of_nonneg_of_le hm (by omega) (by omega))

/-- Each way out of the recursion is 0, 1, a sign, or a sign times the value of the inner call (48_jacobi.md R184). -/
theorem natAbs_jacobiRec_le_one (fuel : Nat) (a : Int) (b : Nat) : (jacobiRec fuel a b).natAbs ≤ 1 := by
  induction fuel generalizing a b with
  | zero => exact Nat.zero_le 1
  | succ fuel ih =>
    unfold jacobiRec
    dsimp only
    split_ifs <;> simp [ih]

theorem jacobiResult_representable {C : Nat} (hC : 1 ≤ C) (a b : Int) : Representable C (jacobiResult C a b) := by
  unfold jacobiResult
  split
  · exact representable_error _
  · exact representable_ok (inRange_of_natAbs_le_one hC (natAbs_jacobiRec_le_one _ _ _))

theorem subtractWhile_lt {N : Nat} (fuel r : Nat) (h : r < (fuel + 1) * N) : subtractWhile N fuel r < N := by
  induction fuel generalizing r with
  | zero => simpa [subtractWhile] using h
  | succ fuel ih =>
    unfold subtractWhile
    split
    · refine ih _ ?_
      rw [Nat.add_mul (fuel + 1), Nat.one_mul] at h
      omega
    · omega

/-- The last loop of BarrettReduce ends below the modulus, whatever it starts from (47_modpow.md R172). -/
theorem barrettReduce_lt {N : Nat} (hN : 0 < N) (k mu x : Nat) : barrettReduce N k mu x < N := by
  unfold barrettReduce
  exact subtractWhile_lt _ _ (by rw [Nat.add_mul, Nat.one_mul]; exact Nat.lt_div_mul_add hN)

theorem powLoop_lt {N : Nat} (hN : 0 < N) (k mu e n i : Nat) {result : Nat} (base : Nat) (h : result < N) :
    powLoop N k mu e n i result base < N := by
  induction n generalizing i result base with
  | zero => exact h
  | succ n ih =>
    have hnext : (if e.testBit i then barrettReduce N k mu (result * base) else result) < N := by
      split
      · exact barrettReduce_lt hN _ _ _
      · exact h
    unfold powLoop
    dsimp only
    split
    · exact hnext
    · exact ih _ _ hnext

theorem powMagnitude_lt {N : Nat} (hN : 0 < N) (a e : Nat) : powMagnitude a e N < N :=
  powLoop_lt hN _ _ _ _ _ _ (Nat.mod_lt _ hN)

theorem modPowResult_representable {C : Nat} (a e : Int) {n : Int} (hn : InRange C n) :
    Representable C (modPowResult C a e n) := by
  unfold modPowResult
  split_ifs with _ h0
  · exact representable_error _
  · exact representable_error _
  · exact representable_error _
  all_goals
    have hlt := powMagnitude_lt (Int.natAbs_pos.mpr h0) a.natAbs e.toNat
    exact representable_ok (inRange_of_natAbs_lt_natAbs hn (by omega))

/-! ### LDLIMBS -/

theorem joinLimbs_lt (xs : List Nat) {p b : Nat} (hp : p < 2 ^ b) (hxs : ∀ x ∈ xs, x < 2 ^ 32) :
    joinLimbs p xs < 2 ^ (b + 32 * xs.length) := by
  induction xs generalizing p b with
  | nil => exact hp
  | cons x xs ih =>
    obtain ⟨hx, hxs⟩ := List.forall_mem_cons.mp hxs
    have hstep : p * 2 ^ 32 + x < 2 ^ (b + 32) := by
      rw [Nat.pow_add]
      omega
    have h := ih hstep hxs
    rwa [show b + 32 + 32 * xs.length = b + 32 * (x :: xs).length by simp only [List.length_cons]; omega] at h

theorem State.readLimb_lt (s : State) (j : Nat) : (s.readLimb j).1 < 2 ^ 32 := by
  have h := ofBytes_lt (s.readBytes (lbOffset + 4 * j) 4).1
  rw [State.readBytes_length] at h
  exact h

theorem State.readLimbs_lt (s : State) (j n : Nat) : ∀ x ∈ (s.readLimbs j n).1, x < 2 ^ 32 := by
  induction n generalizing s j with
  | zero => exact fun _ h => absurd h List.not_mem_nil
  | succ n ih => exact List.forall_mem_cons.mpr ⟨s.readLimb_lt j, ih _ _⟩

theorem State.readLimbs_length (s : State) (j n : Nat) : (s.readLimbs j n).1.length = n := by
  induction n generalizing s j with
  | zero => rfl
  | succ n ih => exact congrArg Nat.succ (ih _ _)

/-- As many limbs as the capacity make a W-bit pattern (40_construction.md R103). -/
theorem State.joinLimbs_readLimbs_lt (s : State) {C n : Nat} (h : n ≤ C) :
    joinLimbs 0 (s.readLimbs 0 n).1 < 2 ^ widthOf C := by
  refine (joinLimbs_lt _ (b := 0) Nat.one_pos (s.readLimbs_lt 0 n)).trans_le (Nat.pow_le_pow_right Nat.two_pos ?_)
  rw [State.readLimbs_length, widthOf]
  omega

/-! ### FMT -/

/-- A magnitude below `2^L` has at most `L` digits, in every radix (49_radix.md R189). -/
theorem length_formatDigits_le {radix : Nat} (hr : 2 ≤ radix) (fuel : Nat) {m L : Nat} (hm : m < 2 ^ L) (cs : List Byte) :
    (formatDigits radix fuel m cs).length ≤ cs.length + L := by
  induction fuel generalizing m L cs with
  | zero => exact Nat.le_add_right _ _
  | succ fuel ih =>
    unfold formatDigits
    split
    · exact Nat.le_add_right _ _
    · next h0 =>
      cases L with
      | zero => exact absurd (Nat.lt_one_iff.mp hm) h0
      | succ L =>
        have hdiv : m / radix < 2 ^ L := Nat.div_lt_of_lt_mul (by
          rw [Nat.pow_succ'] at hm
          exact hm.trans_le (Nat.mul_le_mul_right _ hr))
        have := ih hdiv (charOf (m % radix) :: cs)
        simp only [List.length_cons] at this
        omega

/-- The string of a representable value fits the text buffer at every capacity (49_radix.md R189, 00_scope.md R5). -/
theorem length_formatValue_le {C radix : Nat} (hC : 1 ≤ C ∧ C ≤ 1024) (hr : 2 ≤ radix) {a : Int} (ha : InRange C a) :
    (formatValue radix a).length ≤ tbSize := by
  have hm : a.natAbs < 2 ^ widthOf C :=
    (natAbs_le_of_inRange ha).trans_lt (Nat.pow_lt_pow_right Nat.one_lt_two (by unfold widthOf; omega))
  have hdigits := length_formatDigits_le hr a.natAbs hm []
  unfold formatValue tbSize
  unfold widthOf at hdigits
  split_ifs <;> simp only [List.length_cons, List.length_nil] at hdigits ⊢ <;> omega

end Sys2Proof.Machine
end

section
/-! The storage of LB and TB: the part of the invariant that is about memory, and the writes that keep it. -/

namespace Sys2Proof.Machine

/-- The memory clauses of the invariant: canonical form, storage in LB and TB alone, limbs written whole (20_memory.md
R46, R53). -/
structure Memory.Sound (m : Memory) : Prop where
  wf : m.wf
  storage : ∀ c ∈ m, bufferOffset c.1 = true
  limbs : lbWhole m

theorem State.Inv.sound {s : State} (h : s.Inv) : s.mem.Sound := ⟨h.memory, h.storage, h.limbs⟩

theorem Memory.sound_nil : Memory.Sound [] :=
  ⟨List.Pairwise.nil, fun _ h => absurd h List.not_mem_nil, fun _ _ _ _ => rfl⟩

/-- Whether limbs are whole depends on the bytes of LB alone. -/
theorem lbWhole_congr {m m' : Memory} (h : ∀ a, 0x1000 ≤ a → a < 0x2000 → m'.read a = m.read a) (hm : lbWhole m) :
    lbWhole m' := by
  intro j hj k hk
  unfold lbOffset
  rw [h _ (by omega) (by omega), h _ (by omega) (by omega)]
  exact hm j hj k hk

theorem Memory.isSome_read_writeBytes (m : Memory) (x a : Nat) (bs : List Byte) :
    ((m.writeBytes x bs).read a).isSome = if x ≤ a ∧ a < x + bs.length then true else (m.read a).isSome := by
  split
  · next h =>
    obtain ⟨j, rfl⟩ := Nat.exists_eq_add_of_le h.1
    rw [Memory.read_writeBytes_same _ _ _ _ (by omega)]
    rfl
  · rw [Memory.read_writeBytes_other _ _ _ _ (by omega)]

theorem Memory.storage_writeBytes {m : Memory} (h : ∀ c ∈ m, bufferOffset c.1 = true) {x : Nat} {bs : List Byte}
    (hx : ∀ a, x ≤ a → a < x + bs.length → bufferOffset a = true) : ∀ c ∈ m.writeBytes x bs, bufferOffset c.1 = true := by
  intro c hc
  rcases Memory.mem_writeBytes hc with ⟨h1, h2⟩ | hc
  · exact hx _ h1 h2
  · exact h c hc

/-- A whole limb is written to LB (20_memory.md R53, R54). -/
theorem Memory.Sound.write_limb {m : Memory} (h : m.Sound) {x : Nat} {w : Width} (hx : lbAccess x w) {bs : List Byte}
    (hbs : bs.length = 4) : (m.writeBytes x bs).Sound where
  wf := Memory.wf_writeBytes h.wf x bs
  storage := Memory.storage_writeBytes h.storage fun a _ _ => by
    obtain ⟨_, halign, hlo, hhi⟩ := hx
    simp only [bufferOffset, Bool.or_eq_true, decide_eq_true_eq]
    omega
  limbs j hj k hk := by
    obtain ⟨_, halign, hlo, hhi⟩ := hx
    have hwhole : x ≤ lbOffset + 4 * j + k ∧ lbOffset + 4 * j + k < x + bs.length ↔
        x ≤ lbOffset + 4 * j ∧ lbOffset + 4 * j < x + bs.length := by
      unfold lbOffset
      omega
    simp only [Memory.isSome_read_writeBytes, hwhole, h.limbs j hj k hk]

/-- Bytes are written to TB. -/
theorem Memory.Sound.write_text {m : Memory} (h : m.Sound) {x : Nat} {bs : List Byte} (hlo : 0x10000 ≤ x)
    (hhi : x + bs.length ≤ 0x20000) : (m.writeBytes x bs).Sound where
  wf := Memory.wf_writeBytes h.wf x bs
  storage := Memory.storage_writeBytes h.storage fun a _ _ => by
    simp only [bufferOffset, Bool.or_eq_true, decide_eq_true_eq]
    omega
  limbs := lbWhole_congr (fun a _ _ => Memory.read_writeBytes_other _ _ _ _ (by omega)) h.limbs

/-- All of TB becomes unwritten (70_reset_and_hazards.md R227). -/
theorem Memory.Sound.erase_text {m : Memory} (h : m.Sound) : (m.erase tbOffset (tbOffset + tbSize)).Sound where
  wf := Memory.wf_erase h.wf _ _
  storage c hc := h.storage c (List.mem_of_mem_filter hc)
  limbs := lbWhole_congr (fun a _ _ => Memory.read_erase_outside _ (by unfold tbOffset; omega)) h.limbs

end Sys2Proof.Machine
end

section
/-! The invariant under each operation of the state. -/

namespace Sys2Proof.Machine

open Host (Outcome)

/-- The invariant, with its memory clauses together. -/
theorem State.Inv.set_mem {s : State} (h : s.Inv) {m : Memory} (hm : m.Sound) : ({ s with mem := m } : State).Inv :=
  { h with memory := hm.wf, storage := hm.storage, limbs := hm.limbs }

/-! ## Value registers -/

theorem State.Inv.setV {s : State} (h : s.Inv) (r : RegIx) {x : Int} (hx : InRange s.cap x) : (s.setV r x).Inv :=
  { h with
    values := fun q => by
      by_cases hq : q = r
      · subst hq
        simpa using hx
      · simpa only [State.val, State.getV_setV_other s x hq, State.setV_cap] using h.values q }

theorem State.Inv.setRegs {s : State} (h : s.Inv) (ws : List (RegIx × Int)) (hws : ∀ p ∈ ws, InRange s.cap p.2) :
    (s.setRegs ws).Inv := by
  induction ws generalizing s with
  | nil => exact h
  | cons p ws ih =>
    obtain ⟨hp, hws⟩ := List.forall_mem_cons.mp hws
    exact ih (h.setV p.1 hp) hws

theorem State.Inv.unwriteRegs {s : State} (h : s.Inv) (rs : List RegIx) : (s.unwriteRegs rs).Inv := by
  have hvalues : ∀ q, InRange s.cap ((s.unwriteRegs rs).val q) := fun q => by
    rw [State.val, State.getV_unwriteRegs]
    split
    · exact inRange_zero s.cap
    · exact h.values q
  obtain ⟨v, hv⟩ := s.unwriteRegs_eq rs
  rw [hv] at hvalues ⊢
  exact { h with values := hvalues }

/-! ## Operands -/

theorem State.Inv.drawn {s : State} (h : s.Inv) (d : Nat) (f : Bool) : (s.drawn d f).Inv := { h with }

/-- What reading operands leaves meets the invariant, at the same capacity. -/
theorem State.Inv.of_drawn {s s' : State} (h : s.Inv) (hs : ∃ d f, s' = s.drawn d f ∧ (s.faulted = true → f = true)) :
    s'.Inv ∧ s'.cap = s.cap := by
  obtain ⟨d, f, rfl, _⟩ := hs
  exact ⟨h.drawn d f, rfl⟩

theorem State.Inv.readV {s : State} (h : s.Inv) (r : RegIx) : (s.readV r).2.Inv := (h.of_drawn (s.readV_drawn r)).1

@[simp] theorem State.readV_cap (s : State) (r : RegIx) : (s.readV r).2.cap = s.cap := by
  obtain ⟨d, f, h, _⟩ := s.readV_drawn r
  rw [h, State.drawn_cap]

/-- A command reads a representable value from every register, also from an unwritten one (00_scope.md R10, 10_state.md
R41). -/
theorem State.Inv.inRange_readV {s : State} (h : s.Inv) (r : RegIx) : InRange s.cap (s.readV r).1 := by
  cases hw : s.written r with
  | true =>
    rw [State.readV_written hw]
    exact h.values r
  | false =>
    rw [State.readV_unwritten hw]
    exact inRange_valOf h.capacity.1 (Nat.mod_lt _ (Nat.two_pow_pos _))

/-! ## Completing -/

theorem ErrorKind.legalErr_code (e : ErrorKind) : legalErr e.code = true := by cases e <;> decide

theorem State.Inv.raise {s : State} (h : s.Inv) (e : ErrorKind) : (s.raise e).Inv :=
  { h with error := e.legalErr_code, sticky := fun _ => rfl }

theorem State.Inv.succeed {s : State} (h : s.Inv) : s.succeed.Inv :=
  { h with error := rfl, sticky := fun h0 => absurd rfl h0 }

theorem State.Inv.setText {s : State} (h : s.Inv) {bs : List Byte} (hbs : bs.length ≤ tbSize) : (s.setText bs).Inv :=
  { h.set_mem (h.sound.write_text (le_refl tbOffset) (Nat.add_le_add_left hbs tbOffset)) with }

/-- What a command may write at capacity `C`: representable values, and a text that TB holds. -/
structure Writes.Fits (C : Nat) (w : Writes) : Prop where
  regs : ∀ p ∈ w.regs, InRange C p.2
  text : ∀ bs, w.text = some bs → bs.length ≤ tbSize

theorem Writes.fits_reg {C : Nat} (rd : RegIx) {x : Int} (h : InRange C x) : (Writes.reg rd x).Fits C where
  regs := by simpa [Writes.reg] using h
  text _ e := by cases e

theorem State.Inv.commit {s : State} (h : s.Inv) {w : Writes} (hw : w.Fits s.cap) : (s.commit w).Inv := by
  have hregs := h.setRegs w.regs hw.regs
  unfold State.commit
  split
  · exact hregs.succeed
  · exact (hregs.setText (hw.text _ ‹_›)).succeed

/-! ## Commands -/

/-- If the outcome is a next state, that state meets the invariant. -/
def Kept (o : Outcome State Fault Refusal) : Prop := ∀ t, o = .next t → t.Inv

theorem kept_next {t : State} (h : t.Inv) : Kept (.next t) := fun _ e => by cases e; exact h

theorem kept_fault (r : Fault) : Kept (.fault r) := fun _ e => by cases e

theorem kept_refused (r : Refusal) : Kept (.refused r) := fun _ e => by cases e

theorem State.Inv.kept_finish {s : State} (h : s.Inv) {r : Except ErrorKind Writes} (hr : ∀ w, r = .ok w → w.Fits s.cap) :
    Kept (s.finish r) := by
  refine kept_next ?_
  rcases s.complete_cases r with ⟨w, hw, e⟩ | ⟨k, _, e⟩ <;> rw [e]
  · exact h.commit (hr w hw)
  · exact h.raise k

theorem State.Inv.kept_fail {s : State} (h : s.Inv) (e : ErrorKind) : Kept (s.finish (.error e)) :=
  h.kept_finish fun _ hw => by cases hw

theorem State.Inv.kept_runNullary {s : State} (h : s.Inv) {rd : RegIx} {r : Except ErrorKind Int}
    (hr : Representable s.cap r) : Kept (s.runNullary rd r) :=
  h.kept_finish fun w hw => by
    cases r with
    | error e => cases hw
    | ok x =>
      cases hw
      exact Writes.fits_reg rd (hr x rfl)

theorem State.Inv.kept_runUnary {s : State} (h : s.Inv) {f : Nat → Int → Except ErrorKind Int} {rd ra : RegIx}
    (hf : ∀ a, InRange s.cap a → Representable s.cap (f s.cap a)) : Kept (s.runUnary f rd ra) := by
  refine (h.readV ra).kept_runNullary ?_
  rw [State.readV_cap]
  exact hf _ (h.inRange_readV ra)

theorem State.Inv.kept_runBinary {s : State} (h : s.Inv) {f : Nat → Int → Int → Except ErrorKind Int} {rd ra rb : RegIx}
    (hf : ∀ a b, InRange s.cap a → InRange s.cap b → Representable s.cap (f s.cap a b)) :
    Kept (s.runBinary f rd ra rb) := by
  have hb := (h.readV ra).inRange_readV rb
  refine ((h.readV ra).readV rb).kept_runNullary ?_
  rw [State.readV_cap] at hb
  rw [State.readV_cap, State.readV_cap]
  exact hf _ _ (h.inRange_readV ra) hb

theorem State.Inv.kept_runTernary {s : State} (h : s.Inv) {f : Nat → Int → Int → Int → Except ErrorKind Int}
    {rd ra rb rc : RegIx}
    (hf : ∀ a b c, InRange s.cap a → InRange s.cap b → InRange s.cap c → Representable s.cap (f s.cap a b c)) :
    Kept (s.runTernary f rd ra rb rc) := by
  have hb := (h.readV ra).inRange_readV rb
  have hc := ((h.readV ra).readV rb).inRange_readV rc
  refine (((h.readV ra).readV rb).readV rc).kept_runNullary ?_
  rw [State.readV_cap] at hb
  rw [State.readV_cap, State.readV_cap] at hc
  rw [State.readV_cap, State.readV_cap, State.readV_cap]
  exact hf _ _ _ (h.inRange_readV ra) hb hc

theorem execLdlimbs_kept {s : State} (h : s.Inv) (rd : RegIx) : Kept (execLdlimbs rd s) := by
  unfold execLdlimbs
  split
  · exact h.kept_fail _
  · next hn =>
    obtain ⟨hinv, hcap⟩ := h.of_drawn (s.readLimbs_drawn 0 s.argLo.toNat)
    refine hinv.kept_runNullary (representable_ok ?_)
    rw [hcap]
    exact inRange_valOf h.capacity.1 (s.joinLimbs_readLimbs_lt (not_lt.mp hn))

theorem execParse_kept {s : State} (h : s.Inv) (rd : RegIx) (imm : BitVec 8) : Kept (execParse rd imm s) := by
  unfold execParse
  split
  · exact h.kept_fail _
  · split
    · exact h.kept_fail _
    · obtain ⟨hinv, hcap⟩ := h.of_drawn (s.readBytes_drawn tbOffset s.tlen.toNat)
      refine hinv.kept_runNullary ?_
      rw [hcap]
      exact representable_bind_fit s.cap _

theorem execDivmod_kept {s : State} (h : s.Inv) (rd rc ra rb : RegIx) : Kept (execDivmod rd rc ra rb s) := by
  unfold execDivmod
  split
  · exact h.kept_fail _
  · have hb := (h.readV ra).inRange_readV rb
    refine ((h.readV ra).readV rb).kept_finish fun w hw => ?_
    rw [State.readV_cap] at hb
    rw [State.readV_cap, State.readV_cap]
    cases hq : divResult s.cap (s.readV ra).1 ((s.readV ra).2.readV rb).1 with
    | error e =>
      rw [hq] at hw
      cases hw
    | ok q =>
      rw [hq] at hw
      cases hw
      refine ⟨?_, fun _ e => by cases e⟩
      simpa using And.intro (divResult_representable _ _ _ q hq) (inRange_trem _ hb (divResult_ok_ne_zero hq))

theorem execFmt_kept {s : State} (h : s.Inv) (ra : RegIx) (imm : BitVec 8) : Kept (execFmt ra imm s) := by
  unfold execFmt
  dsimp only
  split
  · exact (h.readV ra).kept_fail _
  · next hradix =>
    refine (h.readV ra).kept_finish fun w hw => ?_
    cases hw
    refine ⟨fun _ hp => absurd hp List.not_mem_nil, fun bs hbs => ?_⟩
    cases hbs
    have hr : 2 ≤ imm.toNat := by
      simp only [radixOk, Bool.and_eq_true, decide_eq_true_eq] at hradix
      omega
    exact length_formatValue_le h.capacity hr (h.inRange_readV ra)

/-- Every command keeps the invariant. -/
theorem exec_kept {s : State} (h : s.Inv) (i : Instr) : Kept (exec i s) := by
  have hC := h.capacity.1
  unfold exec
  cases i with
  | mov => exact h.kept_runUnary fun _ ha => representable_ok ha
  | sets => exact h.kept_runNullary (representable_fit _ _)
  | setu => exact h.kept_runNullary (representable_fit _ _)
  | ldlimbs rd => exact execLdlimbs_kept h rd
  | parse rd imm => exact execParse_kept h rd imm
  | neg => exact h.kept_runUnary fun _ ha => negResult_representable ha
  | abs => exact h.kept_runUnary fun _ ha => absResult_representable ha
  | cmpeq => exact h.kept_runBinary fun _ _ _ _ => representable_truth hC _
  | cmpne => exact h.kept_runBinary fun _ _ _ _ => representable_truth hC _
  | cmplt => exact h.kept_runBinary fun _ _ _ _ => representable_truth hC _
  | cmpgt => exact h.kept_runBinary fun _ _ _ _ => representable_truth hC _
  | cmple => exact h.kept_runBinary fun _ _ _ _ => representable_truth hC _
  | cmpge => exact h.kept_runBinary fun _ _ _ _ => representable_truth hC _
  | min => exact h.kept_runBinary fun _ _ ha hb => representable_ok (by split <;> assumption)
  | max => exact h.kept_runBinary fun _ _ ha hb => representable_ok (by split <;> assumption)
  | add => exact h.kept_runBinary fun _ _ _ _ => representable_fit _ _
  | sub => exact h.kept_runBinary fun _ _ _ _ => representable_fit _ _
  | inc => exact h.kept_runUnary fun _ _ => representable_fit _ _
  | dec => exact h.kept_runUnary fun _ _ => representable_fit _ _
  | shl => exact h.kept_runBinary fun _ _ _ _ => shlResult_representable _ _ _
  | shlw => exact h.kept_runBinary fun _ _ _ _ => shlwResult_representable hC _ _
  | shr => exact h.kept_runBinary fun _ _ ha _ => shrResult_representable hC ha _
  | mul => exact h.kept_runBinary fun _ _ _ _ => representable_fitO _ _
  | div => exact h.kept_runBinary fun _ _ _ _ => divResult_representable _ _ _
  | mod => exact h.kept_runBinary fun _ _ _ hb => modResult_representable _ hb
  | divmod rd rc ra rb => exact execDivmod_kept h rd rc ra rb
  | gcd => exact h.kept_runBinary fun _ _ _ _ => representable_fit _ _
  | modinv => exact h.kept_runBinary fun _ _ _ hm => modInvResult_representable _ hm
  | modpow => exact h.kept_runTernary fun _ _ _ _ _ hn => modPowResult_representable _ _ hn
  | jacobi => exact h.kept_runBinary fun _ _ _ _ => jacobiResult_representable hC _ _
  | fmt ra imm => exact execFmt_kept h ra imm

/-! ## Steps -/

theorem State.Inv.kept_coreStep {s : State} (h : s.Inv) : Kept s.coreStep := by
  unfold State.coreStep
  split
  · exact kept_next h
  · next w _ =>
    rcases s.completeWord_cases w with ⟨i, _, e⟩ | ⟨_, e⟩ <;> rw [e]
    · exact exec_kept h i
    · exact kept_next (h.raise _)

theorem State.Inv.hwReset {s : State} (h : s.Inv) : s.hwReset.Inv :=
  { h.set_mem Memory.sound_nil with
    values := fun r => by
      rw [State.val, State.hwReset_getV]
      exact inRange_zero s.cap
    error := rfl
    sticky := fun h0 => absurd rfl h0 }

theorem State.Inv.resetControl {s : State} (h : s.Inv) : s.resetControl.Inv :=
  { h with error := rfl, sticky := fun h0 => absurd rfl h0 }

theorem State.Inv.clearStatus {s : State} (h : s.Inv) : s.clearStatus.Inv :=
  { h with error := rfl, sticky := fun h0 => absurd rfl h0 }

theorem State.Inv.abort {s : State} (h : s.Inv) : s.abort.Inv := by
  have hregs := h.unwriteRegs s.inFlightDests
  unfold State.abort
  dsimp only
  split
  · exact hregs.set_mem hregs.sound.erase_text
  · exact hregs

theorem State.Inv.writeCtrl {s : State} (h : s.Inv) (v : Word) : (s.writeCtrl v).Inv := by
  unfold State.writeCtrl
  split_ifs
  · exact h.abort.resetControl
  · exact h.clearStatus
  · exact h

theorem State.Inv.guarded {s t : State} (h : s.Inv) (ht : t.Inv) : (s.guarded t).Inv := by
  unfold State.guarded
  split
  · exact { h with }
  · exact ht

theorem acceptedRegion_eq_some {off : Nat} {w : Width} {r : Region} :
    acceptedRegion off w = some r ↔ regionAt off = some r ∧ r.accepts w = true ∧ off % w.bytes = 0 := by
  unfold acceptedRegion
  split
  · next e => simp [e]
  · next q e =>
    rw [e, Option.ite_none_right_eq_some, Option.some.injEq]
    constructor
    · rintro ⟨h, rfl⟩
      exact ⟨rfl, h⟩
    · rintro ⟨rfl, h⟩
      exact ⟨h, rfl⟩

/-- The offsets of LB and of TB (20_memory.md R46). -/
theorem regionAt_buffer {off : Nat} {r : Region} (h : regionAt off = some r) :
    (r = .lb → 0x1000 ≤ off ∧ off < 0x2000) ∧ (r = .tb → 0x10000 ≤ off ∧ off < 0x20000) := by
  unfold regionAt at h
  split_ifs at h with hword hlb htb
  · split at h <;> cases h <;> exact ⟨nofun, nofun⟩
  all_goals cases h
  · exact ⟨fun _ => hlb, nofun⟩
  · exact ⟨nofun, fun _ => htb⟩
  · exact ⟨nofun, nofun⟩
  · exact ⟨nofun, nofun⟩

/-- LB takes aligned 32-bit accesses alone (20_memory.md R46, R54). -/
theorem lbAccess_of_acceptedRegion {off : Nat} {w : Width} (h : acceptedRegion off w = some .lb) : lbAccess off w := by
  obtain ⟨hr, hw, halign⟩ := acceptedRegion_eq_some.mp h
  cases w with
  | b8 => cases hw
  | b16 => cases hw
  | b32 => exact ⟨rfl, halign, (regionAt_buffer hr).1 rfl⟩

/-- TB takes aligned accesses of every width (20_memory.md R46, R54). -/
theorem tbAccess_of_acceptedRegion {off : Nat} {w : Width} (h : acceptedRegion off w = some .tb) : tbAccess off w := by
  obtain ⟨hr, _, halign⟩ := acceptedRegion_eq_some.mp h
  exact ⟨halign, (regionAt_buffer hr).2 rfl⟩

theorem State.Inv.writeRegion {s : State} (h : s.Inv) {r : Region} {off : Nat} {w : Width}
    (ha : acceptedRegion off w = some r) (v : Word) : (s.writeRegion r off w v).Inv := by
  cases r with
  | cmd => exact h.guarded { h with }
  | status => exact h
  | ctrl => exact h.writeCtrl v
  | cap => exact h
  | argLo => exact h.guarded { h with }
  | argHi => exact h.guarded { h with }
  | tlen => exact h.guarded { h with }
  | lb =>
    have hlb := lbAccess_of_acceptedRegion ha
    refine h.guarded (h.set_mem (h.sound.write_limb hlb ?_))
    rw [bytesOf_length, hlb.1, Width.bytes]
  | tb =>
    obtain ⟨halign, hlo, hhi⟩ := tbAccess_of_acceptedRegion ha
    refine h.guarded (h.set_mem (h.sound.write_text hlo ?_))
    rw [bytesOf_length]
    cases w <;> simp only [Width.bytes] at halign ⊢ <;> omega
  | vwin => exact h
  | vsig => exact h

/-- A read changes the answer and the draws alone (20_memory.md R56). -/
theorem State.readRegion_eq (s : State) (r : Region) (off : Nat) (w : Width) :
    ∃ resp draws, s.readRegion r off w = { s with resp := resp, draws := draws } := by
  unfold State.readRegion State.readWindow State.readSig
  repeat' split
  all_goals exact ⟨_, _, rfl⟩

theorem State.Inv.readRegion {s : State} (h : s.Inv) (r : Region) (off : Nat) (w : Width) : (s.readRegion r off w).Inv := by
  obtain ⟨resp, draws, e⟩ := s.readRegion_eq r off w
  rw [e]
  exact { h with }

theorem State.Inv.kept_hostRead {s : State} (h : s.Inv) (addr : Nat) (w : Width) : Kept (s.hostRead addr w) := by
  rcases s.hostRead_cases addr w with ⟨_, e⟩ | ⟨off, _, _, e⟩ | ⟨off, r, _, _, e⟩ <;> rw [e]
  · exact kept_refused _
  · exact kept_fault _
  · exact kept_next (h.readRegion r off w)

theorem State.Inv.kept_hostWrite {s : State} (h : s.Inv) (addr : Nat) (w : Width) (v : Word) :
    Kept (s.hostWrite addr w v) := by
  rcases s.hostWrite_cases addr w v with ⟨_, e⟩ | ⟨off, _, _, e⟩ | ⟨off, r, _, ha, e⟩ <;> rw [e]
  · exact kept_refused _
  · exact kept_fault _
  · exact kept_next { h.writeRegion ha v with }

/-- The step of each kind of event keeps the invariant, and so does a completion with no event left. -/
theorem State.Inv.kept_step {s : State} (h : s.Inv) : Kept (step s) := by
  cases he : s.events with
  | nil =>
    rw [step_of_no_event he]
    exact h.kept_coreStep
  | cons e es =>
    have hes : ({ s with events := es } : State).Inv := { h with }
    cases e with
    | read addr w =>
      rw [step_of_read he]
      exact hes.kept_hostRead addr w
    | write addr w v =>
      rw [step_of_write he]
      exact hes.kept_hostWrite addr w v
    | hwReset =>
      rw [step_of_hwReset he]
      exact kept_next hes.hwReset
    | core =>
      rw [step_of_core he]
      exact hes.kept_coreStep

/-- Settles O39: a completion writes representable results or fails with a produced code, a host write keeps memory in its
form, and a read changes no field of the invariant. -/
theorem stepKeepsInvariant : Obligations.StepKeepsInvariant := fun _ t h => h.kept_step t

/-- Settles O38: every register holds 0, the memory is empty, and STATUS is clear. -/
theorem resetMeetsInvariant : Obligations.ResetMeetsInvariant where
  capacity := by decide
  base := by decide
  values r := by
    have hr : State.reset.val r = 0 := by simp [State.val, State.getV, State.reset]
    rw [hr]
    exact inRange_zero _
  memory := State.reset_mem_wf
  storage := Memory.sound_nil.storage
  limbs := Memory.sound_nil.limbs
  error := by decide
  sticky := fun h0 => absurd rfl h0

end Sys2Proof.Machine
end

section
/-! VWIN and VSIG: limbs of a register and its significant-limb count (00_scope.md R9, 20_memory.md R47, R48). -/

namespace Sys2Proof.Machine

/-! ## Significant limbs -/

theorem limbOf_eq_zero_of_le {C p k : Nat} (hp : p < 2 ^ widthOf C) (hk : C ≤ k) : limbOf p k = 0 := by
  have hlt : p < 2 ^ (32 * k) := hp.trans_le (Nat.pow_le_pow_right Nat.two_pos (by unfold widthOf; omega))
  rw [limbOf, Nat.div_eq_of_lt hlt, Nat.zero_mod]

theorem topLimb_lt (p : Nat) {n : Nat} (hn : 0 < n) : topLimb p n < n := by
  induction n with
  | zero => exact absurd hn (lt_irrefl 0)
  | succ n ih =>
    unfold topLimb
    split
    · exact Nat.lt_succ_self n
    · rcases Nat.eq_zero_or_pos n with rfl | h
      · exact Nat.one_pos
      · exact (ih h).trans (Nat.lt_succ_self n)

/-- No limb between the top one and `n` is set. -/
theorem limbOf_eq_zero_of_topLimb_lt {p n k : Nat} (hk : topLimb p n < k) (hn : k < n) : limbOf p k = 0 := by
  induction n with
  | zero => exact absurd hn (Nat.not_lt_zero k)
  | succ n ih =>
    unfold topLimb at hk
    split at hk
    · omega
    · next h0 =>
      rcases Nat.lt_succ_iff_lt_or_eq.mp hn with h | rfl
      · exact ih hk h
      · exact not_not.mp h0

/-- The top limb is set, unless it is limb 0. -/
theorem topLimb_eq_zero_or_limbOf_ne_zero (p n : Nat) : topLimb p n = 0 ∨ limbOf p (topLimb p n) ≠ 0 := by
  induction n with
  | zero => exact .inl rfl
  | succ n ih =>
    unfold topLimb
    split
    · exact .inr ‹_›
    · exact ih

theorem sigOf_eq (C p : Nat) : sigOf C p = 1 + topLimb p C ∨ p = 0 ∧ sigOf C p = 1 := by
  unfold sigOf
  split
  · exact .inr ⟨‹_›, rfl⟩
  · exact .inl rfl

theorem one_le_sigOf (C p : Nat) : 1 ≤ sigOf C p := by
  rcases sigOf_eq C p with h | ⟨_, h⟩ <;> omega

theorem sigOf_le {C : Nat} (hC : 1 ≤ C) (p : Nat) : sigOf C p ≤ C := by
  have := topLimb_lt p hC
  rcases sigOf_eq C p with h | ⟨_, h⟩ <;> omega

theorem limbOf_eq_zero_of_sigOf_le {C p k : Nat} (hp : p < 2 ^ widthOf C) (hk : sigOf C p ≤ k) : limbOf p k = 0 := by
  rcases sigOf_eq C p with h | ⟨rfl, _⟩
  · rcases lt_or_ge k C with hC | hC
    · exact limbOf_eq_zero_of_topLimb_lt (by omega) hC
    · exact limbOf_eq_zero_of_le hp hC
  · rw [limbOf, Nat.zero_div, Nat.zero_mod]

theorem sigOf_eq_one_or_limbOf_ne_zero (C p : Nat) : sigOf C p = 1 ∨ limbOf p (sigOf C p - 1) ≠ 0 := by
  rcases sigOf_eq C p with h | ⟨_, h⟩
  · rw [h, Nat.add_sub_cancel_left]
    exact (topLimb_eq_zero_or_limbOf_ne_zero p C).imp_left fun h0 => by rw [h0]
  · exact .inl h

/-! ## The windows -/

/-- `VWIN[r]` holds 1024 limbs from `0x20000 + 0x1000·r` on (20_memory.md R46). -/
theorem acceptedRegion_vwin (r : RegIx) {k : Nat} (hk : k < 1024) :
    acceptedRegion (0x20000 + 0x1000 * r.val + 4 * k) .b32 = some (.vwin r k) := by
  have hr := r.isLt
  have hix : (⟨(0x20000 + 0x1000 * r.val + 4 * k - 0x20000) / 0x1000 % 16, Nat.mod_lt _ (by decide)⟩ : RegIx) = r :=
    Fin.ext (by show _ / 0x1000 % 16 = _; omega)
  have hlimb : (0x20000 + 0x1000 * r.val + 4 * k - 0x20000) % 0x1000 / 4 = k := by omega
  refine acceptedRegion_eq_some.mpr ⟨?_, rfl, by show _ % 4 = 0; omega⟩
  rw [regionAt, if_neg (by omega), if_neg (by omega), if_neg (by omega), if_pos (by omega), hix, hlimb]

/-- `VSIG[r]` is the word at `0x30000 + 4·r` (20_memory.md R46). -/
theorem acceptedRegion_vsig (r : RegIx) : acceptedRegion (0x30000 + 4 * r.val) .b32 = some (.vsig r) := by
  have hr := r.isLt
  have hix : (⟨(0x30000 + 4 * r.val - 0x30000) / 4 % 16, Nat.mod_lt _ (by decide)⟩ : RegIx) = r :=
    Fin.ext (by show _ / 4 % 16 = _; omega)
  refine acceptedRegion_eq_some.mpr ⟨?_, rfl, by show _ % 4 = 0; omega⟩
  rw [regionAt, if_neg (by omega), if_neg (by omega), if_neg (by omega), if_neg (by omega), if_pos (by omega), hix]

theorem State.windowBusy_eq_false {s : State} {r : RegIx} (h : r ∉ s.inFlightDests) : s.windowBusy r = false := by
  simpa [State.windowBusy] using h

theorem ofNat_limbOf (p k : Nat) : BitVec.ofNat 32 (limbOf p k) = BitVec.ofNat 32 (p / 2 ^ (32 * k)) :=
  BitVec.eq_of_toNat_eq (by simp [limbOf])

/-- The window of a written register that is not in flight shows its pattern, word by word (20_memory.md R47). -/
theorem State.readWindow_written {s : State} {r : RegIx} (hw : s.written r = true) (hr : r ∉ s.inFlightDests) (k : Nat) :
    s.readWindow r k =
      s.answer (if k < s.cap then BitVec.ofNat 32 (enc s.cap (s.val r) / 2 ^ (32 * k)) else 0) := by
  simp only [State.readWindow, State.windowBusy_eq_false hr, hw]
  rcases lt_or_ge k s.cap with h | h
  · simp [h, not_le.mpr h, ofNat_limbOf]
  · simp [h, not_lt.mpr h]

/-- VSIG of a written register that is not in flight shows its significant-limb count (20_memory.md R48). -/
theorem State.readSig_written {s : State} {r : RegIx} (hw : s.written r = true) (hr : r ∉ s.inFlightDests) :
    s.readSig r = s.answer (BitVec.ofNat 32 (sigOf s.cap (enc s.cap (s.val r)))) := by
  simp [State.readSig, State.windowBusy_eq_false hr, hw]

/-- Settles O48: VWIN by the window's offsets, VSIG by what the top limb is. -/
theorem windowShowsLimbs : Obligations.WindowShowsLimbs := by
  intro s r es hinv hw hr
  refine ⟨fun k hk he => ?_, fun he => ⟨sigOf s.cap (enc s.cap (s.val r)), ?_, one_le_sigOf _ _,
    sigOf_le hinv.capacity.1 _, fun k hk => limbOf_eq_zero_of_sigOf_le (enc_lt _ _) hk,
    sigOf_eq_one_or_limbOf_ne_zero _ _⟩⟩
  · rw [step_of_accepted_read he (acceptedRegion_vwin r hk)]
    exact congrArg _ (State.readWindow_written (s := { s with events := es }) hw hr k)
  · rw [step_of_accepted_read he (acceptedRegion_vsig r)]
    exact congrArg _ (State.readSig_written (s := { s with events := es }) hw hr)

end Sys2Proof.Machine
end

section
/-! What a completed command leaves alone: read off the shape of commands (10_state.md R22, 60_exceptions.md R197). -/

namespace Sys2Proof.Machine

open Host (Outcome)

/-- A commit changes registers, text and TLEN, sets ERR to 0 and empties the latch. -/
theorem State.commit_eq (s : State) (w : Writes) :
    ∃ v mem tlen, s.commit w = { s with v := v, mem := mem, tlen := tlen, err := 0, latch := none } := by
  obtain ⟨v, hv⟩ := s.setRegs_eq w.regs
  unfold State.commit
  rw [hv]
  split <;> exact ⟨_, _, _, rfl⟩

theorem State.getV_commit_other (s : State) {w : Writes} {q : RegIx} (h : q ∉ w.regs.map Prod.fst) :
    (s.commit w).getV q = s.getV q := by
  have hregs := s.getV_setRegs_other w.regs q h
  unfold State.commit
  split
  · rwa [State.succeed_getV]
  · rwa [State.succeed_getV, State.setText_getV]

/-- A completion empties the latch and leaves the host's side, the straps, the draws and the fault mark alone. -/
theorem State.complete_eq (s : State) (r : Except ErrorKind Writes) :
    ∃ v mem tlen err estk,
      s.complete r = { s with v := v, mem := mem, tlen := tlen, err := err, estk := estk, latch := none } := by
  rcases s.complete_cases r with ⟨w, _, h⟩ | ⟨e, _, h⟩ <;> rw [h]
  · obtain ⟨v, mem, tlen, hw⟩ := s.commit_eq w
    exact ⟨v, mem, tlen, 0, s.estk, hw⟩
  · exact ⟨_, _, _, _, _, rfl⟩

@[simp] theorem State.complete_latch (s : State) (r : Except ErrorKind Writes) : (s.complete r).latch = none := by
  obtain ⟨_, _, _, _, _, h⟩ := s.complete_eq r
  rw [h]

@[simp] theorem State.complete_faulted (s : State) (r : Except ErrorKind Writes) :
    (s.complete r).faulted = s.faulted := by
  obtain ⟨_, _, _, _, _, h⟩ := s.complete_eq r
  rw [h]

@[simp] theorem State.complete_draws (s : State) (r : Except ErrorKind Writes) : (s.complete r).draws = s.draws := by
  obtain ⟨_, _, _, _, _, h⟩ := s.complete_eq r
  rw [h]

theorem State.complete_sameHost (s : State) (r : Except ErrorKind Writes) : s.SameHost (s.complete r) := by
  obtain ⟨_, _, _, _, _, h⟩ := s.complete_eq r
  rw [h]
  exact ⟨rfl, rfl, rfl, rfl, rfl, rfl, rfl⟩

/-- A completion shows a produced code: 0 for a commit, the code of its kind for a failure. -/
theorem State.legalErr_complete (s : State) (r : Except ErrorKind Writes) : legalErr (s.complete r).err = true := by
  rcases s.complete_cases r with ⟨w, _, h⟩ | ⟨e, _, h⟩ <;> rw [h]
  · obtain ⟨_, _, _, hw⟩ := s.commit_eq w
    rw [hw]
    rfl
  · exact e.legalErr_code

theorem ErrorKind.code_ne_zero (e : ErrorKind) : e.code ≠ 0 := by cases e <;> decide

/-- ESTK is kept by a success and set by a failure (60_exceptions.md R197). -/
theorem State.complete_estk (s : State) (r : Except ErrorKind Writes) :
    ((s.complete r).err = 0 → (s.complete r).estk = s.estk) ∧ ((s.complete r).err ≠ 0 → (s.complete r).estk = true) := by
  rcases s.complete_cases r with ⟨w, _, h⟩ | ⟨e, _, h⟩ <;> rw [h]
  · obtain ⟨_, _, _, hw⟩ := s.commit_eq w
    rw [hw]
    exact ⟨fun _ => rfl, fun h0 => absurd rfl h0⟩
  · exact ⟨fun h0 => absurd h0 e.code_ne_zero, fun _ => rfl⟩

/-- A completion writes the destinations of its result and no other register. -/
theorem State.getV_complete_other (s : State) {r : Except ErrorKind Writes} {q : RegIx}
    (h : ∀ w, r = .ok w → q ∉ w.regs.map Prod.fst) : (s.complete r).getV q = s.getV q := by
  rcases s.complete_cases r with ⟨w, hr, e⟩ | ⟨k, _, e⟩ <;> rw [e]
  · exact s.getV_commit_other (h w hr)
  · exact s.raise_getV k q

/-- Every command answers the completion of a state that differs from the one before in the draws and the fault mark
alone; what it writes are its destinations. -/
theorem exec_eq_complete (i : Instr) (s : State) :
    ∃ d f r, exec i s = .next ((s.drawn d f).complete r) ∧ (s.faulted = true → f = true) ∧
      ∀ w, r = .ok w → w.regs.map Prod.fst = i.dests := by
  obtain ⟨d, f, r, he, hf, hw⟩ := exec_shape i s
  exact ⟨d, f, r, he, hf, fun w h => (hw w h).1⟩

/-- Settles O30: the shape of a command names what it writes, and completion touches nothing else. -/
theorem commandFrameRegisters : Obligations.CommandFrameRegisters := by
  intro i s t h
  obtain ⟨d, f, r, he, _, hw⟩ := exec_eq_complete i s
  rw [he] at h
  cases h
  refine ⟨fun q hq => ?_, ?_, State.complete_latch _ r, State.complete_estk (s.drawn d f) r⟩
  · exact (s.drawn d f).getV_complete_other fun w hr => by rwa [hw w hr]
  · have := (s.drawn d f).complete_sameHost r
    exact { this with }

/-- Settles O33: every command is a completion, which empties the latch and shows a produced code. -/
theorem everyCommandCompletes : Obligations.EveryCommandCompletes := by
  intro i s
  obtain ⟨d, f, r, he, _, _⟩ := exec_eq_complete i s
  refine ⟨_, he, ?_, State.legalErr_complete _ r⟩
  rw [State.busy, State.complete_latch]
  rfl

/-! ## Straps and the fault mark -/

/-- The capacity and the base address stand, and a fault mark that is set stays (10_state.md R44, 60_exceptions.md
R217). -/
structure State.KeepsStraps (s t : State) : Prop where
  cap : t.cap = s.cap
  base : t.base = s.base
  faulted : s.faulted = true → t.faulted = true

theorem exec_keepsStraps {i : Instr} {s t : State} (h : exec i s = .next t) : s.KeepsStraps t := by
  obtain ⟨d, f, r, he, hf, _⟩ := exec_eq_complete i s
  rw [he] at h
  cases h
  have hhost := (s.drawn d f).complete_sameHost r
  exact ⟨hhost.cap, hhost.base, by rwa [State.complete_faulted]⟩

theorem State.coreStep_keepsStraps {s t : State} (h : s.coreStep = .next t) : s.KeepsStraps t := by
  unfold State.coreStep at h
  split at h
  · cases h
    exact ⟨rfl, rfl, id⟩
  · next w _ =>
    rcases s.completeWord_cases w with ⟨i, _, e⟩ | ⟨_, e⟩ <;> rw [e] at h
    · exact exec_keepsStraps h
    · cases h
      exact ⟨rfl, rfl, id⟩

/-- Abandoning the command in flight changes registers and memory alone. -/
theorem State.abort_eq (s : State) : ∃ v mem, s.abort = { s with v := v, mem := mem } := by
  obtain ⟨v, hv⟩ := s.unwriteRegs_eq s.inFlightDests
  unfold State.abort
  rw [hv]
  dsimp only
  split <;> exact ⟨_, _, rfl⟩

theorem State.writeCtrl_keepsStraps (s : State) (v : Word) : s.KeepsStraps (s.writeCtrl v) := by
  unfold State.writeCtrl
  split_ifs
  · obtain ⟨_, _, h⟩ := s.abort_eq
    rw [State.softReset, h]
    exact ⟨rfl, rfl, id⟩
  · exact ⟨rfl, rfl, id⟩
  · exact ⟨rfl, rfl, id⟩

theorem State.KeepsStraps.guarded {s t : State} (h : s.KeepsStraps t) : s.KeepsStraps (s.guarded t) := by
  unfold State.guarded
  split
  · exact ⟨rfl, rfl, id⟩
  · exact h

theorem State.writeRegion_keepsStraps (s : State) (r : Region) (off : Nat) (w : Width) (v : Word) :
    s.KeepsStraps (s.writeRegion r off w v) := by
  cases r with
  | ctrl => exact s.writeCtrl_keepsStraps v
  | status | cap | vwin | vsig => exact ⟨rfl, rfl, id⟩
  | cmd | argLo | argHi | tlen | lb | tb => exact State.KeepsStraps.guarded ⟨rfl, rfl, id⟩

theorem State.hostRead_keepsStraps {s t : State} {addr : Nat} {w : Width} (h : s.hostRead addr w = .next t) :
    s.KeepsStraps t := by
  rcases s.hostRead_cases addr w with ⟨_, e⟩ | ⟨off, _, _, e⟩ | ⟨off, r, _, _, e⟩ <;> rw [e] at h <;> cases h
  obtain ⟨resp, draws, e⟩ := s.readRegion_eq r off w
  rw [e]
  exact ⟨rfl, rfl, id⟩

theorem State.hostWrite_keepsStraps {s t : State} {addr : Nat} {w : Width} {v : Word}
    (h : s.hostWrite addr w v = .next t) : s.KeepsStraps t := by
  rcases s.hostWrite_cases addr w v with ⟨_, e⟩ | ⟨off, _, _, e⟩ | ⟨off, r, _, _, e⟩ <;> rw [e] at h <;> cases h
  exact { s.writeRegion_keepsStraps r off w v with }

/-- Every step keeps the straps and the fault mark. -/
theorem step_keepsStraps {s t : State} (h : step s = .next t) : s.KeepsStraps t := by
  cases he : s.events with
  | nil =>
    rw [step_of_no_event he] at h
    exact State.coreStep_keepsStraps h
  | cons e es =>
    cases e with
    | read addr w =>
      rw [step_of_read he] at h
      exact { State.hostRead_keepsStraps h with }
    | write addr w v =>
      rw [step_of_write he] at h
      exact { State.hostWrite_keepsStraps h with }
    | hwReset =>
      rw [step_of_hwReset he] at h
      cases h
      exact ⟨rfl, rfl, id⟩
    | core =>
      rw [step_of_core he] at h
      exact { State.coreStep_keepsStraps h with }

/-- Settles O42: no event and no completion touches a strap, and only reads of operands touch the mark, which they set. -/
theorem strapsAndFaultMarkAreKept : Obligations.StrapsAndFaultMarkAreKept := fun _ _ h =>
  have kept := step_keepsStraps h
  ⟨kept.cap, kept.base, kept.faulted⟩

end Sys2Proof.Machine
end

section
/-! Commands as readers of their sources: which registers a command reads, and that its result depends on nothing else
(10_state.md R22, R25, R40, R41). -/

namespace Sys2Proof.Machine

open Host (Outcome)

/-- A command's read of several registers, in their order. -/
def State.readVs (s : State) : List RegIx → List Int × State
  | [] => ([], s)
  | r :: rs =>
    let a := s.readV r
    let as := State.readVs a.2 rs
    (a.1 :: as.1, as.2)

/-- The registers a command reads: its sources, but none for DIVMOD with equal destinations, which is illegal before any
operand is read (30_encoding.md R79). -/
def registersRead (i : Instr) : List RegIx := if i.wellFormed then i.sources else []

/-- The outcome is that of a command which reads the registers `rs` and nothing else but the capacity and ARG. -/
def ReadsOnly (rs : List RegIx) (m : State → Outcome State Fault Refusal) : Prop :=
  ∃ g : Nat → Nat → List Int → Except ErrorKind Writes, ∀ s, m s = (s.readVs rs).2.finish (g s.cap s.arg (s.readVs rs).1)

section
variable {m : State → Outcome State Fault Refusal} {rd ra rb rc : RegIx}

theorem readsOnly_of_runNullary {g : Nat → Nat → Except ErrorKind Int} (h : ∀ s, m s = s.runNullary rd (g s.cap s.arg)) :
    ReadsOnly [] m :=
  ⟨fun C A _ => (g C A).map (Writes.reg rd), h⟩

theorem readsOnly_of_runUnary {f : Nat → Int → Except ErrorKind Int} (h : ∀ s, m s = s.runUnary f rd ra) :
    ReadsOnly [ra] m :=
  ⟨fun C _ xs => (f C (xs.getD 0 0)).map (Writes.reg rd), h⟩

theorem readsOnly_of_runBinary {f : Nat → Int → Int → Except ErrorKind Int} (h : ∀ s, m s = s.runBinary f rd ra rb) :
    ReadsOnly [ra, rb] m :=
  ⟨fun C _ xs => (f C (xs.getD 0 0) (xs.getD 1 0)).map (Writes.reg rd), h⟩

theorem readsOnly_of_runTernary {f : Nat → Int → Int → Int → Except ErrorKind Int}
    (h : ∀ s, m s = s.runTernary f rd ra rb rc) : ReadsOnly [ra, rb, rc] m :=
  ⟨fun C _ xs => (f C (xs.getD 0 0) (xs.getD 1 0) (xs.getD 2 0)).map (Writes.reg rd), h⟩

end

theorem readsOnly_execDivmod (rd rc ra rb : RegIx) :
    ReadsOnly (registersRead (.divmod rd rc ra rb)) (execDivmod rd rc ra rb) := by
  by_cases h : rd = rc
  · refine ⟨fun _ _ _ => .error .illegalCommand, fun s => ?_⟩
    simp [execDivmod, registersRead, Instr.wellFormed, State.readVs, h]
  · refine ⟨fun C _ xs => (divResult C (xs.getD 0 0) (xs.getD 1 0)).map fun q =>
      ⟨[(rd, q), (rc, trem (xs.getD 0 0) (xs.getD 1 0))], none⟩, fun s => ?_⟩
    simp [execDivmod, registersRead, Instr.wellFormed, Instr.sources, State.readVs, h]

theorem readsOnly_execFmt (ra : RegIx) (imm : BitVec 8) : ReadsOnly [ra] (execFmt ra imm) := by
  refine ⟨fun _ _ xs => if ¬ radixOk imm.toNat then .error .invalidRadix
    else .ok ⟨[], some (formatValue imm.toNat (xs.getD 0 0))⟩, fun s => ?_⟩
  unfold execFmt
  dsimp only
  split <;> rfl

/-- Every command but the two that read a buffer, PARSE and LDLIMBS, depends on the registers it reads, the capacity and
ARG alone. -/
theorem exec_readsOnly (i : Instr) (hparse : ∀ rd imm, i ≠ .parse rd imm) (hldlimbs : ∀ rd, i ≠ .ldlimbs rd) :
    ReadsOnly (registersRead i) (exec i) := by
  unfold exec
  cases i with
  | sets rd =>
    exact readsOnly_of_runNullary (g := fun C A => fit C (if A.testBit 63 then (A : Int) - 2 ^ 64 else A)) fun _ => rfl
  | setu rd => exact readsOnly_of_runNullary (g := fun C A => fit C A) fun _ => rfl
  | ldlimbs rd => exact absurd rfl (hldlimbs rd)
  | parse rd imm => exact absurd rfl (hparse rd imm)
  | mov | neg | abs | inc | dec => exact readsOnly_of_runUnary fun _ => rfl
  | cmpeq | cmpne | cmplt | cmpgt | cmple | cmpge | min | max => exact readsOnly_of_runBinary fun _ => rfl
  | add | sub | shl | shlw | shr | mul | div | mod | gcd | modinv | jacobi => exact readsOnly_of_runBinary fun _ => rfl
  | modpow => exact readsOnly_of_runTernary fun _ => rfl
  | divmod rd rc ra rb => exact readsOnly_execDivmod rd rc ra rb
  | fmt ra imm => exact readsOnly_execFmt ra imm

/-! ## Unwritten items -/

section
variable {s s' : State} (h : ∃ d f, s' = s.drawn d f ∧ (s.faulted = true → f = true))
include h

theorem State.faulted_of_drawn (hs : s.faulted = true) : s'.faulted = true := by
  obtain ⟨d, f, rfl, hf⟩ := h
  exact hf hs

theorem State.mem_of_drawn : s'.mem = s.mem := by
  obtain ⟨d, f, rfl, _⟩ := h
  rfl

theorem State.written_of_drawn (r : RegIx) : s'.written r = s.written r := by
  obtain ⟨d, f, rfl, _⟩ := h
  rfl

end

theorem State.readVs_drawn (s : State) (rs : List RegIx) :
    ∃ d f, (s.readVs rs).2 = s.drawn d f ∧ (s.faulted = true → f = true) := by
  induction rs generalizing s with
  | nil => exact ⟨_, _, rfl, id⟩
  | cons r rs ih =>
    obtain ⟨d, f, h, hf⟩ := s.readV_drawn r
    obtain ⟨d', f', h', hf'⟩ := ih (s.readV r).2
    refine ⟨d', f', ?_, fun e => hf' (by rw [h]; exact hf e)⟩
    change ((s.readV r).2.readVs rs).2 = _
    rw [h', h, State.drawn_drawn]

/-- Registers that are all written are read without a trace. -/
theorem State.readVs_written {s : State} {rs : List RegIx} (h : ∀ r ∈ rs, s.written r = true) : (s.readVs rs).2 = s := by
  induction rs with
  | nil => rfl
  | cons r rs ih =>
    obtain ⟨hr, hrs⟩ := List.forall_mem_cons.mp h
    simp only [State.readVs, State.readV_written hr, ih hrs]

theorem State.faulted_readVs {s : State} {rs : List RegIx} {r : RegIx} (hr : r ∈ rs) (h : s.written r = false) :
    (s.readVs rs).2.faulted = true := by
  induction rs generalizing s with
  | nil => exact absurd hr List.not_mem_nil
  | cons q rs ih =>
    change ((s.readV q).2.readVs rs).2.faulted = true
    rcases List.mem_cons.mp hr with rfl | hr
    · refine State.faulted_of_drawn (State.readVs_drawn _ rs) ?_
      rw [State.readV_unwritten h]
      rfl
    · exact ih hr ((State.written_of_drawn (s.readV_drawn q) r).trans h)

theorem State.faulted_readByte {s : State} {x : Nat} (h : s.mem.read x = none) : (s.readByte x).2.faulted = true := by
  simp only [State.readByte, h]

theorem State.faulted_readBytes {s : State} {x n j : Nat} (hj : j < n) (h : s.mem.read (x + j) = none) :
    (s.readBytes x n).2.faulted = true := by
  induction n generalizing s x j with
  | zero => exact absurd hj (Nat.not_lt_zero j)
  | succ n ih =>
    change ((s.readByte x).2.readBytes (x + 1) n).2.faulted = true
    cases j with
    | zero => exact State.faulted_of_drawn (State.readBytes_drawn _ _ n) (State.faulted_readByte h)
    | succ j =>
      refine ih (Nat.lt_of_succ_lt_succ hj) ?_
      rwa [State.mem_of_drawn (s.readByte_drawn x), show x + 1 + j = x + (j + 1) by omega]

theorem State.faulted_readLimbs {s : State} {i n j : Nat} (hj : j < n) (h : s.mem.read (lbOffset + 4 * (i + j)) = none) :
    (s.readLimbs i n).2.faulted = true := by
  induction n generalizing s i j with
  | zero => exact absurd hj (Nat.not_lt_zero j)
  | succ n ih =>
    change ((s.readLimb i).2.readLimbs (i + 1) n).2.faulted = true
    cases j with
    | zero => exact State.faulted_of_drawn (State.readLimbs_drawn _ _ n) (State.faulted_readBytes (j := 0) (by omega) h)
    | succ j =>
      refine ih (Nat.lt_of_succ_lt_succ hj) ?_
      rwa [State.mem_of_drawn (s.readLimb_drawn i), show i + 1 + j = i + (j + 1) by omega]

theorem State.exists_finish_faulted {s : State} (h : s.faulted = true) (r : Except ErrorKind Writes) :
    ∃ t, s.finish r = .next t ∧ t.faulted = true :=
  ⟨_, rfl, (s.complete_faulted r).trans h⟩

theorem exec_faulted_of_unwritten_source {i : Instr} {s : State} {r : RegIx} (hi : i.wellFormed = true)
    (hr : r ∈ i.sources) (h : s.written r = false) : ∃ t, exec i s = .next t ∧ t.faulted = true := by
  have hparse : ∀ rd imm, i ≠ .parse rd imm := by rintro rd imm rfl; exact absurd hr List.not_mem_nil
  have hldlimbs : ∀ rd, i ≠ .ldlimbs rd := by rintro rd rfl; exact absurd hr List.not_mem_nil
  obtain ⟨g, hg⟩ := exec_readsOnly i hparse hldlimbs
  have hreads : r ∈ registersRead i := by rwa [registersRead, if_pos hi]
  rw [hg]
  exact State.exists_finish_faulted (State.faulted_readVs hreads h) _

theorem exec_parse_faulted_of_unwritten {s : State} (rd : RegIx) {imm : BitVec 8} {j : Nat}
    (hradix : 2 ≤ imm.toNat ∧ imm.toNat ≤ 36) (hlen : s.tlen.toNat ≤ tbSize) (hj : j < s.tlen.toNat)
    (h : s.mem.read (tbOffset + j) = none) : ∃ t, exec (.parse rd imm) s = .next t ∧ t.faulted = true := by
  have hok : radixOk imm.toNat = true := by simpa [radixOk] using hradix
  change ∃ t, execParse rd imm s = .next t ∧ _
  unfold execParse
  rw [if_neg (not_not.mpr hok), if_neg (not_lt.mpr hlen)]
  exact State.exists_finish_faulted (State.faulted_readBytes hj h) _

theorem exec_ldlimbs_faulted_of_unwritten {s : State} (rd : RegIx) {j : Nat} (hcap : s.argLo.toNat ≤ s.cap)
    (hj : j < s.argLo.toNat) (h : s.mem.read (lbOffset + 4 * j) = none) :
    ∃ t, exec (.ldlimbs rd) s = .next t ∧ t.faulted = true := by
  change ∃ t, execLdlimbs rd s = .next t ∧ _
  unfold execLdlimbs
  rw [if_neg (not_lt.mpr hcap)]
  exact State.exists_finish_faulted (State.faulted_readLimbs hj (by rwa [Nat.zero_add])) _

/-- A command that reads written registers alone leaves no trace of its reading. -/
theorem exec_drawn_of_written_sources {i : Instr} {s t : State} (hs : ∀ r ∈ i.sources, s.written r = true)
    (hparse : ∀ rd imm, i ≠ .parse rd imm) (hldlimbs : ∀ rd, i ≠ .ldlimbs rd) (h : exec i s = .next t) :
    t.faulted = s.faulted ∧ t.draws = s.draws := by
  obtain ⟨g, hg⟩ := exec_readsOnly i hparse hldlimbs
  have hreads : ∀ r ∈ registersRead i, s.written r = true := by
    unfold registersRead
    split
    · exact hs
    · exact fun _ hr => absurd hr List.not_mem_nil
  rw [hg, State.readVs_written hreads] at h
  cases h
  exact ⟨State.complete_faulted _ _, State.complete_draws _ _⟩

/-- Settles O34: a read of an unwritten item sets the mark, no later read and no completion clears it, and a read of a
written register changes nothing. -/
theorem unwrittenReadsAreRecorded : Obligations.UnwrittenReadsAreRecorded :=
  ⟨fun _ _ _ hi hr h => exec_faulted_of_unwritten_source hi hr h,
    fun _ rd _ _ h2 h36 hlen hj h => exec_parse_faulted_of_unwritten rd ⟨h2, h36⟩ hlen hj h,
    fun _ rd _ hcap hj h => exec_ldlimbs_faulted_of_unwritten rd hcap hj h,
    fun _ _ _ hs hparse hldlimbs h => exec_drawn_of_written_sources hs hparse hldlimbs h⟩

/-! ## STATUS and the host's side -/

/-- What no command reads: STATUS, the latch and the host's side (10_state.md R25, R40). -/
structure HostSide where
  estk : Bool
  ovr : Bool
  err : BitVec 4
  latch : Option Word
  events : List Event
  resp : Resp

/-- The state with another STATUS, latch and host's side. -/
def State.withHost (s : State) (h : HostSide) : State :=
  { s with estk := h.estk, ovr := h.ovr, err := h.err, latch := h.latch, events := h.events, resp := h.resp }

/-- A read of operands that gives the same values, and leaves the same data, whatever the host's side is. -/
def IgnoresHost {α : Type} (read : State → α × State) : Prop :=
  ∀ s h, read (s.withHost h) = ((read s).1, (read s).2.withHost h)

theorem ignoresHost_cons {α : Type} {f : State → α × State} {g : State → List α × State} (hf : IgnoresHost f)
    (hg : IgnoresHost g) : IgnoresHost fun s => ((f s).1 :: (g (f s).2).1, (g (f s).2).2) := fun s h => by
  simp only [hf s h, hg (f s).2 h]

theorem readV_ignoresHost (r : RegIx) : IgnoresHost fun s => s.readV r := fun s h => by
  have hr : (s.withHost h).written r = s.written r := rfl
  cases hw : s.written r with
  | true => simp only [State.readV_written hw, State.readV_written (hr.trans hw)]; rfl
  | false => simp only [State.readV_unwritten hw, State.readV_unwritten (hr.trans hw)]; rfl

theorem readVs_ignoresHost (rs : List RegIx) : IgnoresHost fun s => s.readVs rs := by
  induction rs with
  | nil => exact fun _ _ => rfl
  | cons r rs ih => exact ignoresHost_cons (readV_ignoresHost r) ih

theorem readByte_ignoresHost (x : Nat) : IgnoresHost fun s => s.readByte x := fun s h => by
  have hm : (s.withHost h).mem = s.mem := rfl
  simp only [State.readByte, hm]
  split <;> rfl

theorem readBytes_ignoresHost (x n : Nat) : IgnoresHost fun s => s.readBytes x n := by
  induction n generalizing x with
  | zero => exact fun _ _ => rfl
  | succ n ih => exact ignoresHost_cons (readByte_ignoresHost x) (ih (x + 1))

theorem readLimb_ignoresHost (j : Nat) : IgnoresHost fun s => s.readLimb j := fun s h => by
  simp only [State.readLimb, readBytes_ignoresHost _ _ s h]

theorem readLimbs_ignoresHost (j n : Nat) : IgnoresHost fun s => s.readLimbs j n := by
  induction n generalizing j with
  | zero => exact fun _ _ => rfl
  | succ n ih => exact ignoresHost_cons (readLimb_ignoresHost j) (ih (j + 1))

theorem State.setRegs_withHost (s : State) (h : HostSide) (ws : List (RegIx × Int)) :
    (s.withHost h).setRegs ws = (s.setRegs ws).withHost h := by
  induction ws generalizing s with
  | nil => rfl
  | cons w ws ih => exact ih (s.setV w.1 w.2)

/-- Two states with the same result: registers, buffers, TLEN and ERR. -/
structure State.SameResult (t t' : State) : Prop where
  v : t'.v = t.v
  mem : t'.mem = t.mem
  tlen : t'.tlen = t.tlen
  err : t'.err = t.err

theorem State.complete_withHost (s : State) (h : HostSide) (r : Except ErrorKind Writes) :
    (s.complete r).SameResult ((s.withHost h).complete r) := by
  cases r with
  | error e => exact ⟨rfl, rfl, rfl, rfl⟩
  | ok w =>
    simp only [State.complete, State.commit, State.setRegs_withHost]
    split <;> exact ⟨rfl, rfl, rfl, rfl⟩

/-- A command whose result is the same whatever STATUS, the latch and the host's side are. -/
def ResultIgnoresHost (m : State → Outcome State Fault Refusal) : Prop :=
  ∀ s h, ∃ t t', m s = .next t ∧ m (s.withHost h) = .next t' ∧ t.SameResult t'

theorem ReadsOnly.resultIgnoresHost {rs : List RegIx} {m : State → Outcome State Fault Refusal} (hm : ReadsOnly rs m) :
    ResultIgnoresHost m := fun s h => by
  obtain ⟨g, hg⟩ := hm
  refine ⟨_, _, hg s, ?_, State.complete_withHost (s.readVs rs).2 h _⟩
  have hread : (s.withHost h).readVs rs = _ := readVs_ignoresHost rs s h
  rw [hg, hread]
  rfl

theorem execLdlimbs_resultIgnoresHost (rd : RegIx) : ResultIgnoresHost (execLdlimbs rd) := fun s h => by
  have hread : (s.withHost h).readLimbs 0 s.argLo.toNat = _ := readLimbs_ignoresHost 0 s.argLo.toNat s h
  have harg : (s.withHost h).argLo = s.argLo := rfl
  have hcap : (s.withHost h).cap = s.cap := rfl
  unfold execLdlimbs
  rw [harg, hcap, hread]
  split
  · exact ⟨_, _, rfl, rfl, s.complete_withHost h _⟩
  · exact ⟨_, _, rfl, rfl, State.complete_withHost _ h _⟩

theorem execParse_resultIgnoresHost (rd : RegIx) (imm : BitVec 8) : ResultIgnoresHost (execParse rd imm) := fun s h => by
  have hread : (s.withHost h).readBytes tbOffset s.tlen.toNat = _ := readBytes_ignoresHost tbOffset s.tlen.toNat s h
  have htlen : (s.withHost h).tlen = s.tlen := rfl
  have hcap : (s.withHost h).cap = s.cap := rfl
  unfold execParse
  rw [htlen, hcap, hread]
  split
  · exact ⟨_, _, rfl, rfl, s.complete_withHost h _⟩
  · split
    · exact ⟨_, _, rfl, rfl, s.complete_withHost h _⟩
    · exact ⟨_, _, rfl, rfl, State.complete_withHost _ h _⟩

theorem exec_resultIgnoresHost (i : Instr) : ResultIgnoresHost (exec i) := by
  by_cases hldlimbs : ∃ rd, i = .ldlimbs rd
  · obtain ⟨rd, rfl⟩ := hldlimbs
    exact execLdlimbs_resultIgnoresHost rd
  by_cases hparse : ∃ rd imm, i = .parse rd imm
  · obtain ⟨rd, imm, rfl⟩ := hparse
    exact execParse_resultIgnoresHost rd imm
  · push Not at hldlimbs hparse
    exact (exec_readsOnly i hparse hldlimbs).resultIgnoresHost

/-- Settles O37: no read of an operand and no completion looks at STATUS, the latch or the host's side. -/
theorem resultsIgnoreStatus : Obligations.ResultsIgnoreStatus := by
  intro i s t estk ovr err latch events resp h
  obtain ⟨u, u', hu, hu', same⟩ := exec_resultIgnoresHost i s ⟨estk, ovr, err, latch, events, resp⟩
  rw [h] at hu
  cases hu
  exact ⟨u', hu', same.v, same.mem, same.tlen, same.err⟩

end Sys2Proof.Machine
end

section
/-! What a host access answers: the layout of the control words, the reads that are unspecified, the writes of CTRL and
of the buffers (10_state.md R26 to R33, R41, R43; 20_memory.md R46 to R64). -/

namespace Sys2Proof.Machine

/-! ## STATUS and CAP -/

theorem State.toNat_statusWord (s : State) :
    s.statusWord.toNat = s.busy.toNat + 2 * s.estk.toNat + 4 * s.ovr.toNat + 16 * s.err.toNat := by
  have := s.err.isLt
  have := s.busy.toNat_le
  have := s.estk.toNat_le
  have := s.ovr.toNat_le
  rw [State.statusWord, BitVec.toNat_ofNat, Nat.mod_eq_of_lt (by omega)]

/-- A bit of a word is its quotient's parity. -/
theorem getLsbD_eq_of_toNat {w : Word} {i : Nat} {b : Bool} (h : w.toNat / 2 ^ i % 2 = b.toNat) : w.getLsbD i = b := by
  rw [BitVec.getLsbD, Nat.testBit_eq_decide_div_mod_eq, h]
  cases b <;> rfl

theorem extractLsb'_eq_of_toNat {w : Word} {i n : Nat} {x : BitVec n} (h : w.toNat / 2 ^ i % 2 ^ n = x.toNat) :
    w.extractLsb' i n = x :=
  BitVec.eq_of_toNat_eq (by rw [BitVec.extractLsb'_toNat, Nat.shiftRight_eq_div_pow, h])

/-- STATUS field by field (10_state.md R26). -/
theorem State.statusWord_fields (s : State) :
    s.statusWord.getLsbD 0 = s.busy ∧ s.statusWord.getLsbD 1 = s.estk ∧ s.statusWord.getLsbD 2 = s.ovr ∧
      s.statusWord.getLsbD 3 = false ∧ s.statusWord.extractLsb' 4 4 = s.err ∧ s.statusWord.extractLsb' 8 24 = 0 := by
  have herr := s.err.isLt
  have hbusy := s.busy.toNat_le
  have hestk := s.estk.toNat_le
  have hovr := s.ovr.toNat_le
  have h := s.toNat_statusWord
  refine ⟨getLsbD_eq_of_toNat ?_, getLsbD_eq_of_toNat ?_, getLsbD_eq_of_toNat ?_, getLsbD_eq_of_toNat ?_,
    extractLsb'_eq_of_toNat ?_, extractLsb'_eq_of_toNat ?_⟩ <;> rw [h]
  · omega
  · omega
  · omega
  · change _ = 0
    omega
  · omega
  · change _ = 0
    omega

/-- CAP field by field: the capacity fits its 16 bits (10_state.md R28). -/
theorem State.capWord_fields {s : State} (hC : s.cap ≤ 1024) :
    (s.capWord.extractLsb' 0 16).toNat = s.cap ∧ s.capWord.extractLsb' 16 8 = 16 ∧ s.capWord.extractLsb' 24 8 = 0 := by
  have h : s.capWord.toNat = s.cap + 16 * 2 ^ 16 := by
    rw [State.capWord, BitVec.toNat_ofNat]
    omega
  refine ⟨?_, extractLsb'_eq_of_toNat ?_, extractLsb'_eq_of_toNat ?_⟩
  · rw [BitVec.extractLsb'_toNat, Nat.shiftRight_eq_div_pow, h]
    omega
  · rw [h]
    change _ = 16
    omega
  · rw [h]
    change _ = 0
    omega

/-- Settles O49: each register is read at its offset, and the words of STATUS and CAP are taken apart. -/
theorem statusAndCapLayout : Obligations.StatusAndCapLayout := by
  intro s es
  refine ⟨fun he => ⟨s.statusWord, ?_, s.statusWord_fields⟩, fun hC he => ⟨s.capWord, ?_, State.capWord_fields hC⟩,
    fun he => ?_, fun he => ?_, fun he => ?_, fun he => ?_, fun htext he => ?_⟩
  · exact step_of_accepted_read (r := .status) he rfl
  · exact step_of_accepted_read (r := .cap) he rfl
  · exact step_of_accepted_read (off := 0) (r := .cmd) he rfl
  · exact step_of_accepted_read (r := .ctrl) he rfl
  · exact step_of_accepted_read (r := .argLo) he rfl
  · exact step_of_accepted_read (r := .argHi) he rfl
  · rw [step_of_accepted_read (r := .tlen) he rfl]
    have htext' : State.inFlightText { s with events := es } = false := htext
    simp [State.readRegion, htext', State.answer]

/-! ## Unspecified reads -/

theorem State.windowBusy_eq_true {s : State} {r : RegIx} (h : r ∈ s.inFlightDests) : s.windowBusy r = true := by
  simpa [State.windowBusy] using h

/-- A slot of VWIN is free for a destination in flight, and below the capacity for an unwritten register (10_state.md R41,
20_memory.md R63). -/
theorem State.readWindow_free {s : State} {r : RegIx} {k : Nat}
    (h : r ∈ s.inFlightDests ∨ s.written r = false ∧ k < s.cap) : s.readWindow r k = s.answerAny := by
  unfold State.readWindow
  rcases h with h | ⟨hw, hk⟩
  · rw [if_pos (State.windowBusy_eq_true h)]
  · simp [hw, not_le.mpr hk]

/-- A slot of VWIN from the capacity on is 0, unless the register is a destination in flight (20_memory.md R47). -/
theorem State.readWindow_above {s : State} {r : RegIx} {k : Nat} (hr : r ∉ s.inFlightDests) (hk : s.cap ≤ k) :
    s.readWindow r k = s.answer 0 := by
  simp [State.readWindow, State.windowBusy_eq_false hr, hk]

/-- VSIG is free for a destination in flight and for an unwritten register (10_state.md R41, 20_memory.md R63). -/
theorem State.readSig_free {s : State} {r : RegIx} (h : r ∈ s.inFlightDests ∨ s.written r = false) :
    s.readSig r = s.answerAny := by
  unfold State.readSig
  rcases h with h | hw
  · rw [if_pos (State.windowBusy_eq_true h)]
  · simp [hw]

/-- TLEN and TB are free while FMT is in flight (20_memory.md R63). -/
theorem State.readRegion_text_free {s : State} {r : Region} (h : s.inFlightText = true) (hr : r = .tlen ∨ r = .tb)
    (off : Nat) (w : Width) : s.readRegion r off w = s.answerAny := by
  rcases hr with rfl | rfl <;> exact if_pos h

/-- LB takes aligned 32-bit accesses from 0x1000 to 0x1FFF (20_memory.md R46, R54). -/
theorem acceptedRegion_lb_iff {off : Nat} {w : Width} : acceptedRegion off w = some .lb ↔ lbAccess off w := by
  refine ⟨lbAccess_of_acceptedRegion, fun ⟨hw, halign, hlo, hhi⟩ => acceptedRegion_eq_some.mpr ⟨?_, ?_, ?_⟩⟩
  · rw [regionAt, if_neg (by omega), if_pos ⟨hlo, hhi⟩]
  · rw [hw]
    rfl
  · rw [hw]
    exact halign

/-- TB takes aligned accesses of every width from 0x10000 to 0x1FFFF (20_memory.md R46, R54). -/
theorem acceptedRegion_tb_iff {off : Nat} {w : Width} : acceptedRegion off w = some .tb ↔ tbAccess off w := by
  refine ⟨tbAccess_of_acceptedRegion, fun ⟨halign, hlo, hhi⟩ => acceptedRegion_eq_some.mpr ⟨?_, rfl, halign⟩⟩
  rw [regionAt, if_neg (by omega), if_neg (by omega), if_pos ⟨hlo, hhi⟩]

/-- Settles O50: each unspecified read reaches its region and answers the next draw; a slot above the capacity answers 0. -/
theorem unspecifiedReadsAreFree : Obligations.UnspecifiedReadsAreFree := by
  intro s es
  refine ⟨fun r k hk he => ⟨fun h => ?_, fun hr _ hC => ?_⟩, fun r h he => ?_, fun h he => ?_, fun off w h ha he => ?_⟩
  · rw [step_of_accepted_read he (acceptedRegion_vwin r hk)]
    exact congrArg _ (State.readWindow_free (s := { s with events := es }) h)
  · rw [step_of_accepted_read he (acceptedRegion_vwin r hk)]
    exact congrArg _ (State.readWindow_above (s := { s with events := es }) hr hC)
  · rw [step_of_accepted_read he (acceptedRegion_vsig r)]
    exact congrArg _ (State.readSig_free (s := { s with events := es }) h)
  · rw [step_of_accepted_read (r := .tlen) he rfl]
    exact congrArg _ (State.readRegion_text_free (s := { s with events := es }) h (.inl rfl) _ _)
  · rw [step_of_accepted_read he (acceptedRegion_tb_iff.mpr ha)]
    exact congrArg _ (State.readRegion_text_free (s := { s with events := es }) h (.inr rfl) _ _)

/-! ## CTRL -/

theorem State.writeCtrl_softReset (s : State) {v : Word} (h : v.getLsbD 1 = true) : s.writeCtrl v = s.softReset := if_pos h

theorem State.writeCtrl_clear (s : State) {v : Word} (h1 : v.getLsbD 1 = false) (h0 : v.getLsbD 0 = true) :
    s.writeCtrl v = s.clearStatus := by simp only [State.writeCtrl, h1, h0]; rfl

theorem State.writeCtrl_none (s : State) {v : Word} (h1 : v.getLsbD 1 = false) (h0 : v.getLsbD 0 = false) :
    s.writeCtrl v = s := by simp only [State.writeCtrl, h1, h0]; rfl

/-- A soft reset makes the destinations in flight unwritten and keeps every other register (10_state.md R43). -/
theorem State.getV_softReset (s : State) (r : RegIx) :
    s.softReset.getV r = if r ∈ s.inFlightDests then ⟨0, false⟩ else s.getV r := by
  rw [← State.getV_unwriteRegs, State.softReset, State.resetControl_getV, State.abort]
  split <;> rfl

/-- A soft reset makes TB unwritten where FMT is in flight and keeps every other byte (70_reset_and_hazards.md R227). -/
theorem State.read_softReset (s : State) (a : Nat) :
    s.softReset.mem.read a =
      if s.inFlightText = true ∧ tbOffset ≤ a ∧ a < tbOffset + tbSize then none else s.mem.read a := by
  obtain ⟨v, hv⟩ := s.unwriteRegs_eq s.inFlightDests
  rw [State.softReset, State.resetControl_mem, State.abort, hv]
  by_cases htext : s.inFlightText = true
  · rw [if_pos htext]
    change (s.mem.erase tbOffset (tbOffset + tbSize)).read a = _
    split
    · next h => exact Memory.read_erase_inside _ h.2
    · next h => exact Memory.read_erase_outside _ fun hin => h ⟨htext, hin⟩
  · rw [if_neg htext, if_neg fun h => htext h.1]

theorem State.softReset_events (s : State) : s.softReset.events = s.events := by
  obtain ⟨_, _, h⟩ := s.abort_eq
  rw [State.softReset, State.resetControl_events, h]

/-- Settles O52: the three cases of CTRL, and what a soft reset makes unwritten. -/
theorem controlClearsAndResets : Obligations.ControlClearsAndResets := by
  intro s v es he
  have hstep := step_of_accepted_write (r := .ctrl) he rfl
  rw [State.writeRegion] at hstep
  refine ⟨fun h1 h0 => ?_, fun h1 h0 => ?_, fun h1 => ?_⟩
  · rw [hstep, State.writeCtrl_none _ h1 h0]
  · rw [hstep, State.writeCtrl_clear _ h1 h0]
    rfl
  · rw [State.writeCtrl_softReset _ h1] at hstep
    have hv := State.getV_softReset { s with events := es }
    have hread := State.read_softReset { s with events := es }
    refine ⟨_, hstep, rfl, rfl, rfl, rfl, rfl, State.softReset_events _, fun r hr => ?_, fun r hr => ?_,
      fun a htext hlo hhi => ?_, fun a ha => ?_⟩
    · exact congrArg VReg.written ((hv r).trans (if_pos hr))
    · exact (hv r).trans (if_neg hr)
    · exact (hread a).trans (if_pos ⟨htext, hlo, hhi⟩)
    · refine (hread a).trans (if_neg ?_)
      rintro ⟨htext, hlo, hhi⟩
      rcases ha with h | h
      · exact Bool.false_ne_true (h.symm.trans htext)
      · omega

/-! ## LB and TB -/

/-- An access to LB, or to TB under `P`, reaches that buffer. -/
theorem acceptedRegion_of_bufferAccess {off : Nat} {w : Width} {P : Prop} (h : lbAccess off w ∨ tbAccess off w ∧ P) :
    ∃ r, acceptedRegion off w = some r ∧ (r = .lb ∨ r = .tb ∧ P) := by
  rcases h with h | ⟨h, hP⟩
  · exact ⟨.lb, acceptedRegion_lb_iff.mpr h, .inl rfl⟩
  · exact ⟨.tb, acceptedRegion_tb_iff.mpr h, .inr ⟨rfl, hP⟩⟩

/-- The step of a read of LB, or of TB while no FMT is in flight (20_memory.md R63). -/
theorem step_of_buffer_read {s : State} {es : List Event} {off : Nat} {w : Width}
    (h : lbAccess off w ∨ tbAccess off w ∧ s.inFlightText = false) (he : s.events = .read (s.base + off) w :: es) :
    step s = .next (State.readBuffer { s with events := es } off w) := by
  obtain ⟨r, ha, hr⟩ := acceptedRegion_of_bufferAccess h
  rw [step_of_accepted_read he ha]
  rcases hr with rfl | ⟨rfl, htext⟩
  · rfl
  · have htext' : State.inFlightText { s with events := es } = false := htext
    rw [State.readRegion, htext']
    rfl

/-- The step of a write of LB or TB while idle stores the bytes and leaves the block idle (20_memory.md R56, R62). -/
theorem step_of_idle_buffer_write {s : State} {es : List Event} {off : Nat} {w : Width} {v : Word} (hs : s.latch = none)
    (h : lbAccess off w ∨ tbAccess off w) (he : s.events = .write (s.base + off) w v :: es) :
    ∃ t, step s = .next t ∧ t.mem = s.mem.writeBytes off (bytesOf v.toNat w.bytes) ∧ t.latch = none ∧ t.base = s.base ∧
      t.events = es := by
  have hbusy : State.busy { s with events := es } = false := by simp [State.busy, hs]
  obtain ⟨r, ha, hr⟩ := acceptedRegion_of_bufferAccess (P := True) (h.imp_right (⟨·, trivial⟩))
  have hwrite : State.writeRegion { s with events := es } r off w v = State.writeBuffer { s with events := es } off w v := by
    rcases hr with rfl | ⟨rfl, _⟩ <;> rw [State.writeRegion, State.guarded, hbusy] <;> rfl
  exact ⟨_, step_of_accepted_write he ha, by rw [hwrite]; exact ⟨rfl, hs, rfl, rfl⟩⟩

theorem State.inFlightText_of_idle {s : State} (h : s.latch = none) : s.inFlightText = false := by
  simp [State.inFlightText, State.inFlight, h]

/-- Bytes just written are what the host reads there. -/
theorem State.hostBytes_of_writeBytes {s : State} {m : Memory} {x : Nat} {bs : List Byte} (h : s.mem = m.writeBytes x bs)
    (k : Nat) : s.hostBytes x k bs.length = bs :=
  List.ext_getElem (s.hostBytes_length x k bs.length) fun j hj hj' => by
    rw [State.hostBytes_get, h, Memory.read_writeBytes_same m x j bs hj']
    rfl

/-- Settles O54: the regions by the offset map, a read by its bytes, and a read after a write by the laws of memory. -/
theorem bufferReadAfterWrite : Obligations.BufferReadAfterWrite := by
  refine ⟨fun off w => ⟨acceptedRegion_lb_iff, acceptedRegion_tb_iff⟩, fun s off w es h he => ?_,
    fun s off w v es hs h he => ?_⟩
  · exact ⟨State.hostBytes { s with events := es } off s.draws w.bytes, State.hostBytes_length _ _ _ _,
      fun j hj => State.hostBytes_get _ _ _ _ _ hj, step_of_buffer_read h he⟩
  · obtain ⟨t, hstep, hmem, hlatch, hbase, hevents⟩ := step_of_idle_buffer_write hs h he
    have hlen := bytesOf_length v.toNat w.bytes
    have hbytes := State.hostBytes_of_writeBytes (s := { t with events := es }) hmem t.draws
    rw [hlen] at hbytes
    refine ⟨t, _, hstep, step_of_buffer_read (es := es) (h.imp_right (⟨·, State.inFlightText_of_idle hlatch⟩))
      (by rw [hbase]; exact hevents), fun j hj => ?_, fun a ha => ?_, ?_⟩
    · rw [hmem, Memory.read_writeBytes_same _ _ _ _ (by omega), bytesOf_get]
    · rw [hmem, Memory.read_writeBytes_other _ _ _ _ (by omega)]
    · change Resp.data (BitVec.ofNat 32 (ofBytes (State.hostBytes { t with events := es } off t.draws w.bytes))) = _
      rw [hbytes, ofBytes_bytesOf]

end Sys2Proof.Machine
end

section
/-! What commands leave alone in LB, TB and TLEN: a completion writes text for FMT alone (20_memory.md R58, 49_radix.md R189,
60_exceptions.md R197). -/

namespace Sys2Proof.Machine

/-- A commit without text leaves the buffers and TLEN alone. -/
theorem State.commit_of_no_text (s : State) {w : Writes} (h : w.text = none) :
    (s.commit w).tlen = s.tlen ∧ (s.commit w).mem = s.mem := by
  obtain ⟨v, hv⟩ := s.setRegs_eq w.regs
  rw [State.commit, hv, h]
  exact ⟨rfl, rfl⟩

/-- A completion whose result has no text leaves the buffers and TLEN alone, whether it commits or fails. -/
theorem State.complete_of_no_text (s : State) {r : Except ErrorKind Writes} (h : ∀ w, r = .ok w → w.text = none) :
    (s.complete r).tlen = s.tlen ∧ (s.complete r).mem = s.mem := by
  rcases s.complete_cases r with ⟨w, hr, e⟩ | ⟨k, _, e⟩ <;> rw [e]
  · exact s.commit_of_no_text (h w hr)
  · exact ⟨s.raise_tlen k, s.raise_mem k⟩

/-- Settles O31: the shape of a command says that its result has no text, and only text reaches the buffers and TLEN. -/
theorem commandFrameMemory : Obligations.CommandFrameMemory := by
  intro i s t h hi
  obtain ⟨d, f, r, he, _, hw⟩ := exec_shape i s
  rw [he] at h
  cases h
  obtain ⟨htlen, hmem⟩ := (s.drawn d f).complete_of_no_text (r := r) fun w hr => by simpa [hi] using (hw w hr).2
  exact ⟨htlen, fun a => congrArg (Memory.read · a) hmem⟩

/-- FMT fails for its radix, or commits the string of the value read as its text (49_radix.md R189). -/
theorem execFmt_cases (ra : RegIx) (imm : BitVec 8) (s : State) :
    execFmt ra imm s = .next ((s.readV ra).2.raise .invalidRadix) ∨
      execFmt ra imm s = .next ((s.readV ra).2.setText (formatValue imm.toNat (s.readV ra).1)).succeed := by
  unfold execFmt
  dsimp only
  split
  · exact .inl rfl
  · exact .inr rfl

/-- Settles O32: a failure leaves the state that was read, and a success writes its string from the start of TB. -/
theorem fmtFrameMemory : Obligations.FmtFrameMemory := by
  intro ra imm s t h
  obtain ⟨d, f, hread, _⟩ := s.readV_drawn ra
  rcases execFmt_cases ra imm s with e | e <;> cases e.symm.trans h <;> rw [hread]
  · exact ⟨fun h0 => absurd h0 ErrorKind.invalidRadix.code_ne_zero, fun _ => ⟨rfl, fun _ => rfl⟩⟩
  · exact ⟨fun _ a ha => Memory.read_writeBytes_other _ _ _ _ ha, fun h0 => absurd rfl h0⟩

end Sys2Proof.Machine
end

section
/-! Host accesses and core steps: which accesses are accepted, what a write does while busy and while idle, and what a read
leaves alone (20_memory.md R46 to R62, 60_exceptions.md R209, R216, R217). -/

namespace Sys2Proof.Machine

/-! ## Writes -/

/-- The regions whose writes are lost while busy: every writable region but CTRL (20_memory.md R62). -/
def Region.lostWhileBusy : Region → Bool
  | .cmd | .argLo | .argHi | .tlen | .lb | .tb => true
  | _ => false

/-- The regions that a write leaves alone: STATUS, CAP, VWIN and VSIG (20_memory.md R56). -/
def Region.readOnly : Region → Bool
  | .status | .cap | .vwin _ _ | .vsig _ => true
  | _ => false

theorem State.guarded_of_busy {s : State} (h : s.busy = true) (t : State) : s.guarded t = s.markOverrun := if_pos h

theorem State.guarded_of_idle {s : State} (h : s.busy = false) (t : State) : s.guarded t = t :=
  if_neg (ne_true_of_eq_false h)

/-- A lost write sets OVR and does nothing else (20_memory.md R62). -/
theorem State.writeRegion_of_busy {s : State} {r : Region} (h : s.busy = true) (hr : r.lostWhileBusy = true) (off : Nat)
    (w : Width) (v : Word) : s.writeRegion r off w v = s.markOverrun := by
  cases r with
  | cmd | argLo | argHi | tlen | lb | tb => exact s.guarded_of_busy h _
  | status | ctrl | cap | vwin | vsig => cases hr

theorem State.writeRegion_of_readOnly {r : Region} (hr : r.readOnly = true) (s : State) (off : Nat) (w : Width) (v : Word) :
    s.writeRegion r off w v = s := by
  cases r with
  | status | cap | vwin | vsig => rfl
  | cmd | ctrl | argLo | argHi | tlen | lb | tb => cases hr

/-- CMD, ARG, TLEN, LB and TB stand at their offsets (20_memory.md R46). -/
theorem exists_acceptedRegion_lostWhileBusy {off : Nat} {w : Width}
    (h : w = .b32 ∧ (off = 0x0 ∨ off = 0x10 ∨ off = 0x14 ∨ off = 0x18) ∨ lbAccess off w ∨ tbAccess off w) :
    ∃ r, acceptedRegion off w = some r ∧ r.lostWhileBusy = true := by
  rcases h with ⟨rfl, rfl | rfl | rfl | rfl⟩ | h | h
  · exact ⟨.cmd, rfl, rfl⟩
  · exact ⟨.argLo, rfl, rfl⟩
  · exact ⟨.argHi, rfl, rfl⟩
  · exact ⟨.tlen, rfl, rfl⟩
  · exact ⟨.lb, acceptedRegion_lb_iff.mpr h, rfl⟩
  · exact ⟨.tb, acceptedRegion_tb_iff.mpr h, rfl⟩

/-- The windows fill the offsets from 0x20000 to 0x3003F (20_memory.md R46). -/
theorem exists_regionAt_window {off : Nat} (hlo : 0x20000 ≤ off) (hhi : off < 0x30040) :
    ∃ r, regionAt off = some r ∧ r.readOnly = true := by
  rw [regionAt, if_neg (by omega), if_neg (by omega), if_neg (by omega)]
  by_cases hwin : off < 0x30000
  · exact ⟨_, if_pos ⟨hlo, hwin⟩, rfl⟩
  · rw [if_neg (by omega)]
    exact ⟨_, if_pos ⟨not_lt.mp hwin, hhi⟩, rfl⟩

/-- STATUS, CAP, VWIN and VSIG stand at their offsets (20_memory.md R46). -/
theorem exists_acceptedRegion_readOnly {off : Nat} (halign : off % 4 = 0)
    (h : off = 0x4 ∨ off = 0xC ∨ (0x20000 ≤ off ∧ off < 0x30040)) :
    ∃ r, acceptedRegion off .b32 = some r ∧ r.readOnly = true := by
  rcases h with rfl | rfl | ⟨hlo, hhi⟩
  · exact ⟨.status, rfl, rfl⟩
  · exact ⟨.cap, rfl, rfl⟩
  · obtain ⟨r, hr, hro⟩ := exists_regionAt_window hlo hhi
    exact ⟨r, acceptedRegion_eq_some.mpr ⟨hr, by cases r <;> rfl, halign⟩, hro⟩

/-- Settles O45: each access reaches a region whose write is lost while busy, and the three registers store while idle. -/
theorem busyWritesAreLost : Obligations.BusyWritesAreLost := by
  refine ⟨fun s off w v es he hbusy h => ?_, fun s v es hidle => ⟨fun he => ?_, fun he => ?_, fun he => ?_⟩⟩
  · obtain ⟨r, ha, hr⟩ := exists_acceptedRegion_lostWhileBusy h
    rw [step_of_accepted_write he ha, State.writeRegion_of_busy (s := { s with events := es }) hbusy hr]
    rfl
  all_goals have hguard := State.guarded_of_idle (s := { s with events := es }) hidle
  · rw [step_of_accepted_write (r := .argLo) he rfl, State.writeRegion, hguard]
  · rw [step_of_accepted_write (r := .argHi) he rfl, State.writeRegion, hguard]
  · rw [step_of_accepted_write (r := .tlen) he rfl, State.writeRegion, hguard]

/-- Settles O46: each of the offsets reaches a region that a write leaves alone. -/
theorem readOnlyWritesAreIgnored : Obligations.ReadOnlyWritesAreIgnored := by
  intro s off v es he halign h
  obtain ⟨r, ha, hr⟩ := exists_acceptedRegion_readOnly halign h
  rw [step_of_accepted_write he ha, State.writeRegion_of_readOnly hr]

/-- Settles O44: CMD stands at offset 0, and its write while idle is the issue. -/
theorem idleCommandWriteIssues : Obligations.IdleCommandWriteIssues := by
  intro s w es he hs
  have hidle : State.busy { s with events := es } = false := congrArg Option.isSome hs
  rw [step_of_accepted_write (off := 0) (r := .cmd) he rfl, State.writeRegion, State.guarded_of_idle hidle]
  rfl

/-! ## Reads -/

/-- Settles O47: a read that answers is the read of a region, which changes the answer and the draws alone. -/
theorem readsHaveNoSideEffect : Obligations.ReadsHaveNoSideEffect := by
  intro s t addr w es he h
  rw [step_of_read he] at h
  rcases State.hostRead_cases { s with events := es } addr w with ⟨_, e⟩ | ⟨_, _, _, e⟩ | ⟨off, r, _, _, e⟩ <;>
    cases e.symm.trans h
  obtain ⟨resp, draws, hr⟩ := State.readRegion_eq { s with events := es } r off w
  rw [hr]

/-! ## Accepted accesses -/

/-- TB takes every width, every other region 32 bits alone (20_memory.md R54). -/
theorem Region.accepts_iff {r : Region} {w : Width} : r.accepts w = true ↔ r = .tb ∨ w = .b32 := by
  cases r <;> cases w <;> simp [Region.accepts]

/-- The offsets that are not reserved (20_memory.md R46). -/
theorem regionAt_isSome_iff {off : Nat} :
    (regionAt off).isSome = true ↔ off < 0x1C ∨ (0x1000 ≤ off ∧ off < 0x2000) ∨ (0x10000 ≤ off ∧ off < 0x20000) ∨
      (0x20000 ≤ off ∧ off < 0x30040) := by
  unfold regionAt
  split_ifs with hword hlb htb hvwin hvsig
  · refine iff_of_true ?_ (.inl hword)
    split <;> rfl
  · exact iff_of_true rfl (by omega)
  · exact iff_of_true rfl (by omega)
  · exact iff_of_true rfl (by omega)
  · exact iff_of_true rfl (by omega)
  · exact iff_of_false Bool.false_ne_true (by omega)

/-- An access is accepted at an offset that is not reserved, with a width that stands there, aligned (20_memory.md R46, R49,
R54). -/
theorem acceptedRegion_isSome_iff {off : Nat} {w : Width} :
    (acceptedRegion off w).isSome = true ↔
      (w = .b32 ∧ off % 4 = 0 ∧ (off < 0x1C ∨ (0x1000 ≤ off ∧ off < 0x2000) ∨ (0x20000 ≤ off ∧ off < 0x30040))) ∨
        ((0x10000 ≤ off ∧ off < 0x20000) ∧ off % w.bytes = 0) := by
  constructor
  · intro h
    obtain ⟨r, ha⟩ := Option.isSome_iff_exists.mp h
    obtain ⟨hr, hw, halign⟩ := acceptedRegion_eq_some.mp ha
    rcases Region.accepts_iff.mp hw with rfl | rfl
    · exact .inr ⟨(regionAt_buffer hr).2 rfl, halign⟩
    · rcases regionAt_isSome_iff.mp (Option.isSome_of_mem hr) with hword | hlb | htb | hwin
      · exact .inl ⟨rfl, halign, .inl hword⟩
      · exact .inl ⟨rfl, halign, .inr (.inl hlb)⟩
      · exact .inr ⟨htb, halign⟩
      · exact .inl ⟨rfl, halign, .inr (.inr hwin)⟩
  · rintro (⟨rfl, halign, h⟩ | ⟨h, halign⟩)
    · obtain ⟨r, hr⟩ := Option.isSome_iff_exists.mp (regionAt_isSome_iff.mpr (h.imp_right (Or.imp_right .inr)))
      exact Option.isSome_of_mem (acceptedRegion_eq_some.mpr ⟨hr, Region.accepts_iff.mpr (.inr rfl), halign⟩)
    · exact Option.isSome_of_mem (acceptedRegion_tb_iff.mpr ⟨halign, h⟩)

section
variable {s : State} {es : List Event} {off addr : Nat} {w : Width} {v : Word}

/-- A read that no region accepts is a bus error (20_memory.md R49). -/
theorem step_of_unaccepted_read (h : s.events = .read (s.base + off) w :: es) (hoff : off < windowSize)
    (ha : acceptedRegion off w = none) : step s = .fault (.busError off) := by
  have ho : State.offsetOf { s with events := es } (s.base + off) = some off :=
    State.offsetOf_base { s with events := es } hoff
  rw [step_of_read h, State.hostRead, ho]
  simp only [ha]

/-- A write that no region accepts is a bus error (20_memory.md R49). -/
theorem step_of_unaccepted_write (h : s.events = .write (s.base + off) w v :: es) (hoff : off < windowSize)
    (ha : acceptedRegion off w = none) : step s = .fault (.busError off) := by
  have ho : State.offsetOf { s with events := es } (s.base + off) = some off :=
    State.offsetOf_base { s with events := es } hoff
  rw [step_of_write h, State.hostWrite, ho]
  simp only [ha]

/-- A bus address outside the window has no offset (20_memory.md R45). -/
theorem State.offsetOf_outside (h : addr < s.base ∨ s.base + windowSize ≤ addr) : s.offsetOf addr = none :=
  if_neg (by omega)

/-- A read outside the window is not the block's (60_exceptions.md R217). -/
theorem step_of_outside_read (h : s.events = .read addr w :: es) (hout : addr < s.base ∨ s.base + windowSize ≤ addr) :
    step s = .refused (.outsideWindow addr) := by
  rw [step_of_read h, State.hostRead, State.offsetOf_outside (s := { s with events := es }) hout]

/-- A write outside the window is not the block's (60_exceptions.md R217). -/
theorem step_of_outside_write (h : s.events = .write addr w v :: es) (hout : addr < s.base ∨ s.base + windowSize ≤ addr) :
    step s = .refused (.outsideWindow addr) := by
  rw [step_of_write h, State.hostWrite, State.offsetOf_outside (s := { s with events := es }) hout]

end

/-- Settles O51: the offset map with the widths, and the two answers of an access that reaches no region. -/
theorem acceptedAccesses : Obligations.AcceptedAccesses :=
  ⟨fun _ _ => acceptedRegion_isSome_iff,
    fun _ _ _ _ _ hoff ha => ⟨fun he => step_of_unaccepted_read he hoff ha, fun he => step_of_unaccepted_write he hoff ha⟩,
    fun _ _ _ _ _ hout => ⟨fun he => step_of_outside_read he hout, fun he => step_of_outside_write he hout⟩⟩

/-! ## Core steps -/

/-- The core step of a latched command runs it (20_memory.md R61). -/
theorem State.coreStep_of_latch {s : State} {w : Word} {i : Instr} (h : s.latch = some w) (hd : decode w = some i) :
    s.coreStep = exec i s := by
  simp only [State.coreStep, h, State.completeWord, hd]

/-- The core step of an idle block holds the state (60_exceptions.md R216). -/
theorem State.coreStep_of_idle {s : State} (h : s.latch = none) : s.coreStep = .next s := by
  simp only [State.coreStep, h]

/-- Settles O5: a core event, and no event at all, are both the core step. -/
theorem stepRunsDecodedCommand : Obligations.StepRunsDecodedCommand := by
  refine ⟨fun s w i es hl hd he => ?_, fun s w i hl hd he => ?_, fun s hl he => ?_⟩
  · rw [step_of_core he, State.coreStep_of_latch (s := { s with events := es }) hl hd]
  · rw [step_of_no_event he, State.coreStep_of_latch hl hd]
  · rw [step_of_no_event he, State.coreStep_of_idle hl]

end Sys2Proof.Machine
end

section
/-! The command word: decoder and encoder are inverse to each other, and the decoder follows the opcode table
(30_encoding.md R75 to R81, R85). -/

namespace Sys2Proof

/-! ## Fields -/

/-- A word is the packing of its six fields (30_encoding.md R76, R85). -/
theorem pack_fields (w : Word) :
    pack (fieldOp w) (fieldRd w) (fieldRa w) (fieldRb w) (fieldRc w) (fieldImm w) = w := by
  apply BitVec.eq_of_toNat_eq
  have := w.isLt
  simp only [pack, fieldOp, fieldRd, fieldRa, fieldRb, fieldRc, fieldImm, BitVec.toNat_ofNat]
  omega

theorem eq_iff_fields {w v : Word} :
    w = v ↔ fieldOp w = fieldOp v ∧ fieldRd w = fieldRd v ∧ fieldRa w = fieldRa v ∧ fieldRb w = fieldRb v ∧
      fieldRc w = fieldRc v ∧ fieldImm w = fieldImm v := by
  refine ⟨fun h => by simp [h], fun ⟨hop, hrd, hra, hrb, hrc, himm⟩ => ?_⟩
  rw [← pack_fields w, hop, hrd, hra, hrb, hrc, himm, pack_fields]

theorem fieldOp_lt (w : Word) : fieldOp w < 2 ^ 8 := by
  have := w.isLt
  simp only [fieldOp]
  omega

theorem fieldOp_and_ones (w : Word) : fieldOp w &&& 0xFF = fieldOp w :=
  (Nat.and_two_pow_sub_one_eq_mod _ 8).trans (Nat.mod_eq_of_lt (fieldOp_lt w))

@[simp] theorem RegIx.and_zero (x : RegIx) : x &&& 0 = 0 := by revert x; decide

@[simp] theorem RegIx.and_ones (x : RegIx) : x &&& 15 = x := by revert x; decide

@[simp] theorem imm_and_ones (x : BitVec 8) : x &&& 255#8 = x := BitVec.and_allOnes

/-- Four bits of a conjunction are the conjunction of the four bits. -/
theorem nibble_and (a b k : Nat) : (a &&& b) / 2 ^ k % 16 = (a / 2 ^ k % 16) &&& (b / 2 ^ k % 16) := by
  rw [Nat.and_div_two_pow, show 16 = 2 ^ 4 from rfl, Nat.and_mod_two_pow]

/-- The fields of a masked word are the masked fields. -/
theorem fields_and (w m : Word) :
    fieldOp (w &&& m) = fieldOp w &&& fieldOp m ∧ fieldRd (w &&& m) = fieldRd w &&& fieldRd m ∧
      fieldRa (w &&& m) = fieldRa w &&& fieldRa m ∧ fieldRb (w &&& m) = fieldRb w &&& fieldRb m ∧
      fieldRc (w &&& m) = fieldRc w &&& fieldRc m ∧ fieldImm (w &&& m) = fieldImm w &&& fieldImm m := by
  refine ⟨?_, Fin.ext ?_, Fin.ext ?_, Fin.ext ?_, Fin.ext ?_, BitVec.ofNat_and ..⟩
  · exact Nat.and_div_two_pow ..
  all_goals
    rw [Fin.and_val]
    exact nibble_and ..

/-! ## The decoding of an encoded command -/

section
variable {op : Nat} {rd ra rb rc : RegIx} {imm : BitVec 8}

theorem formatN_pack (mk : RegIx → Instr) : formatN mk (pack op rd 0 0 0 0) = some (mk rd) := by
  simp [formatN, fields_pack]

theorem formatR1_pack (mk : RegIx → RegIx → Instr) : formatR1 mk (pack op rd ra 0 0 0) = some (mk rd ra) := by
  simp [formatR1, fields_pack]

theorem formatR2_pack (mk : RegIx → RegIx → RegIx → Instr) :
    formatR2 mk (pack op rd ra rb 0 0) = some (mk rd ra rb) := by
  simp [formatR2, fields_pack]

theorem formatR3_pack (mk : RegIx → RegIx → RegIx → RegIx → Instr) :
    formatR3 mk (pack op rd ra rb rc 0) = some (mk rd ra rb rc) := by
  simp [formatR3, fields_pack]

theorem formatD_pack (mk : RegIx → RegIx → RegIx → RegIx → Instr) (h : rd ≠ rc) :
    formatD mk (pack op rd ra rb rc 0) = some (mk rd rc ra rb) := by
  simp [formatD, fields_pack, h]

theorem formatRI_pack (mk : RegIx → BitVec 8 → Instr) : formatRI mk (pack op rd 0 0 0 imm) = some (mk rd imm) := by
  simp [formatRI, fields_pack]

theorem formatSI_pack (mk : RegIx → BitVec 8 → Instr) : formatSI mk (pack op 0 ra 0 0 imm) = some (mk ra imm) := by
  simp [formatSI, fields_pack]

end

theorem fieldOp_encode (i : Instr) : fieldOp (encode i) = Laws.OpcodeByte.opcodeOf i := by
  cases i <;> exact fieldOp_pack (by decide) ..

/-- Settles O2: the opcode of the encoded word leads to the command's own format, which finds its unused fields zero. -/
theorem decodeOfEncode : Obligations.DecodeOfEncode := by
  intro i hwf
  have hop := fieldOp_encode i
  cases i <;> simp only [decode, hop, Laws.OpcodeByte.opcodeOf]
  case sets | setu | ldlimbs => exact formatN_pack _
  case mov | neg | abs | inc | dec => exact formatR1_pack _
  case cmpeq | cmpne | cmplt | cmpgt | cmple | cmpge | min | max | add | sub | shl | shlw | shr | mul | div | mod | gcd |
      modinv | jacobi => exact formatR2_pack _
  case modpow => exact formatR3_pack _
  case divmod => exact formatD_pack _ (by simpa [Instr.wellFormed] using hwf)
  case parse => exact formatRI_pack _
  case fmt => exact formatSI_pack _

/-! ## The rows of the opcode table -/

/-- The opcode of a row of the table (30_encoding.md R80). -/
def OpcodeRow.opcode (r : OpcodeRow) : Nat := fieldOp r.pattern

/-- The 31 opcodes, in the order of the rows: each stands once (30_encoding.md R80). -/
theorem opcodeRows_map_opcode : opcodeRows.map OpcodeRow.opcode =
    [0x01, 0x02, 0x03, 0x04, 0x05, 0x10, 0x11, 0x22, 0x23,
      0x12, 0x13, 0x14, 0x15, 0x16, 0x17, 0x18, 0x19, 0x20, 0x21, 0x30, 0x31, 0x32, 0x40, 0x50, 0x51, 0x60, 0x61, 0x63,
      0x62, 0x52, 0x70] := by decide

/-- Every row's mask holds the whole opcode, and its match is zero outside the opcode. -/
theorem opcodeRows_opcode_only :
    ∀ r ∈ opcodeRows, fieldOp r.mask = 0xFF ∧ r.pattern = pack r.opcode 0 0 0 0 0 := by decide

theorem OpcodeRow.covers_iff {r : OpcodeRow} (hr : r ∈ opcodeRows) (w : Word) :
    r.covers w = true ↔ fieldOp w = r.opcode ∧ fieldRd w &&& fieldRd r.mask = 0 ∧ fieldRa w &&& fieldRa r.mask = 0 ∧
      fieldRb w &&& fieldRb r.mask = 0 ∧ fieldRc w &&& fieldRc r.mask = 0 ∧ fieldImm w &&& fieldImm r.mask = 0 := by
  obtain ⟨hmask, hpat⟩ := opcodeRows_opcode_only r hr
  obtain ⟨hrd, hra, hrb, hrc, himm⟩ := hpat ▸ fields_pack r.opcode 0 0 0 0 0
  rw [OpcodeRow.covers, beq_iff_eq, eq_iff_fields]
  simp only [fields_and, hmask, fieldOp_and_ones, hrd, hra, hrb, hrc, himm, OpcodeRow.opcode]

theorem OpcodeRow.opcode_of_covers {r : OpcodeRow} (hr : r ∈ opcodeRows) {w : Word} (hcov : r.covers w = true) :
    r.opcode = fieldOp w :=
  ((OpcodeRow.covers_iff hr w).mp hcov).1.symm

/-- The table has a row of opcode `op` whose mask selects of the other fields the bits that `rd`, `ra`, `rb`, `rc` and
`imm` select. -/
abbrev HasRow (op : Nat) (rd ra rb rc : RegIx) (imm : BitVec 8) : Prop :=
  ∃ r ∈ opcodeRows, r.opcode = op ∧ r.mask = pack 0xFF rd ra rb rc imm

/-- The fields of `w`, but for the opcode, are zero in the bits selected (30_encoding.md R77). -/
def MaskedZero (w : Word) (rd ra rb rc : RegIx) (imm : BitVec 8) : Prop :=
  fieldRd w &&& rd = 0 ∧ fieldRa w &&& ra = 0 ∧ fieldRb w &&& rb = 0 ∧ fieldRc w &&& rc = 0 ∧ fieldImm w &&& imm = 0

/-- What the decoder answers, `o`, for a word whose opcode is in the table: the command that encodes to the word, where the
row covers the word and the command is well-formed. -/
def ReadsTable (w : Word) (o : Option Instr) : Prop :=
  ∃ r ∈ opcodeRows, r.opcode = fieldOp w ∧
    ∃ i, (r.covers w = true → encode i = w) ∧ ∀ j, o = some j ↔ (r.covers w = true ∧ i.wellFormed = true) ∧ i = j

/-! ## The formats read the table -/

section
variable {w : Word} {op : Nat} (hop : fieldOp w = op)
include hop

/-- A format reads the table when it asks for zeros just where its row's mask does, and its command's word holds the fields
of `w`. The lemmas below say so for each format (30_encoding.md R77). -/
theorem readsTable_of_row {rd ra rb rc : RegIx} {imm : BitVec 8} {i : Instr} {o : Option Instr}
    (hrow : HasRow op rd ra rb rc imm) (henc : MaskedZero w rd ra rb rc imm →
      encode i = pack op (fieldRd w) (fieldRa w) (fieldRb w) (fieldRc w) (fieldImm w))
    (ho : ∀ j, o = some j ↔ (MaskedZero w rd ra rb rc imm ∧ i.wellFormed = true) ∧ i = j) : ReadsTable w o := by
  obtain ⟨r, hr, rfl, hmask⟩ := hrow
  obtain ⟨hrd, hra, hrb, hrc, himm⟩ := hmask ▸ fields_pack 0xFF rd ra rb rc imm
  have hcov : r.covers w = true ↔ MaskedZero w rd ra rb rc imm := by
    simp only [OpcodeRow.covers_iff hr, hop, true_and, hrd, hra, hrb, hrc, himm, MaskedZero]
  exact ⟨r, hr, hop.symm, i, fun h => (henc (hcov.mp h)).trans (hop ▸ pack_fields w), fun j => by rw [ho, hcov]⟩

theorem formatN_reads {mk : RegIx → Instr} (hrow : HasRow op 0 15 15 15 0xFF)
    (hmk : ∀ rd, (mk rd).wellFormed = true ∧ encode (mk rd) = pack op rd 0 0 0 0) :
    ReadsTable w (formatN mk w) :=
  readsTable_of_row hop hrow (i := mk (fieldRd w)) (by simp +contextual [MaskedZero, hmk])
    (by simp [MaskedZero, formatN, hmk, and_assoc])

theorem formatR1_reads {mk : RegIx → RegIx → Instr} (hrow : HasRow op 0 0 15 15 0xFF)
    (hmk : ∀ rd ra, (mk rd ra).wellFormed = true ∧ encode (mk rd ra) = pack op rd ra 0 0 0) :
    ReadsTable w (formatR1 mk w) :=
  readsTable_of_row hop hrow (i := mk (fieldRd w) (fieldRa w)) (by simp +contextual [MaskedZero, hmk])
    (by simp [MaskedZero, formatR1, hmk, and_assoc])

theorem formatR2_reads {mk : RegIx → RegIx → RegIx → Instr} (hrow : HasRow op 0 0 0 15 0xFF)
    (hmk : ∀ rd ra rb, (mk rd ra rb).wellFormed = true ∧ encode (mk rd ra rb) = pack op rd ra rb 0 0) :
    ReadsTable w (formatR2 mk w) :=
  readsTable_of_row hop hrow (i := mk (fieldRd w) (fieldRa w) (fieldRb w)) (by simp +contextual [MaskedZero, hmk])
    (by simp [MaskedZero, formatR2, hmk, and_assoc])

theorem formatR3_reads {mk : RegIx → RegIx → RegIx → RegIx → Instr} (hrow : HasRow op 0 0 0 0 0xFF)
    (hmk : ∀ rd ra rb rc, (mk rd ra rb rc).wellFormed = true ∧ encode (mk rd ra rb rc) = pack op rd ra rb rc 0) :
    ReadsTable w (formatR3 mk w) :=
  readsTable_of_row hop hrow (i := mk (fieldRd w) (fieldRa w) (fieldRb w) (fieldRc w))
    (by simp +contextual [MaskedZero, hmk]) (by simp [MaskedZero, formatR3, hmk])

theorem formatRI_reads {mk : RegIx → BitVec 8 → Instr} (hrow : HasRow op 0 15 15 15 0)
    (hmk : ∀ rd imm, (mk rd imm).wellFormed = true ∧ encode (mk rd imm) = pack op rd 0 0 0 imm) :
    ReadsTable w (formatRI mk w) :=
  readsTable_of_row hop hrow (i := mk (fieldRd w) (fieldImm w)) (by simp +contextual [MaskedZero, hmk])
    (by simp [MaskedZero, formatRI, hmk, and_assoc])

theorem formatSI_reads {mk : RegIx → BitVec 8 → Instr} (hrow : HasRow op 15 0 15 15 0)
    (hmk : ∀ ra imm, (mk ra imm).wellFormed = true ∧ encode (mk ra imm) = pack op 0 ra 0 0 imm) :
    ReadsTable w (formatSI mk w) :=
  readsTable_of_row hop hrow (i := mk (fieldRa w) (fieldImm w)) (by simp +contextual [MaskedZero, hmk])
    (by simp [MaskedZero, formatSI, hmk, and_assoc])

theorem formatD_reads (hrow : HasRow op 0 0 0 0 0xFF)
    (hmk : ∀ rd rc ra rb, encode (.divmod rd rc ra rb) = pack op rd ra rb rc 0) :
    ReadsTable w (formatD .divmod w) :=
  readsTable_of_row hop hrow (i := .divmod (fieldRd w) (fieldRc w) (fieldRa w) (fieldRb w))
    (by simp +contextual [MaskedZero, hmk])
    (by simp [MaskedZero, formatD, Instr.wellFormed, and_assoc])

end

/-- The decoder looks for the row of the word's opcode, and finds no command where the table has none. The arms `h_1` to
`h_32` are those of `decode`, in its order. -/
theorem decode_readsTable (w : Word) :
    ReadsTable w (decode w) ∨ (∀ r ∈ opcodeRows, r.opcode ≠ fieldOp w) ∧ decode w = none := by
  unfold decode
  split
  case h_2 hop | h_3 hop | h_4 hop => exact .inl (formatN_reads hop (by decide) fun _ => ⟨rfl, rfl⟩)
  case h_1 hop | h_6 hop | h_7 hop | h_18 hop | h_19 hop =>
    exact .inl (formatR1_reads hop (by decide) fun _ _ => ⟨rfl, rfl⟩)
  case h_8 hop | h_9 hop | h_10 hop | h_11 hop | h_12 hop | h_13 hop | h_14 hop | h_15 hop | h_16 hop | h_17 hop |
      h_20 hop | h_21 hop | h_22 hop | h_23 hop | h_24 hop | h_25 hop | h_27 hop | h_28 hop | h_30 hop =>
    exact .inl (formatR2_reads hop (by decide) fun _ _ _ => ⟨rfl, rfl⟩)
  case h_29 hop => exact .inl (formatR3_reads hop (by decide) fun _ _ _ _ => ⟨rfl, rfl⟩)
  case h_26 hop => exact .inl (formatD_reads hop (by decide) fun _ _ _ _ => rfl)
  case h_5 hop => exact .inl (formatRI_reads hop (by decide) fun _ _ => ⟨rfl, rfl⟩)
  case h_31 hop => exact .inl (formatSI_reads hop (by decide) fun _ _ => ⟨rfl, rfl⟩)
  case h_32 =>
    refine .inr ⟨fun r hr hop => ?_, rfl⟩
    have hmem := List.mem_map_of_mem (f := OpcodeRow.opcode) hr
    rw [opcodeRows_map_opcode, hop] at hmem
    simp_all

/-- Settles O3: the word is covered by its row, and the command was found because it encodes to the word. -/
theorem encodeOfDecode : Obligations.EncodeOfDecode := by
  intro w i hi
  obtain ⟨r, _, _, j, henc, hdec⟩ | ⟨_, hnone⟩ := decode_readsTable w
  · obtain ⟨⟨hcov, hwf⟩, rfl⟩ := (hdec i).mp hi
    exact ⟨henc hcov, hwf⟩
  · exact absurd (hnone.symm.trans hi) (by simp)

/-! ## Decoding follows the table -/

/-- A row is known by its opcode (30_encoding.md R80). -/
theorem opcodeRow_ext {r r' : OpcodeRow} (hr : r ∈ opcodeRows) (hr' : r' ∈ opcodeRows) (h : r.opcode = r'.opcode) :
    r = r' :=
  List.inj_on_of_nodup_map (opcodeRows_map_opcode ▸ by decide) hr hr' h

/-- The row of a command's opcode is the one with the command's mnemonic (30_encoding.md R80). -/
theorem mnemonic_of_opcode (i : Instr) :
    ∀ r ∈ opcodeRows, r.opcode = Laws.OpcodeByte.opcodeOf i → r.mnemonic = i.mnemonic := by
  cases i <;> simp only [Laws.OpcodeByte.opcodeOf, Instr.mnemonic] <;> decide

/-- A command is well-formed when its word is no DIVMOD with `rd = rc` (30_encoding.md R79). -/
theorem wellFormed_iff_encode (i : Instr) :
    i.wellFormed = true ↔ ¬ (fieldOp (encode i) = 0x52 ∧ fieldRd (encode i) = fieldRc (encode i)) := by
  rw [fieldOp_encode]
  cases i with
  | divmod rd rc ra rb => simp [Instr.wellFormed, Laws.OpcodeByte.opcodeOf, encode, fields_pack]
  | _ => simp [Instr.wellFormed, Laws.OpcodeByte.opcodeOf]

/-- A word decodes exactly when a row covers it and it is no DIVMOD with `rd = rc` (30_encoding.md R79, R81). -/
theorem decode_isSome_iff (w : Word) :
    (decode w).isSome = true ↔
      (∃ r ∈ opcodeRows, r.covers w = true) ∧ ¬ (fieldOp w = 0x52 ∧ fieldRd w = fieldRc w) := by
  obtain ⟨r, hr, hop, i, henc, hdec⟩ | ⟨hno, hnone⟩ := decode_readsTable w
  · have hrow : (∃ r' ∈ opcodeRows, r'.covers w = true) ↔ r.covers w = true := by
      refine ⟨fun ⟨r', hr', hcov⟩ => ?_, fun hcov => ⟨r, hr, hcov⟩⟩
      rwa [opcodeRow_ext hr hr' (hop.trans (OpcodeRow.opcode_of_covers hr' hcov).symm)]
    rw [hrow, Option.isSome_iff_exists]
    simp only [hdec, exists_and_left, exists_eq', and_true]
    refine and_congr_right fun hcov => ?_
    rw [wellFormed_iff_encode, henc hcov]
  · rw [hnone]
    refine iff_of_false (by simp) fun ⟨⟨r, hr, hcov⟩, _⟩ => ?_
    exact hno r hr (OpcodeRow.opcode_of_covers hr hcov)

/-- Settles O4: a row that covers a word carries the word's opcode, and no two rows have one opcode. -/
theorem decodeFollowsTable : Obligations.DecodeFollowsTable := by
  refine ⟨fun w => ?_, fun w i hi r hr hcov => ?_, fun w r hr r' hr' hcov hcov' => ?_⟩
  · rw [Bool.eq_iff_iff, decode_isSome_iff]
    simp [imp_iff_not_or]
  · obtain ⟨rfl, _⟩ := encodeOfDecode w i hi
    exact mnemonic_of_opcode i r hr ((OpcodeRow.opcode_of_covers hr hcov).trans (fieldOp_encode i))
  · exact opcodeRow_ext hr hr' ((OpcodeRow.opcode_of_covers hr hcov).trans (OpcodeRow.opcode_of_covers hr' hcov').symm)

/-! ## Fixed words -/

/-- Settles O1: each word is evaluated. -/
theorem workedWordsDecode : Obligations.WorkedWordsDecode := by
  refine ⟨?_, ?_, ?_, ?_⟩ <;> decide

end Sys2Proof

namespace Sys2Proof.Machine

/-- Completion of a word that is no command is IllegalCommand (30_encoding.md R81). -/
theorem State.coreStep_of_illegal {s : State} {w : Word} (h : s.latch = some w) (hd : decode w = none) :
    s.coreStep = .next (s.raise .illegalCommand) := by
  simp only [State.coreStep, h, State.completeWord, hd]
  rfl

/-- Settles O6: the core step of an illegal word is a failure, whose code is 15. -/
theorem illegalWordFails : Obligations.IllegalWordFails := by
  intro s w es hl hd he
  rw [step_of_core he, State.coreStep_of_illegal (s := { s with events := es }) hl hd]
  rfl

end Sys2Proof.Machine
end

section
/-! Construction: MOV, SETS, SETU, LDLIMBS and PARSE of written operands (40_construction.md). -/

namespace Sys2Proof.Machine

/-! ## MOV -/

/-- Settles O7: MOV reads its one source, from a written register its value, and from an unwritten one a free value with the
mark set. -/
theorem movCopies : Obligations.MovCopies := fun _ _ _ =>
  ⟨fun h => State.runUnary_written (f := fun _ a => .ok a) h,
    fun h => exec_faulted_of_unwritten_source rfl (List.mem_singleton.mpr rfl) h⟩

/-! ## SETS and SETU -/

/-- A command that completes with the range check of `v` and writes `rd` (00_scope.md R11, 60_exceptions.md R197). -/
theorem State.runNullary_fit (s : State) (rd : RegIx) (v : Int) :
    s.runNullary rd (fit s.cap v) = .next (if v > maxVal s.cap then s.raise .overflow
      else if v < minVal s.cap then s.raise .underflow else (s.setV rd v).succeed) := by
  unfold fit
  split
  · rfl
  · split <;> rfl

theorem State.runNullary_fit_of_inRange {s : State} {v : Int} (rd : RegIx) (h : InRange s.cap v) :
    s.runNullary rd (fit s.cap v) = .next (s.setV rd v).succeed := by
  rw [fit_of_inRange h]
  rfl

/-- A value that is not negative has one error, Overflow. -/
theorem State.runNullary_fit_of_nonneg (s : State) {v : Int} (rd : RegIx) (h : 0 ≤ v) :
    s.runNullary rd (fit s.cap v) = .next (if v > maxVal s.cap then s.raise .overflow else (s.setV rd v).succeed) := by
  have hmin : ¬ v < minVal s.cap := not_lt.mpr ((inRange_zero s.cap).1.trans h)
  rw [State.runNullary_fit, if_neg hmin]

theorem State.arg_lt (s : State) : s.arg < 2 ^ 64 := by
  have := s.argLo.isLt
  have := s.argHi.isLt
  unfold State.arg
  omega

/-- The sign of ARG is the top bit of ARGHI (10_state.md R30). -/
theorem State.testBit_arg (s : State) : s.arg.testBit 63 = s.argHi.getLsbD 31 := by
  rw [BitVec.getLsbD, State.arg, Nat.mul_comm, Nat.testBit_two_pow_mul_add _ s.argLo.isLt]
  rfl

theorem State.argSigned_bounds (s : State) : -2 ^ 63 ≤ s.argSigned ∧ s.argSigned < 2 ^ 63 := by
  have hlt := s.arg_lt
  simp only [State.argSigned, Nat.testBit_eq_decide_div_mod_eq, decide_eq_true_eq]
  split <;> omega

/-- An integer of at most `32·k - 1` magnitude bits fits `k` limbs and more (00_scope.md R8). -/
theorem inRange_of_bounds {C k : Nat} (hk : k ≤ C) {v : Int} (hlo : -2 ^ (32 * k - 1) ≤ v) (hhi : v < 2 ^ (32 * k - 1)) :
    InRange C v := by
  have hpow : (2 : Int) ^ (32 * k - 1) ≤ 2 ^ (widthOf C - 1) :=
    pow_le_pow_right₀ (by norm_num) (by unfold widthOf; omega)
  simp only [InRange, minVal, maxVal]
  omega

theorem State.inRange_argSigned {s : State} (h : 2 ≤ s.cap) : InRange s.cap s.argSigned :=
  inRange_of_bounds h s.argSigned_bounds.1 s.argSigned_bounds.2

theorem State.inRange_arg {s : State} (h : 3 ≤ s.cap) : InRange s.cap s.arg := by
  have := s.arg_lt
  exact inRange_of_bounds h (by omega) (by omega)

/-- Settles O8: the range check of ARG, whose two readings lie in 64 bits, signed and unsigned. -/
theorem setsAndSetuFit : Obligations.SetsAndSetuFit := by
  intro s rd u v hu hv
  obtain rfl : u = (s.arg : Int) := hu
  obtain rfl : v = s.argSigned := by rw [hv, State.argSigned, State.testBit_arg]
  exact ⟨s.runNullary_fit rd _, s.runNullary_fit_of_nonneg rd (Int.natCast_nonneg _),
    fun h => State.runNullary_fit_of_inRange rd (State.inRange_argSigned h),
    fun h => State.runNullary_fit_of_inRange rd (State.inRange_arg h)⟩

/-! ## LDLIMBS -/

theorem ofLimbs_eq_ofDigits (xs : List Nat) : ofLimbs xs = Nat.ofDigits (2 ^ 32) xs := by
  induction xs with
  | nil => rfl
  | cons x xs ih => rw [ofLimbs, ih, Nat.ofDigits_cons]

/-- The loop of LDLIMBS puts the limbs below what it holds, the first limb on top. -/
theorem joinLimbs_eq_ofDigits (p : Nat) (xs : List Nat) :
    joinLimbs p xs = Nat.ofDigits (2 ^ 32) xs.reverse + (2 ^ 32) ^ xs.length * p := by
  induction xs generalizing p with
  | nil => simp [joinLimbs]
  | cons x xs ih =>
    rw [joinLimbs, ih, Nat.ofDigits_reverse_cons, List.length_cons]
    ring

theorem joinLimbs_zero (xs : List Nat) : joinLimbs 0 xs = ofLimbs xs.reverse := by
  rw [joinLimbs_eq_ofDigits, ofLimbs_eq_ofDigits, Nat.mul_zero, Nat.add_zero]

/-- A limb whose four bytes are written is read as it stands, and nothing changes. -/
theorem State.readLimb_written {s : State} {j x : Nat} (hx : x < 2 ^ 32)
    (h : ∀ k < 4, s.mem.read (lbOffset + 4 * j + k) = some (BitVec.ofNat 8 (x / 256 ^ k))) : s.readLimb j = (x, s) := by
  have hread := s.readBytes_written (lbOffset + 4 * j) (bytesOf x 4) fun k hk => by
    rw [bytesOf_get]
    exact h k (by rwa [bytesOf_length] at hk)
  rw [bytesOf_length] at hread
  have hmod : x % 256 ^ 4 = x := Nat.mod_eq_of_lt hx
  rw [State.readLimb, hread, ofBytes_bytesOf, hmod]

/-- So are limbs in a row. -/
theorem State.readLimbs_written {s : State} {xs : List Nat} (i : Nat) (hxs : ∀ x ∈ xs, x < 2 ^ 32)
    (h : ∀ j (hj : j < xs.length), ∀ k < 4,
      s.mem.read (lbOffset + 4 * (i + j) + k) = some (BitVec.ofNat 8 (xs[j] / 256 ^ k))) :
    s.readLimbs i xs.length = (xs, s) := by
  induction xs generalizing i with
  | nil => rfl
  | cons x xs ih =>
    obtain ⟨hx, hxs⟩ := List.forall_mem_cons.mp hxs
    have hhead : s.readLimb i = (x, s) := State.readLimb_written hx (h 0 (Nat.succ_pos _))
    have htail : s.readLimbs (i + 1) xs.length = (xs, s) := ih (i + 1) hxs fun j hj k hk => by
      rw [Nat.add_right_comm i 1 j]
      exact h (j + 1) (Nat.succ_lt_succ hj) k hk
    simp only [List.length_cons, State.readLimbs, hhead, htail]

theorem exec_ldlimbs_of_fits {s : State} {xs : List Nat} (rd : RegIx) (hxs : ∀ x ∈ xs, x < 2 ^ 32) (hlb : s.limbsAre xs)
    (hlen : s.argLo.toNat = xs.length) (hcap : xs.length ≤ s.cap) :
    exec (.ldlimbs rd) s = .next (s.setV rd (valOf s.cap (ofLimbs xs.reverse))).succeed := by
  have hread : s.readLimbs 0 xs.length = (xs, s) :=
    State.readLimbs_written 0 hxs fun j hj k hk => by rw [Nat.zero_add]; exact hlb j hj k hk
  change execLdlimbs rd s = _
  rw [execLdlimbs, hlen, if_neg (not_lt.mpr hcap), hread, ← joinLimbs_zero]
  rfl

theorem exec_ldlimbs_of_exceeds {s : State} (rd : RegIx) (h : s.argLo.toNat > s.cap) :
    exec (.ldlimbs rd) s = .next (s.raise .capacityExceeded) := by
  change execLdlimbs rd s = _
  rw [execLdlimbs, if_pos h]
  rfl

/-- Settles O9: the limbs are read as they stand, and the loop joins them with the first on top. -/
theorem ldlimbsLoadsPattern : Obligations.LdlimbsLoadsPattern :=
  ⟨fun _ rd _ hxs hlb hlen hcap => exec_ldlimbs_of_fits rd hxs hlb hlen hcap,
    fun _ rd h => exec_ldlimbs_of_exceeds rd h⟩

/-! ## PARSE: the string -/

/-- The characters `cs` are digits of the radix, and their values are `ds` (40_construction.md R105). -/
def AreDigits (radix : Nat) (cs : List Byte) (ds : List Nat) : Prop :=
  cs.map digitOf = ds.map some ∧ ∀ d ∈ ds, d < radix

/-- The characters `cs` are at least one digit of the radix and stand for `m`: a numeral without its sign
(40_construction.md R107). -/
def IsMagnitude (radix : Nat) (cs : List Byte) (m : Nat) : Prop :=
  ∃ ds, AreDigits radix cs ds ∧ ds ≠ [] ∧ m = Nat.ofDigits radix ds.reverse

theorem areDigits_nil {radix : Nat} {ds : List Nat} : AreDigits radix [] ds ↔ ds = [] := by
  constructor
  · rintro ⟨h, -⟩
    simpa using h.symm
  · rintro rfl
    exact ⟨rfl, by simp⟩

theorem areDigits_cons {radix : Nat} {ch : Byte} {cs : List Byte} {ds : List Nat} :
    AreDigits radix (ch :: cs) ds ↔
      ∃ d ds', ds = d :: ds' ∧ digitOf ch = some d ∧ d < radix ∧ AreDigits radix cs ds' := by
  constructor
  · rintro ⟨hmap, hlt⟩
    cases ds with
    | nil => simp at hmap
    | cons d ds' =>
      obtain ⟨hd, htail⟩ := List.cons.inj hmap
      obtain ⟨hlt, htl⟩ := List.forall_mem_cons.mp hlt
      exact ⟨d, ds', rfl, hd, hlt, htail, htl⟩
  · rintro ⟨d, ds', rfl, hd, hlt, hmap, htl⟩
    exact ⟨by rw [List.map_cons, List.map_cons, hd, hmap], List.forall_mem_cons.mpr ⟨hlt, htl⟩⟩

/-- What the digit loop does with one character. -/
theorem parseDigits_cons (radix m : Nat) (ch : Byte) (cs : List Byte) :
    (∃ d, digitOf ch = some d ∧ d < radix ∧
      parseDigits radix m (ch :: cs) = parseDigits radix (m * radix + d) cs) ∨
    ((∀ d, digitOf ch = some d → ¬ d < radix) ∧ parseDigits radix m (ch :: cs) = .error .invalidDigit) := by
  rw [parseDigits]
  cases hd : digitOf ch with
  | none => exact .inr ⟨fun _ h => (Option.some_ne_none _ h.symm).elim, rfl⟩
  | some d =>
    by_cases hlt : d < radix
    · exact .inl ⟨d, rfl, hlt, if_neg (not_le.mpr hlt)⟩
    · exact .inr ⟨fun _ h => by cases h; exact hlt, if_pos (not_lt.mp hlt)⟩

/-- The digit loop answers when all characters are digits, and puts them below what it holds, the first on top. -/
theorem parseDigits_eq_ok {radix m n : Nat} {cs : List Byte} :
    parseDigits radix m cs = .ok n ↔
      ∃ ds, AreDigits radix cs ds ∧ n = Nat.ofDigits radix ds.reverse + radix ^ ds.length * m := by
  induction cs generalizing m with
  | nil => simp [parseDigits, areDigits_nil, eq_comm]
  | cons ch cs ih =>
    rcases parseDigits_cons radix m ch cs with ⟨d, hd, hlt, e⟩ | ⟨hno, e⟩
    · have hvalue (ds : List Nat) : Nat.ofDigits radix (d :: ds).reverse + radix ^ (d :: ds).length * m =
          Nat.ofDigits radix ds.reverse + radix ^ ds.length * (m * radix + d) := by
        rw [Nat.ofDigits_reverse_cons, List.length_cons]
        ring
      rw [e, ih]
      constructor
      · rintro ⟨ds, hds, rfl⟩
        exact ⟨d :: ds, areDigits_cons.mpr ⟨d, ds, rfl, hd, hlt, hds⟩, (hvalue ds).symm⟩
      · rintro ⟨_, h, rfl⟩
        obtain ⟨d', ds, rfl, hd', -, hds⟩ := areDigits_cons.mp h
        obtain rfl : d = d' := Option.some.inj (hd.symm.trans hd')
        exact ⟨ds, hds, hvalue ds⟩
    · rw [e]
      refine iff_of_false (fun h => by cases h) ?_
      rintro ⟨_, h, -⟩
      obtain ⟨d, -, -, hd, hlt, -⟩ := areDigits_cons.mp h
      exact hno d hd hlt

theorem parseDigits_error {radix m : Nat} {cs : List Byte} {e : ErrorKind} (h : parseDigits radix m cs = .error e) :
    e = .invalidDigit := by
  induction cs generalizing m with
  | nil => cases h
  | cons ch cs ih =>
    rcases parseDigits_cons radix m ch cs with ⟨d, -, -, he⟩ | ⟨-, he⟩ <;> rw [he] at h
    · exact ih h
    · cases h
      rfl

theorem parseMagnitude_eq_ok {radix n : Nat} {cs : List Byte} :
    parseMagnitude radix cs = .ok n ↔ IsMagnitude radix cs n := by
  cases cs with
  | nil => simp [parseMagnitude, IsMagnitude, areDigits_nil]
  | cons ch cs =>
    have hne {ds : List Nat} (h : AreDigits radix (ch :: cs) ds) : ds ≠ [] := by
      obtain ⟨d, ds', rfl, -⟩ := areDigits_cons.mp h
      exact List.cons_ne_nil _ _
    change parseDigits radix 0 (ch :: cs) = .ok n ↔ _
    simp only [parseDigits_eq_ok, Nat.mul_zero, Nat.add_zero, IsMagnitude]
    exact exists_congr fun ds => and_congr_right fun h => (and_iff_right (hne h)).symm

theorem parseMagnitude_error {radix : Nat} {cs : List Byte} {e : ErrorKind} (h : parseMagnitude radix cs = .error e) :
    e = .invalidDigit := by
  unfold parseMagnitude at h
  split at h
  · cases h
    rfl
  · exact parseDigits_error h

/-- A numeral is a magnitude, alone or after one sign (40_construction.md R107). -/
theorem isNumeral_iff {radix : Nat} {cs : List Byte} {v : Int} :
    IsNumeral radix cs v ↔
      (∃ m : Nat, IsMagnitude radix cs m ∧ v = m) ∨
      (∃ cs' m, cs = 0x2B :: cs' ∧ IsMagnitude radix cs' m ∧ v = m) ∨
      (∃ cs' m, cs = 0x2D :: cs' ∧ IsMagnitude radix cs' m ∧ v = -(m : Int)) := by
  constructor
  · rintro ⟨sign, chars, ds, rfl, hmap, hne, hlt, ⟨rfl | rfl, hv⟩ | ⟨rfl, hv⟩⟩
    · exact .inl ⟨_, ⟨ds, ⟨hmap, hlt⟩, hne, rfl⟩, hv⟩
    · exact .inr (.inl ⟨chars, _, rfl, ⟨ds, ⟨hmap, hlt⟩, hne, rfl⟩, hv⟩)
    · exact .inr (.inr ⟨chars, _, rfl, ⟨ds, ⟨hmap, hlt⟩, hne, rfl⟩, hv⟩)
  · rintro (⟨_, ⟨ds, ⟨hmap, hlt⟩, hne, rfl⟩, hv⟩ | ⟨chars, _, rfl, ⟨ds, ⟨hmap, hlt⟩, hne, rfl⟩, hv⟩ |
      ⟨chars, _, rfl, ⟨ds, ⟨hmap, hlt⟩, hne, rfl⟩, hv⟩)
    · exact ⟨[], cs, ds, rfl, hmap, hne, hlt, .inl ⟨.inl rfl, hv⟩⟩
    · exact ⟨[0x2B], chars, ds, rfl, hmap, hne, hlt, .inl ⟨.inr rfl, hv⟩⟩
    · exact ⟨[0x2D], chars, ds, rfl, hmap, hne, hlt, .inr ⟨rfl, hv⟩⟩

/-- A magnitude begins with a digit. -/
theorem not_isMagnitude_cons {radix m : Nat} {ch : Byte} {cs : List Byte} (h : digitOf ch = none) :
    ¬ IsMagnitude radix (ch :: cs) m := by
  rintro ⟨ds, hds, -⟩
  obtain ⟨d, -, -, hd, -⟩ := areDigits_cons.mp hds
  exact Option.some_ne_none d (hd.symm.trans h)

theorem isNumeral_plus {radix : Nat} {cs : List Byte} {v : Int} :
    IsNumeral radix (0x2B :: cs) v ↔ ∃ m : Nat, IsMagnitude radix cs m ∧ v = m := by
  have hno (m : Nat) : ¬ IsMagnitude radix (0x2B :: cs) m := not_isMagnitude_cons (by decide)
  have hne : (0x2B : Byte) ≠ 0x2D := by decide
  simp only [isNumeral_iff, hno, hne, List.cons.injEq, true_and, false_and, exists_false, exists_and_left,
    exists_eq_left', false_or, or_false]

theorem isNumeral_minus {radix : Nat} {cs : List Byte} {v : Int} :
    IsNumeral radix (0x2D :: cs) v ↔ ∃ m : Nat, IsMagnitude radix cs m ∧ v = -(m : Int) := by
  have hno (m : Nat) : ¬ IsMagnitude radix (0x2D :: cs) m := not_isMagnitude_cons (by decide)
  have hne : (0x2D : Byte) ≠ 0x2B := by decide
  simp only [isNumeral_iff, hno, hne, List.cons.injEq, true_and, false_and, exists_false, exists_and_left,
    exists_eq_left', false_or]

/-- Without a sign in front, the empty string included, a numeral is a magnitude. -/
theorem isNumeral_unsigned {radix : Nat} {cs : List Byte} {v : Int} (hplus : ∀ cs', cs ≠ 0x2B :: cs')
    (hminus : ∀ cs', cs ≠ 0x2D :: cs') : IsNumeral radix cs v ↔ ∃ m : Nat, IsMagnitude radix cs m ∧ v = m := by
  simp only [isNumeral_iff, hplus, hminus, false_and, exists_false, or_false]

theorem except_map_eq_ok {ε α β : Type} {f : α → β} {r : Except ε α} {y : β} :
    r.map f = .ok y ↔ ∃ x, r = .ok x ∧ y = f x := by
  cases r <;> simp [Except.map, eq_comm]

theorem except_map_eq_error {ε α β : Type} {f : α → β} {r : Except ε α} {e : ε} :
    r.map f = .error e ↔ r = .error e := by
  cases r <;> simp [Except.map]

theorem parseString_plus (radix : Nat) (cs : List Byte) :
    parseString radix (0x2B :: cs) = Except.map (fun m : Nat => (m : Int)) (parseMagnitude radix cs) := by
  rw [parseString, if_pos rfl]
  cases parseMagnitude radix cs <;> rfl

theorem parseString_minus (radix : Nat) (cs : List Byte) :
    parseString radix (0x2D :: cs) = Except.map (fun m : Nat => -(m : Int)) (parseMagnitude radix cs) := by
  rw [parseString, if_neg (by decide), if_pos rfl]
  cases parseMagnitude radix cs <;> rfl

theorem parseString_unsigned (radix : Nat) {cs : List Byte} (hplus : ∀ cs', cs ≠ 0x2B :: cs')
    (hminus : ∀ cs', cs ≠ 0x2D :: cs') :
    parseString radix cs = Except.map (fun m : Nat => (m : Int)) (parseMagnitude radix cs) := by
  cases cs with
  | nil => rfl
  | cons ch cs =>
    have hp : ch ≠ 0x2B := by rintro rfl; exact hplus cs rfl
    have hm : ch ≠ 0x2D := by rintro rfl; exact hminus cs rfl
    rw [parseString, if_neg hp, if_neg hm]
    cases parseMagnitude radix (ch :: cs) <;> rfl

/-- The parser reads a magnitude, of the whole string or of what follows its sign, and gives it the sign `f` that the
numerals on that string have. -/
theorem parseString_eq_map (radix : Nat) (cs : List Byte) :
    ∃ (f : Nat → Int) (chars : List Byte), parseString radix cs = Except.map f (parseMagnitude radix chars) ∧
      ∀ v, IsNumeral radix cs v ↔ ∃ m, IsMagnitude radix chars m ∧ v = f m := by
  by_cases hplus : ∃ cs', cs = 0x2B :: cs'
  · obtain ⟨cs', rfl⟩ := hplus
    exact ⟨_, cs', parseString_plus radix cs', fun _ => isNumeral_plus⟩
  · by_cases hminus : ∃ cs', cs = 0x2D :: cs'
    · obtain ⟨cs', rfl⟩ := hminus
      exact ⟨_, cs', parseString_minus radix cs', fun _ => isNumeral_minus⟩
    · push Not at hplus hminus
      exact ⟨_, cs, parseString_unsigned radix hplus hminus, fun _ => isNumeral_unsigned hplus hminus⟩

/-- The string parser answers the value of every numeral, and of nothing else (40_construction.md R107, R108). -/
theorem parseString_eq_ok {radix : Nat} {cs : List Byte} {v : Int} :
    parseString radix cs = .ok v ↔ IsNumeral radix cs v := by
  obtain ⟨f, chars, hparse, hnum⟩ := parseString_eq_map radix cs
  simp only [hparse, hnum, except_map_eq_ok, parseMagnitude_eq_ok]

theorem parseString_error {radix : Nat} {cs : List Byte} {e : ErrorKind} (h : parseString radix cs = .error e) :
    e = .invalidDigit := by
  obtain ⟨f, chars, hparse, -⟩ := parseString_eq_map radix cs
  rw [hparse, except_map_eq_error] at h
  exact parseMagnitude_error h

/-- A string that is no numeral is InvalidDigit (40_construction.md R108). -/
theorem parseString_eq_error {radix : Nat} {cs : List Byte} (h : ∀ v, ¬ IsNumeral radix cs v) :
    parseString radix cs = .error .invalidDigit := by
  cases hr : parseString radix cs with
  | ok v => exact absurd (parseString_eq_ok.mp hr) (h v)
  | error e => rw [parseString_error hr]

/-! ## PARSE: the command -/

theorem radixOk_iff {radix : Nat} : radixOk radix = true ↔ 2 ≤ radix ∧ radix ≤ 36 := by simp [radixOk]

theorem exec_parse_of_bad_radix {s : State} (rd : RegIx) {imm : BitVec 8} (h : ¬ (2 ≤ imm.toNat ∧ imm.toNat ≤ 36)) :
    exec (.parse rd imm) s = .next (s.raise .invalidRadix) := by
  change execParse rd imm s = _
  rw [execParse, if_pos (radixOk_iff.not.mpr h)]
  rfl

section
variable {s : State} (rd : RegIx) {imm : BitVec 8} (hradix : 2 ≤ imm.toNat ∧ imm.toNat ≤ 36)
include hradix

theorem exec_parse_of_too_long (h : s.tlen.toNat > 65536) :
    exec (.parse rd imm) s = .next (s.raise .invalidArgument) := by
  change execParse rd imm s = _
  rw [execParse, if_neg (not_not.mpr (radixOk_iff.mpr hradix)), if_pos (show s.tlen.toNat > tbSize from h)]
  rfl

/-- PARSE of written text is the string parser and the range check (40_construction.md R108). -/
theorem exec_parse_of_text {cs : List Byte} (htext : s.textIs cs) (htlen : s.tlen.toNat = cs.length)
    (hlen : cs.length ≤ 65536) :
    exec (.parse rd imm) s = s.runNullary rd ((parseString imm.toNat cs).bind (fit s.cap)) := by
  change execParse rd imm s = _
  have hsize : ¬ cs.length > tbSize := not_lt.mpr hlen
  rw [execParse, if_neg (not_not.mpr (radixOk_iff.mpr hradix)), htlen, if_neg hsize,
    s.readBytes_written tbOffset cs htext]

end

/-- Settles O10: the string parser answers the value, and the range check of that value is left. -/
theorem parseReadsNumerals : Obligations.ParseReadsNumerals := by
  intro s rd imm cs v h2 h36 htext htlen hlen hnum
  rw [exec_parse_of_text rd ⟨h2, h36⟩ htext htlen hlen, parseString_eq_ok.mpr hnum]
  exact s.runNullary_fit rd v

/-- Settles O11: each check fails before the next is made, and the string parser has one error. -/
theorem parseErrorsInOrder : Obligations.ParseErrorsInOrder := by
  intro s rd imm
  refine ⟨fun h => exec_parse_of_bad_radix rd h, fun hradix h => exec_parse_of_too_long rd hradix h,
    fun cs hradix htext htlen hlen hno => ?_⟩
  rw [exec_parse_of_text rd hradix htext htlen hlen, parseString_eq_error hno]
  rfl

end Sys2Proof.Machine
end

section
/-! Limbs, patterns and the ripple-carry adder (00_scope.md R7, R8; 41_sign_compare.md R115; 42_addsub.md R134 to R136). -/

namespace Sys2Proof.Machine

/-! ## Limbs -/

theorem length_limbsOf (n p : Nat) : (limbsOf n p).length = n := by
  induction n generalizing p with
  | zero => rfl
  | succ n ih => rw [limbsOf, List.length_cons, ih]

theorem ofLimbs_limbsOf (n p : Nat) : ofLimbs (limbsOf n p) = p % (2 ^ 32) ^ n := by
  induction n generalizing p with
  | zero => rw [pow_zero, Nat.mod_one]; rfl
  | succ n ih => rw [limbsOf, ofLimbs, ih, pow_succ' (2 ^ 32), Nat.mod_mul]

theorem length_complementLimbs (xs : List Nat) : (complementLimbs xs).length = xs.length := List.length_map _

/-- Limbs and their complement add up to all ones. -/
theorem ofLimbs_complementLimbs_add (n p : Nat) :
    ofLimbs (complementLimbs (limbsOf n p)) + ofLimbs (limbsOf n p) + 1 = (2 ^ 32) ^ n := by
  induction n generalizing p with
  | zero => rfl
  | succ n ih =>
    have hrest := ih (p / 2 ^ 32)
    have hlimb := Nat.mod_lt p (Nat.two_pow_pos 32)
    simp only [limbsOf, complementLimbs, List.map_cons, ofLimbs, pow_succ' (2 ^ 32 : Nat) n] at hrest ⊢
    omega

/-- Adding limb by limb with the carry adds the numbers; the last carry is lost (42_addsub.md R134, R136). -/
theorem ofLimbs_rippleAdd {xs ys : List Nat} (h : xs.length = ys.length) (carry : Nat) :
    ofLimbs (rippleAdd xs ys carry) = (ofLimbs xs + ofLimbs ys + carry) % (2 ^ 32) ^ xs.length := by
  induction xs generalizing ys carry with
  | nil =>
    rw [List.length_nil, pow_zero, Nat.mod_one]
    rfl
  | cons x xs ih =>
    cases ys with
    | nil => cases h
    | cons y ys =>
      have hsum : ofLimbs (x :: xs) + ofLimbs (y :: ys) + carry =
          (x + y + carry) + 2 ^ 32 * (ofLimbs xs + ofLimbs ys) := by
        simp only [ofLimbs]
        ring
      have hcarry : ofLimbs xs + ofLimbs ys + (x + y + carry) / 2 ^ 32 =
          (x + y + carry) / 2 ^ 32 + (ofLimbs xs + ofLimbs ys) := Nat.add_comm _ _
      rw [rippleAdd, ofLimbs, ih (Nat.succ.inj h), hsum, List.length_cons,
        pow_succ' (2 ^ 32), Nat.mod_mul, Nat.add_mul_mod_self_left, Nat.add_mul_div_left _ _ (Nat.two_pow_pos 32), hcarry]

/-! ## Patterns of integers -/

theorem natCast_enc (C : Nat) (v : Int) : (enc C v : Int) = v % 2 ^ widthOf C :=
  Int.toNat_of_nonneg (Int.emod_nonneg v (by positivity))

theorem enc_modEq (C : Nat) (v : Int) : (enc C v : Int) ≡ v [ZMOD 2 ^ widthOf C] := by
  rw [natCast_enc]
  exact Int.mod_modEq v _

/-- A pattern is its integer cut to W bits (00_scope.md R8). -/
theorem mod_eq_enc {C p : Nat} {v : Int} (h : (p : Int) ≡ v [ZMOD 2 ^ widthOf C]) : p % 2 ^ widthOf C = enc C v := by
  rw [← Int.natCast_inj, natCast_enc, ← h, Int.natCast_mod]
  norm_cast

theorem pow_limbs (C : Nat) : (2 ^ 32) ^ C = 2 ^ widthOf C := (pow_mul 2 32 C).symm

theorem ofLimbs_limbsOf_enc (C : Nat) (v : Int) : ofLimbs (limbsOf C (enc C v)) = enc C v := by
  rw [ofLimbs_limbsOf, pow_limbs, Nat.mod_eq_of_lt (enc_lt C v)]

/-- The complement of a pattern, plus 1, stands for the negated integer (41_sign_compare.md R115). -/
theorem ofLimbs_complementLimbs_enc_modEq (C : Nat) (v : Int) :
    (ofLimbs (complementLimbs (limbsOf C (enc C v))) : Int) + 1 ≡ -v [ZMOD 2 ^ widthOf C] := by
  have hsum := ofLimbs_complementLimbs_add C (enc C v)
  rw [ofLimbs_limbsOf_enc, pow_limbs] at hsum
  have hsum' : (ofLimbs (complementLimbs (limbsOf C (enc C v))) : Int) + 1 = -(enc C v : Int) + 2 ^ widthOf C := by
    have : ((2 ^ widthOf C : Nat) : Int) = 2 ^ widthOf C := by norm_cast
    omega
  rw [hsum']
  exact Int.add_modEq_right.trans (enc_modEq C v).neg

/-! ## The adder's patterns -/

theorem addPattern_enc (C : Nat) (a b : Int) : addPattern C (enc C a) (enc C b) = enc C (a + b) := by
  rw [addPattern, ofLimbs_rippleAdd (by simp only [length_limbsOf]), length_limbsOf, ofLimbs_limbsOf_enc,
    ofLimbs_limbsOf_enc, pow_limbs]
  apply mod_eq_enc
  push_cast
  rw [add_zero]
  exact (enc_modEq C a).add (enc_modEq C b)

theorem subPattern_enc (C : Nat) (a b : Int) : subPattern C (enc C a) (enc C b) = enc C (a - b) := by
  rw [subPattern, ofLimbs_rippleAdd (by simp only [length_complementLimbs, length_limbsOf]), length_limbsOf,
    ofLimbs_limbsOf_enc, pow_limbs]
  apply mod_eq_enc
  push_cast
  rw [add_assoc, sub_eq_add_neg]
  exact (enc_modEq C a).add (ofLimbs_complementLimbs_enc_modEq C b)

theorem negPattern_enc (C : Nat) (a : Int) : negPattern C (enc C a) = enc C (-a) := by
  have hzero : ofLimbs (limbsOf C 0) = 0 := by rw [ofLimbs_limbsOf, Nat.zero_mod]
  rw [negPattern, ofLimbs_rippleAdd (by simp only [length_complementLimbs, length_limbsOf]), length_complementLimbs,
    length_limbsOf, hzero, pow_limbs]
  apply mod_eq_enc
  push_cast
  rw [add_zero]
  exact ofLimbs_complementLimbs_enc_modEq C a

/-! ## The sign rule -/

theorem signBit_eq_decide {C p : Nat} (hC : 1 ≤ C) (hp : p < 2 ^ widthOf C) :
    signBit C p = decide (2 ^ (widthOf C - 1) ≤ p) := by
  have hW : widthOf C - 1 + 1 = widthOf C := Nat.sub_add_cancel (by unfold widthOf; omega)
  rcases lt_or_ge p (2 ^ (widthOf C - 1)) with h | h
  · rw [decide_eq_false (not_le.mpr h)]
    exact Nat.testBit_lt_two_pow h
  · rw [decide_eq_true h]
    exact Nat.testBit_of_two_pow_le_and_two_pow_add_one_gt h (by rwa [hW])

theorem maxVal_eq (C : Nat) : maxVal C = -minVal C - 1 := by rw [minVal, neg_neg, maxVal]

/-- The sign bit of an integer's pattern, for every integer that one addition or subtraction can give. -/
theorem signBit_enc {C : Nat} (hC : 1 ≤ C) {v : Int} (hlo : 2 * minVal C ≤ v) (hhi : v ≤ 2 * maxVal C + 1) :
    signBit C (enc C v) = decide (v > maxVal C ∨ minVal C ≤ v ∧ v < 0) := by
  have hW : (2 : Int) ^ widthOf C = 2 * 2 ^ (widthOf C - 1) := by exact_mod_cast two_pow_widthOf hC
  have hhalf : 2 ^ (widthOf C - 1) ≤ enc C v ↔ (2 : Int) ^ (widthOf C - 1) ≤ v % 2 ^ widthOf C := by
    rw [← natCast_enc]
    exact_mod_cast Iff.rfl
  rw [signBit_eq_decide hC (enc_lt C v), decide_eq_decide, hhalf]
  simp only [minVal, maxVal] at *
  rcases lt_or_ge v 0 with hv | hv
  · have hmod : v % 2 ^ widthOf C = v + 2 ^ widthOf C := by
      rw [← Int.add_emod_right, Int.emod_eq_of_lt (by omega) (by omega)]
    omega
  · have hmod : v % 2 ^ widthOf C = v := Int.emod_eq_of_lt hv (by omega)
    omega

theorem signBit_enc_of_inRange {C : Nat} (hC : 1 ≤ C) {v : Int} (hv : InRange C v) :
    signBit C (enc C v) = decide (v < 0) := by
  obtain ⟨hlo, hhi⟩ := hv
  have := inRange_zero C
  rw [signBit_enc hC (by omega) (by omega), decide_eq_decide]
  omega

/-- The source's sign rule is the range check: `a` is the first operand and `P` the rule's premise about the operands' signs,
which holds when the exact result `v` leaves the range, and under which a result in range has the sign of `a`
(42_addsub.md R135). -/
theorem signCheck_eq_fit {C : Nat} (hC : 1 ≤ C) {a v : Int} (hlo : 2 * minVal C ≤ v) (hhi : v ≤ 2 * maxVal C + 1)
    {P : Prop} [Decidable P] (habove : v > maxVal C → P ∧ 0 ≤ a) (hbelow : v < minVal C → P ∧ a < 0)
    (hin : InRange C v → P → (v < 0 ↔ a < 0)) :
    (if P ∧ signBit C (enc C v) ≠ decide (a < 0) then .error (signError (decide (a < 0))) else .ok (enc C v)) =
      (fit C v).map (enc C) := by
  have hzero := inRange_zero C
  have hsign := signBit_enc hC hlo hhi
  rcases lt_or_ge (maxVal C) v with h | hmax
  · obtain ⟨hP, ha⟩ := habove h
    rw [decide_eq_false (not_lt.mpr ha), hsign, decide_eq_true (.inl h), if_pos ⟨hP, Bool.noConfusion⟩, fit_of_above h]
    rfl
  rcases lt_or_ge v (minVal C) with h | hmin
  · obtain ⟨hP, ha⟩ := hbelow h
    rw [decide_eq_true ha, hsign, decide_eq_false (by omega), if_pos ⟨hP, Bool.noConfusion⟩, fit_of_below h]
    rfl
  · have hv : InRange C v := ⟨hmin, hmax⟩
    rw [signBit_enc_of_inRange hC hv, if_neg fun ⟨hP, hne⟩ => hne (decide_eq_decide.mpr (hin hv hP)), fit_of_inRange hv]
    rfl

/-! ## The adder -/

section
variable {C : Nat} {a b : Int} (hC : 1 ≤ C) (ha : InRange C a) (hb : InRange C b)
include hC ha hb

/-- Operands of one sign are the only ones whose sum can leave the range. -/
theorem addDatapath_enc : addDatapath C (enc C a) (enc C b) = (fit C (a + b)).map (enc C) := by
  have hzero := inRange_zero C
  rw [addDatapath, addPattern_enc, signBit_enc_of_inRange hC ha, signBit_enc_of_inRange hC hb]
  simp only [decide_eq_decide]
  apply signCheck_eq_fit hC <;> omega

/-- Operands of two signs are the only ones whose difference can leave the range. -/
theorem subDatapath_enc : subDatapath C (enc C a) (enc C b) = (fit C (a - b)).map (enc C) := by
  have hzero := inRange_zero C
  have hmax := maxVal_eq C
  rw [subDatapath, subPattern_enc, signBit_enc_of_inRange hC ha, signBit_enc_of_inRange hC hb]
  simp only [ne_eq, decide_eq_decide]
  apply signCheck_eq_fit hC <;> omega

end

/-- Settles O55: the limbs add modulo `2 ^ W`, and the sign rule finds the results out of range. -/
theorem adderIsExact : Obligations.AdderIsExact := fun C a _ hC ha hb =>
  ⟨addDatapath_enc hC ha hb, subDatapath_enc hC ha hb, fun _ => negPattern_enc C a⟩

end Sys2Proof.Machine
end

section
/-! Sign and comparison: NEG, ABS, the six comparisons, MIN and MAX of written operands (41_sign_compare.md). -/

namespace Sys2Proof.Machine

/-! ## NEG and ABS -/

/-- A command of one source that fails at MIN alone. -/
theorem State.runUnary_overflow_at_min {s : State} {f : Nat → Int → Except ErrorKind Int} {g : Int → Int}
    (hf : ∀ C a, f C a = if a = minVal C then .error .overflow else .ok (g a)) (rd : RegIx) {ra : RegIx}
    (ha : s.written ra = true) :
    s.runUnary f rd ra =
      .next (if s.val ra = minVal s.cap then s.raise .overflow else (s.setV rd (g (s.val ra))).succeed) := by
  rw [State.runUnary_written ha, hf]
  split <;> rfl

theorem absResult_eq (C : Nat) (a : Int) :
    absResult C a = if a = minVal C then .error .overflow else .ok |a| := by
  rw [absResult, Int.natCast_natAbs]

/-- Settles O12: both results check for MIN and nothing else. -/
theorem negAndAbsFailAtMin : Obligations.NegAndAbsFailAtMin := fun _ rd _ ha =>
  ⟨State.runUnary_overflow_at_min (fun _ _ => rfl) rd ha, State.runUnary_overflow_at_min absResult_eq rd ha⟩

/-! ## The comparisons -/

/-- A command of two sources that never fails. -/
theorem State.runBinary_ok {s : State} (g : Int → Int → Int) (rd : RegIx) {ra rb : RegIx} (ha : s.written ra = true)
    (hb : s.written rb = true) :
    s.runBinary (fun _ a b => .ok (g a b)) rd ra rb = .next (s.setV rd (g (s.val ra) (s.val rb))).succeed := by
  rw [State.runBinary_written ha hb, State.complete_ok_reg]

theorem truth_decide (p : Prop) [Decidable p] : truth p = if p then 1 else 0 := by
  simp only [truth, decide_eq_true_eq]

/-- A command that writes the truth of a relation of its two sources (41_sign_compare.md R118). -/
theorem State.runBinary_truth {s : State} (r : Int → Int → Prop) [∀ a b, Decidable (r a b)] (rd : RegIx) {ra rb : RegIx}
    (ha : s.written ra = true) (hb : s.written rb = true) :
    s.runBinary (fun _ a b => .ok (truth (r a b))) rd ra rb =
      .next (s.setV rd (if r (s.val ra) (s.val rb) then 1 else 0)).succeed := by
  rw [State.runBinary_ok (fun a b => truth (r a b)) rd ha hb, truth_decide]

/-- Settles O13: each comparison writes the truth of its relation. -/
theorem comparisonsWriteTruth : Obligations.ComparisonsWriteTruth := by
  rintro s rd ra rb a b ha hb rfl rfl
  exact ⟨State.runBinary_truth (· = ·) rd ha hb, State.runBinary_truth (· ≠ ·) rd ha hb,
    State.runBinary_truth (· < ·) rd ha hb, State.runBinary_truth (· > ·) rd ha hb,
    State.runBinary_truth (· ≤ ·) rd ha hb, State.runBinary_truth (· ≥ ·) rd ha hb⟩

/-! ## MIN and MAX -/

/-- Settles O14: MIN writes the first source where it is at most the second, MAX where it is at least the second. -/
theorem minAndMaxOfTwo : Obligations.MinAndMaxOfTwo := fun s rd ra rb ha hb => by
  rw [min_def, max_def']
  exact ⟨State.runBinary_ok (fun a b => if a ≤ b then a else b) rd ha hb,
    State.runBinary_ok (fun a b => if a ≥ b then a else b) rd ha hb⟩

end Sys2Proof.Machine
end

section
/-! Add and subtract: ADD, SUB, INC and DEC of written operands (42_addsub.md). -/

namespace Sys2Proof.Machine

/-! ## ADD and SUB -/

/-- A command of two sources that range-checks the exact result (00_scope.md R11, R12). -/
theorem State.runBinary_fit {s : State} (g : Int → Int → Int) (rd : RegIx) {ra rb : RegIx} (ha : s.written ra = true)
    (hb : s.written rb = true) :
    s.runBinary (fun C a b => fit C (g a b)) rd ra rb =
      .next (if g (s.val ra) (s.val rb) > maxVal s.cap then s.raise .overflow
        else if g (s.val ra) (s.val rb) < minVal s.cap then s.raise .underflow
        else (s.setV rd (g (s.val ra) (s.val rb))).succeed) :=
  (State.runBinary_written ha hb).trans (s.runNullary_fit rd _)

/-- Settles O15: ADD range-checks the sum of the two values read. -/
theorem addFitsOrFails : Obligations.AddFitsOrFails := fun _ rd _ _ ha hb => State.runBinary_fit (· + ·) rd ha hb

/-- Settles O16: SUB range-checks the difference of the two values read. -/
theorem subFitsOrFails : Obligations.SubFitsOrFails := fun _ rd _ _ ha hb => State.runBinary_fit (· - ·) rd ha hb

/-! ## INC and DEC -/

/-- The successor of a value in range leaves the range at MAX alone. -/
theorem fit_add_one {C : Nat} {a : Int} (h : InRange C a) :
    fit C (a + 1) = if a = maxVal C then .error .overflow else .ok (a + 1) := by
  obtain ⟨hlo, hhi⟩ := h
  split
  · exact fit_of_above (by omega)
  · exact fit_of_inRange ⟨by omega, by omega⟩

/-- The predecessor of a value in range leaves the range at MIN alone. -/
theorem fit_sub_one {C : Nat} {a : Int} (h : InRange C a) :
    fit C (a - 1) = if a = minVal C then .error .underflow else .ok (a - 1) := by
  obtain ⟨hlo, hhi⟩ := h
  split
  · exact fit_of_below (by omega)
  · exact fit_of_inRange ⟨by omega, by omega⟩

/-- A command of one source whose result is one error at one value of the source, and a value at every other. -/
theorem State.runUnary_error_at {s : State} (f : Nat → Int → Except ErrorKind Int) {bound x : Int} {e : ErrorKind}
    (rd : RegIx) {ra : RegIx} (ha : s.written ra = true)
    (hf : f s.cap (s.val ra) = if s.val ra = bound then .error e else .ok x) :
    s.runUnary f rd ra = .next (if s.val ra = bound then s.raise e else (s.setV rd x).succeed) := by
  rw [State.runUnary_written ha, hf]
  split <;> rfl

/-- Settles O17: of a value in range, the successor and the predecessor leave the range at one end each. -/
theorem incAndDecFailAtTheEnds : Obligations.IncAndDecFailAtTheEnds := fun _ rd _ ha hrange =>
  ⟨State.runUnary_error_at (fun C a => fit C (a + 1)) rd ha (fit_add_one hrange),
    State.runUnary_error_at (fun C a => fit C (a - 1)) rd ha (fit_sub_one hrange)⟩

end Sys2Proof.Machine
end

section
/-! Shifts: SHL, SHLW and SHR of written operands (43_shift.md R138 to R141). -/

namespace Sys2Proof.Machine

/-- A command of two written sources completes with its result (00_scope.md R13). -/
theorem State.runBinary_eq_runNullary {s : State} {f : Nat → Int → Int → Except ErrorKind Int}
    {r : Except ErrorKind Int} (rd : RegIx) {ra rb : RegIx} (ha : s.written ra = true) (hb : s.written rb = true)
    (hf : f s.cap (s.val ra) (s.val rb) = r) : s.runBinary f rd ra rb = s.runNullary rd r := by
  rw [State.runBinary_written ha hb, hf, State.runNullary_eq]

/-- `2^s` is past both ends of the range for an amount of W or more. -/
theorem half_lt_two_pow_amount {C : Nat} (hC : 1 ≤ C) {n : Int} (hn : widthOf C ≤ n) :
    (2 : Int) ^ (widthOf C - 1) < 2 ^ n.toNat :=
  pow_lt_pow_right₀ one_lt_two (by unfold widthOf at *; omega)

/-! ## SHL -/

/-- The range check alone decides, also for an amount of W or more (43_shift.md R139). -/
theorem shlResult_of_nonneg {C : Nat} (hC : 1 ≤ C) (a : Int) {n : Int} (hn : 0 ≤ n) :
    shlResult C a n = fit C (a * 2 ^ n.toNat) := by
  have hpow : (0 : Int) ≤ 2 ^ n.toNat := by positivity
  rw [shlResult, if_neg hn.not_gt]
  rcases lt_trichotomy a 0 with ha | rfl | ha
  · rw [if_neg ha.ne, if_neg ha.not_gt]
    split_ifs with hW
    · have hhalf := half_lt_two_pow_amount hC hW
      have hprod := mul_le_mul_of_nonneg_right (Int.le_sub_one_of_lt ha) hpow
      exact (fit_of_below (by unfold minVal; omega)).symm
    · rfl
  · rw [if_pos rfl, zero_mul, fit_of_inRange (inRange_zero C)]
  · rw [if_neg ha.ne', if_pos ha]
    split_ifs with hW
    · have hhalf := half_lt_two_pow_amount hC hW
      have hprod := le_mul_of_one_le_left hpow ha
      exact (fit_of_above (by unfold maxVal; omega)).symm
    · rfl

/-- Settles O18: from amount 0 on, SHL is the range check of the exact product. -/
theorem shlMultipliesExactly : Obligations.ShlMultipliesExactly := by
  rintro s rd ra rb a n ha hb hC rfl rfl
  exact ⟨fun hn => State.runBinary_eq_runNullary (f := shlResult) rd ha hb (if_pos hn), fun hn =>
    (State.runBinary_eq_runNullary rd ha hb (shlResult_of_nonneg hC _ hn)).trans (s.runNullary_fit rd _)⟩

/-! ## SHLW -/

theorem valOf_modEq (C p : Nat) : (p : Int) ≡ valOf C p [ZMOD 2 ^ widthOf C] := by
  unfold valOf
  split
  · exact (Int.sub_modulus_modEq_iff.mpr rfl).symm
  · rfl

/-- A W-bit pattern is the pattern of its value (00_scope.md R8). -/
theorem enc_valOf {C p : Nat} (hp : p < 2 ^ widthOf C) : enc C (valOf C p) = p := by
  rw [← mod_eq_enc (valOf_modEq C p), Nat.mod_eq_of_lt hp]

/-- The cut pattern is the result, also for an amount of W or more, where no bit is left (43_shift.md R140). -/
theorem shlwResult_of_nonneg (C : Nat) (a : Int) {n : Int} (hn : 0 ≤ n) :
    shlwResult C a n = .ok (valOf C (enc C a * 2 ^ n.toNat % 2 ^ widthOf C)) := by
  rw [shlwResult, if_neg hn.not_gt]
  split_ifs with hW
  · have hdvd : 2 ^ widthOf C ∣ enc C a * 2 ^ n.toNat := (pow_dvd_pow 2 (by omega)).mul_left _
    rw [Nat.mod_eq_zero_of_dvd hdvd, valOf, signBit, Nat.zero_testBit]
    rfl
  · rfl

/-- Settles O19: the result is the value of the cut pattern. -/
theorem shlwKeepsLowBits : Obligations.ShlwKeepsLowBits := by
  rintro s rd ra rb n ha hb hC rfl
  have hcut : enc s.cap (s.val ra) * 2 ^ (s.val rb).toNat % 2 ^ widthOf s.cap < 2 ^ widthOf s.cap :=
    Nat.mod_lt _ (Nat.two_pow_pos _)
  exact ⟨fun hn => State.runBinary_eq_runNullary (f := shlwResult) rd ha hb (if_pos hn), fun hn =>
    ⟨_, State.runBinary_eq_runNullary rd ha hb (shlwResult_of_nonneg _ _ hn), inRange_valOf hC hcut, enc_valOf hcut⟩⟩

/-! ## SHR -/

/-- The floor is the result, also for an amount of W or more, where only the sign is left (43_shift.md R141). -/
theorem shrResult_of_nonneg {C : Nat} (hC : 1 ≤ C) {a n : Int} (ha : InRange C a) (hn : 0 ≤ n) :
    shrResult C a n = .ok (a.fdiv (2 ^ n.toNat)) := by
  obtain ⟨hlo, hhi⟩ := ha
  unfold minVal at hlo
  unfold maxVal at hhi
  rw [shrResult, if_neg hn.not_gt, Int.fdiv_eq_ediv_of_nonneg _ (by positivity)]
  split_ifs with hW hneg
  · have hhalf := half_lt_two_pow_amount hC hW
    rw [Int.ediv_eq_neg_one_of_neg_of_le hneg (by omega)]
  · have hhalf := half_lt_two_pow_amount hC hW
    rw [Int.ediv_eq_zero_of_lt (not_lt.mp hneg) (by omega)]
  · rfl

/-- Settles O20: from amount 0 on, SHR writes the floor. -/
theorem shrRoundsDown : Obligations.ShrRoundsDown := by
  rintro s rd ra rb n ha hb hC hrange rfl
  exact ⟨fun hn => State.runBinary_eq_runNullary (f := shrResult) rd ha hb (if_pos hn), fun hn =>
    State.runBinary_eq_runNullary rd ha hb (shrResult_of_nonneg hC hrange hn)⟩

end Sys2Proof.Machine
end

section
/-! The limb shifter: whole-limb moves, then one bit shift (43_shift.md R142). -/

namespace Sys2Proof.Machine

/-! ## Limbs -/

theorem ofLimbs_append (xs ys : List Nat) : ofLimbs (xs ++ ys) = ofLimbs xs + (2 ^ 32) ^ xs.length * ofLimbs ys := by
  simp only [ofLimbs_eq_ofDigits, Nat.ofDigits_append]

theorem ofLimbs_replicate_zero (n : Nat) : ofLimbs (List.replicate n 0) = 0 := by
  rw [ofLimbs_eq_ofDigits, Nat.ofDigits_replicate_zero]

/-- Limbs of ones are one less than the next power. -/
theorem ofLimbs_replicate_ones (m : Nat) : ofLimbs (List.replicate m (2 ^ 32 - 1)) + 1 = (2 ^ 32) ^ m := by
  induction m with
  | zero => rfl
  | succ m ih =>
    rw [List.replicate_succ, ofLimbs, pow_succ' (2 ^ 32), ← ih]
    omega

theorem limbsOf_lt (n p : Nat) : ∀ x ∈ limbsOf n p, x < 2 ^ 32 := by
  induction n generalizing p with
  | zero => exact List.forall_mem_nil _
  | succ n ih => exact List.forall_mem_cons.mpr ⟨Nat.mod_lt _ (Nat.two_pow_pos 32), ih _⟩

theorem ofLimbs_drop {xs : List Nat} (hxs : ∀ x ∈ xs, x < 2 ^ 32) (i : Nat) :
    ofLimbs (xs.drop i) = ofLimbs xs / (2 ^ 32) ^ i := by
  rw [ofLimbs_eq_ofDigits, ofLimbs_eq_ofDigits, Nat.ofDigits_div_pow_eq_ofDigits_drop i (Nat.two_pow_pos 32) xs hxs]

/-- Whole-limb moves and one bit shift make up the amount. -/
theorem two_pow_amount (n : Nat) : (2 ^ 32) ^ (n / 32) * 2 ^ (n % 32) = 2 ^ n := by
  rw [← pow_mul, ← pow_add, Nat.div_add_mod]

/-! ## The left shifter -/

/-- Shifting limb by limb with the carry multiplies the number; the last carry is lost (43_shift.md R142). -/
theorem ofLimbs_shiftLeftBits (k : Nat) (xs : List Nat) (carry : Nat) :
    ofLimbs (shiftLeftBits k xs carry) = (ofLimbs xs * 2 ^ k + carry) % (2 ^ 32) ^ xs.length := by
  induction xs generalizing carry with
  | nil =>
    rw [List.length_nil, pow_zero, Nat.mod_one]
    rfl
  | cons x xs ih =>
    have hsplit : ofLimbs (x :: xs) * 2 ^ k + carry = x * 2 ^ k + carry + 2 ^ 32 * (ofLimbs xs * 2 ^ k) := by
      rw [ofLimbs]
      ring
    rw [shiftLeftBits, ofLimbs, ih, hsplit, List.length_cons, pow_succ' (2 ^ 32), Nat.mod_mul,
      Nat.add_mul_mod_self_left, Nat.add_mul_div_left _ _ (Nat.two_pow_pos 32), Nat.add_comm (ofLimbs xs * 2 ^ k)]

theorem shlPattern_eq {C n : Nat} (hn : n < widthOf C) (p : Nat) :
    shlPattern C p n = p * 2 ^ n % 2 ^ widthOf C := by
  have hq : n / 32 + (C - n / 32) = C := by unfold widthOf at hn; omega
  have hmoved : ofLimbs (List.replicate (n / 32) 0 ++ limbsOf (C - n / 32) p) =
      (2 ^ 32) ^ (n / 32) * p % 2 ^ widthOf C := by
    rw [ofLimbs_append, ofLimbs_replicate_zero, ofLimbs_limbsOf, List.length_replicate, Nat.zero_add,
      ← Nat.mul_mod_mul_left, ← pow_add, hq, pow_limbs C]
  rw [shlPattern, ofLimbs_shiftLeftBits, hmoved, List.length_append, List.length_replicate, length_limbsOf, hq, pow_limbs C,
    Nat.add_zero, Nat.mod_mul_mod, Nat.mul_right_comm, two_pow_amount, Nat.mul_comm]

/-! ## The right shifter -/

/-- The low limb of a shifted number takes its vacated bits from the limbs above (43_shift.md R142). -/
theorem shifted_low_limb {k x : Nat} (hk : k ≤ 32) (hx : x < 2 ^ 32) (y : Nat) :
    (x + 2 ^ 32 * y) / 2 ^ k % 2 ^ 32 = x / 2 ^ k + y * 2 ^ (32 - k) % 2 ^ 32 := by
  have hpow : 2 ^ 32 = 2 ^ (32 - k) * 2 ^ k := by rw [← pow_add, Nat.sub_add_cancel hk]
  have hlow : x / 2 ^ k < 2 ^ (32 - k) := Nat.div_lt_of_lt_mul (by rwa [Nat.mul_comm, ← hpow])
  have hshift : (x + 2 ^ 32 * y) / 2 ^ k = x / 2 ^ k + 2 ^ (32 - k) * y := by
    rw [hpow, Nat.mul_comm _ (2 ^ k), Nat.mul_assoc, Nat.add_mul_div_left _ _ (Nat.two_pow_pos k)]
  rw [hshift, Nat.mul_comm y, hpow, Nat.mod_mul, Nat.add_mul_mod_self_left, Nat.mod_eq_of_lt hlow,
    Nat.add_mul_div_left _ _ (Nat.two_pow_pos _), Nat.div_eq_of_lt hlow, Nat.zero_add, Nat.mul_mod_mul_left]

theorem shiftRightBits_cons (k top x : Nat) (xs : List Nat) :
    shiftRightBits k top (x :: xs) = (x / 2 ^ k + xs.headD top * 2 ^ (32 - k) % 2 ^ 32) :: shiftRightBits k top xs := by
  cases xs <;> rfl

theorem ofLimbs_append_top_mod (xs : List Nat) (top : Nat) : ofLimbs (xs ++ [top]) % 2 ^ 32 = xs.headD top % 2 ^ 32 := by
  cases xs <;> exact Nat.add_mul_mod_self_left _ _ _

/-- Shifting limb by limb divides the number with `top` above it; what stays above the last limb is lost
(43_shift.md R142). -/
theorem ofLimbs_shiftRightBits {k : Nat} (hk : k ≤ 32) (top : Nat) {xs : List Nat} (hxs : ∀ x ∈ xs, x < 2 ^ 32) :
    ofLimbs (shiftRightBits k top xs) = ofLimbs (xs ++ [top]) / 2 ^ k % (2 ^ 32) ^ xs.length := by
  induction xs with
  | nil =>
    rw [List.length_nil, pow_zero, Nat.mod_one]
    rfl
  | cons x xs ih =>
    obtain ⟨hx, hxs⟩ := List.forall_mem_cons.mp hxs
    have hnext : xs.headD top * 2 ^ (32 - k) % 2 ^ 32 = ofLimbs (xs ++ [top]) * 2 ^ (32 - k) % 2 ^ 32 := by
      rw [Nat.mul_mod, ← ofLimbs_append_top_mod, ← Nat.mul_mod]
    have hrest : ofLimbs (x :: (xs ++ [top])) / 2 ^ k / 2 ^ 32 = ofLimbs (xs ++ [top]) / 2 ^ k := by
      rw [Nat.div_right_comm, ofLimbs, Nat.add_mul_div_left _ _ (Nat.two_pow_pos 32), Nat.div_eq_of_lt hx, Nat.zero_add]
    rw [shiftRightBits_cons, ofLimbs, ih hxs, hnext, ← shifted_low_limb hk hx, ← hrest, List.cons_append, List.length_cons,
      pow_succ' (2 ^ 32), Nat.mod_mul]
    rfl

theorem fillLimb_lt (C p : Nat) : fillLimb C p < 2 ^ 32 := by
  unfold fillLimb
  split <;> omega

theorem widthOf_add (C m : Nat) : widthOf (C + m) = widthOf C + widthOf m := Nat.mul_add 32 C m

theorem natCast_enc_of_nonneg {C : Nat} {a : Int} (h0 : 0 ≤ a) (h : a < 2 ^ widthOf C) : (enc C a : Int) = a := by
  rw [natCast_enc, Int.emod_eq_of_lt h0 h]

theorem natCast_enc_of_neg {C : Nat} {a : Int} (h0 : a < 0) (h : -2 ^ widthOf C ≤ a) :
    (enc C a : Int) = a + 2 ^ widthOf C := by
  rw [natCast_enc, ← Int.add_emod_right, Int.emod_eq_of_lt (by omega) (by omega)]

/-- Fill limbs above a pattern extend its sign: they make the wider pattern of the same integer (43_shift.md R142). -/
theorem ofLimbs_sign_extended {C : Nat} (hC : 1 ≤ C) {a : Int} (ha : InRange C a) (m : Nat) :
    ofLimbs (limbsOf C (enc C a) ++ List.replicate m (fillLimb C (enc C a))) = enc (C + m) a := by
  have hhalf : (2 : Int) ^ widthOf C = 2 * 2 ^ (widthOf C - 1) := by exact_mod_cast two_pow_widthOf hC
  have hwide : (2 : Int) ^ widthOf C ≤ 2 ^ widthOf (C + m) :=
    pow_le_pow_right₀ one_le_two (by unfold widthOf; omega)
  obtain ⟨hlo, hhi⟩ := ha
  rw [ofLimbs_append, length_limbsOf, ofLimbs_limbsOf_enc, pow_limbs C, fillLimb, signBit_enc_of_inRange hC ⟨hlo, hhi⟩]
  unfold minVal at hlo
  unfold maxVal at hhi
  rcases lt_or_ge a 0 with h | h
  · have hones : (2 : Int) ^ widthOf C * (ofLimbs (List.replicate m (2 ^ 32 - 1)) + 1) = 2 ^ widthOf (C + m) := by
      rw [widthOf_add, pow_add]
      exact_mod_cast congrArg (2 ^ widthOf C * ·) ((ofLimbs_replicate_ones m).trans (pow_limbs m))
    rw [decide_eq_true h, if_pos rfl, ← Int.natCast_inj, Nat.cast_add, Nat.cast_mul, Nat.cast_pow, Nat.cast_ofNat,
      natCast_enc_of_neg h (by omega), natCast_enc_of_neg h (by omega), ← hones]
    ring
  · rw [decide_eq_false h.not_gt, if_neg Bool.false_ne_true, ofLimbs_replicate_zero, Nat.mul_zero, Nat.add_zero,
      ← Int.natCast_inj, natCast_enc_of_nonneg h (by omega), natCast_enc_of_nonneg h (by omega)]

/-- A pattern that is wider by the amount keeps, shifted right, every bit that counts (43_shift.md R142). -/
theorem enc_div_two_pow_mod {C m n : Nat} (h : n ≤ widthOf m) (a : Int) :
    enc (C + m) a / 2 ^ n % 2 ^ widthOf C = enc C (a / 2 ^ n) := by
  have hpow : (2 : Int) ^ widthOf (C + m) = 2 ^ n * (2 ^ (widthOf m - n) * 2 ^ widthOf C) := by
    rw [widthOf_add, ← pow_add, ← pow_add]
    congr 1
    omega
  have hdiv : enc (C + m) a + 2 ^ widthOf (C + m) * (a / 2 ^ widthOf (C + m)) = a := by
    rw [natCast_enc, Int.emod_add_mul_ediv]
  have hsplit : a = enc (C + m) a + 2 ^ n * (2 ^ (widthOf m - n) * (a / 2 ^ widthOf (C + m)) * 2 ^ widthOf C) := by
    linear_combination (a / 2 ^ widthOf (C + m)) * hpow - hdiv
  have hfloor : a / 2 ^ n = enc (C + m) a / 2 ^ n + 2 ^ (widthOf m - n) * (a / 2 ^ widthOf (C + m)) * 2 ^ widthOf C := by
    rw [← Int.add_mul_ediv_left _ _ (by positivity), ← hsplit]
  apply mod_eq_enc
  rw [hfloor]
  push_cast
  exact (Int.add_mul_modulus_modEq_iff.mpr rfl).symm

/-- The shifter divides the pattern extended by its fill limbs, the topmost of them for the bit shift. -/
theorem shrPattern_enc {C n : Nat} (hn : n < widthOf C) {a : Int} (ha : InRange C a) :
    shrPattern C (enc C a) n = enc C (a / 2 ^ n) := by
  unfold widthOf at hn
  have hq : n / 32 ≤ C := by omega
  have hC : 1 ≤ C := by omega
  have hamount : n ≤ widthOf (n / 32 + 1) := by unfold widthOf; omega
  have hlimbs := limbsOf_lt C (enc C a)
  have hfill : ∀ m, ∀ x ∈ List.replicate m (fillLimb C (enc C a)), x < 2 ^ 32 :=
    fun _ _ hx => List.eq_of_mem_replicate hx ▸ fillLimb_lt C _
  have hmoved : ∀ x ∈ (limbsOf C (enc C a)).drop (n / 32) ++ List.replicate (n / 32) (fillLimb C (enc C a)), x < 2 ^ 32 :=
    List.forall_mem_append.mpr ⟨fun x hx => hlimbs x (List.mem_of_mem_drop hx), hfill _⟩
  calc
    shrPattern C (enc C a) n = ofLimbs ((limbsOf C (enc C a)).drop (n / 32) ++
        List.replicate (n / 32 + 1) (fillLimb C (enc C a))) / 2 ^ (n % 32) % 2 ^ widthOf C := by
      rw [shrPattern, ofLimbs_shiftRightBits (Nat.mod_lt n (by decide)).le _ hmoved, List.append_assoc,
        ← List.replicate_succ', List.length_append, List.length_drop, length_limbsOf, List.length_replicate,
        Nat.sub_add_cancel hq, pow_limbs C]
    _ = enc (C + (n / 32 + 1)) a / 2 ^ n % 2 ^ widthOf C := by
      rw [← List.drop_append_of_le_length (by rwa [length_limbsOf]),
        ofLimbs_drop (List.forall_mem_append.mpr ⟨hlimbs, hfill _⟩), ofLimbs_sign_extended hC ha,
        Nat.div_div_eq_div_mul, two_pow_amount]
    _ = enc C (a / 2 ^ n) := enc_div_two_pow_mod hamount a

/-- Settles O56: limb moves and one bit shift make up the amount, to the left and to the right. -/
theorem shifterIsExact : Obligations.ShifterIsExact := fun C n a ha hn =>
  ⟨shlPattern_eq hn _, by rw [shrPattern_enc hn ha, Int.fdiv_eq_ediv_of_nonneg _ (by positivity)]⟩

end Sys2Proof.Machine
end

section
/-! Multiply: MUL of written operands and the schoolbook multiplier (44_multiply.md R146 to R149). -/

namespace Sys2Proof.Machine

/-! ## MUL -/

/-- A command that completes with the multiplier's check of `v` and writes `rd` (00_scope.md R11, 60_exceptions.md R197). -/
theorem State.runNullary_fitO (s : State) (rd : RegIx) (v : Int) :
    s.runNullary rd (fitO s.cap v) = .next (if v > maxVal s.cap ∨ v < minVal s.cap then s.raise .overflow
      else (s.setV rd v).succeed) := by
  unfold fitO
  split <;> rfl

/-- Settles O21: MUL checks the product of the two values read. -/
theorem mulFitsOrOverflows : Obligations.MulFitsOrOverflows := fun s rd _ _ ha hb =>
  (State.runBinary_eq_runNullary (f := fun C a b => fitO C (a * b)) rd ha hb rfl).trans (s.runNullary_fitO rd _)

/-! ## The magnitude product -/

theorem lt_two_pow_bitLength (n : Nat) : n < 2 ^ bitLength n := by
  unfold bitLength
  split
  · omega
  · exact Nat.lt_log2_self

/-- A number has no limbs from its count on (47_modpow.md R171). -/
theorem lt_pow_limbCount (n : Nat) : n < (2 ^ 32) ^ limbCount n := by
  have hbits : bitLength n ≤ 32 * limbCount n := by
    have : (bitLength n + 31) / 32 ≤ limbCount n := Nat.le_max_right _ _
    omega
  rw [← pow_mul]
  exact (lt_two_pow_bitLength n).trans_le (Nat.pow_le_pow_right Nat.two_pos hbits)

theorem ofLimbs_limbsOf_limbCount (n : Nat) : ofLimbs (limbsOf (limbCount n) n) = n := by
  rw [ofLimbs_limbsOf, Nat.mod_eq_of_lt (lt_pow_limbCount n)]

/-- One row adds `a·B` and the carry to the limbs it covers, `xs`; the carry out takes the place of the limb above them, `r`,
and the limbs further up stay (44_multiply.md R147). -/
theorem mulRow_append (a r : Nat) (rs : List Nat) {xs bs : List Nat} (h : xs.length = bs.length) (carry : Nat) :
    ∃ y ys, mulRow a (xs ++ r :: rs) bs carry = y :: (ys ++ rs) ∧ ys.length = bs.length ∧
      ofLimbs (y :: ys) = ofLimbs xs + a * ofLimbs bs + carry := by
  induction bs generalizing xs carry with
  | nil =>
    obtain rfl := List.length_eq_zero_iff.mp h
    exact ⟨carry, [], rfl, rfl, by simp [ofLimbs]⟩
  | cons b bs ih =>
    cases xs with
    | nil => cases h
    | cons x xs =>
      obtain ⟨y, ys, hrow, hlen, hvalue⟩ := ih (Nat.succ.inj h) ((x + a * b + carry) / 2 ^ 32)
      refine ⟨(x + a * b + carry) % 2 ^ 32, y :: ys, ?_, congrArg Nat.succ hlen, ?_⟩
      · rw [List.cons_append, mulRow, hrow, List.cons_append]
      · have hlimb := Nat.mod_add_div (x + a * b + carry) (2 ^ 32)
        rw [ofLimbs, hvalue]
        simp only [ofLimbs]
        linear_combination hlimb

/-- The rows add `A·B` to the limbs they find; above those stand as many zeros as there are rows (44_multiply.md R147). -/
theorem ofLimbs_mulRows {xs bs : List Nat} (h : xs.length = bs.length) (as : List Nat) :
    ofLimbs (mulRows bs as (xs ++ List.replicate as.length 0)) = ofLimbs xs + ofLimbs as * ofLimbs bs := by
  induction as generalizing xs with
  | nil => simp [mulRows, ofLimbs]
  | cons a as ih =>
    obtain ⟨y, ys, hrow, hlen, hvalue⟩ := mulRow_append a 0 (List.replicate as.length 0) h 0
    have hrows : mulRows bs (a :: as) (xs ++ List.replicate (a :: as).length 0) =
        y :: mulRows bs as (ys ++ List.replicate as.length 0) := by
      rw [List.length_cons, List.replicate_succ, mulRows, hrow]
    rw [ofLimbs] at hvalue
    rw [hrows, ofLimbs, ih hlen, ofLimbs]
    linear_combination hvalue

theorem mulMagnitude_eq (A B : Nat) : mulMagnitude A B = A * B := by
  have hrows := ofLimbs_mulRows (xs := List.replicate (limbCount B) 0) (bs := limbsOf (limbCount B) B)
    (by rw [List.length_replicate, length_limbsOf]) (limbsOf (limbCount A) A)
  rw [length_limbsOf, ← List.replicate_add, ofLimbs_replicate_zero, ofLimbs_limbsOf_limbCount, ofLimbs_limbsOf_limbCount,
    Nat.zero_add] at hrows
  rw [mulMagnitude, Nat.add_comm, hrows]

/-! ## The overflow and sign rule -/

/-- The sign of a product is the exclusive or of the operands' signs (44_multiply.md R148, R149). -/
theorem mul_eq_signed_natAbs (a b : Int) :
    a * b = if (decide (a < 0) != decide (b < 0)) = true then -((a.natAbs * b.natAbs : Nat) : Int)
      else ((a.natAbs * b.natAbs : Nat) : Int) := by
  rw [Nat.cast_mul]
  rcases lt_or_ge a 0 with ha | ha <;> rcases lt_or_ge b 0 with hb | hb
  · simp [ha, hb, abs_of_neg]
  · simp [ha, hb.not_gt, abs_of_neg, abs_of_nonneg hb]
  · simp [ha.not_gt, hb, abs_of_neg, abs_of_nonneg ha]
  · simp [ha.not_gt, hb.not_gt, abs_of_nonneg ha, abs_of_nonneg hb]

/-- Of the magnitudes from `2^(W-1)` on, MIN's alone is in range, and with a minus sign only (44_multiply.md R148). -/
theorem overflowRule_iff {C : Nat} (hC : 1 ≤ C) (P : Nat) (neg : Bool) :
    P ≥ 2 ^ widthOf C ∨ P ≥ 2 ^ (widthOf C - 1) ∧ ¬ (P = 2 ^ (widthOf C - 1) ∧ neg = true) ↔
      (if neg then -(P : Int) else P) > maxVal C ∨ (if neg then -(P : Int) else P) < minVal C := by
  have hW := two_pow_widthOf hC
  have hhalf : ((2 ^ (widthOf C - 1) : Nat) : Int) = 2 ^ (widthOf C - 1) := by norm_cast
  rw [minVal, maxVal]
  cases neg with
  | false =>
    simp only [Bool.false_eq_true, and_false, not_false_eq_true, and_true, if_false]
    omega
  | true =>
    simp only [and_true, if_true]
    omega

/-- Settles O57: the rows give the product of the magnitudes, and the rule checks it with the product's sign. -/
theorem multiplierIsExact : Obligations.MultiplierIsExact := by
  intro C a b hC _ _
  rw [mulDatapath, mulMagnitude_eq, mul_eq_signed_natAbs a b, fitO, ← ite_or]
  exact if_congr (overflowRule_iff hC _ _) rfl rfl

end Sys2Proof.Machine
end

section
/-! Divide: DIV, MOD and DIVMOD of written operands (45_divide.md R151 to R155). -/

namespace Sys2Proof.Machine

/-! ## DIV and MOD -/

/-- A divisor other than 1 and -1 makes a nonzero dividend smaller, and these two keep its magnitude. -/
theorem inRange_tdiv {C : Nat} {a b : Int} (ha : InRange C a) (h : ¬ (a = minVal C ∧ b = -1)) :
    InRange C (a.tdiv b) := by
  rcases eq_or_ne a 0 with rfl | h0
  · rwa [Int.zero_tdiv]
  rcases eq_or_ne b 1 with rfl | h1
  · rwa [Int.tdiv_one]
  rcases eq_or_ne b (-1) with rfl | hneg
  · rw [Int.tdiv_neg, Int.tdiv_one]
    exact inRange_neg ha fun hmin => h ⟨hmin, rfl⟩
  rcases eq_or_ne b 0 with rfl | hb
  · rw [Int.tdiv_zero]
    exact inRange_zero C
  · refine inRange_of_natAbs_lt_natAbs ha ?_
    rw [Int.natAbs_tdiv]
    exact Nat.div_lt_self (Int.natAbs_pos.mpr h0) (by omega)

/-- The quotient leaves the range for `MIN / -1` alone (45_divide.md R153). -/
theorem divResult_eq {C : Nat} {a : Int} (ha : InRange C a) (b : Int) :
    divResult C a b = if b = 0 then .error .divideByZero
      else if a = minVal C ∧ b = -1 then .error .overflow else .ok (a.tdiv b) := by
  rw [divResult, tquot_eq_tdiv]
  split_ifs with _ hmin
  · rfl
  · obtain ⟨rfl, rfl⟩ := hmin
    have hmax := maxVal_eq C
    rw [Int.tdiv_neg, Int.tdiv_one, fit_of_above (by omega)]
  · exact fit_of_inRange (inRange_tdiv ha hmin)

theorem modResult_eq (C : Nat) (a b : Int) :
    modResult C a b = if b = 0 then .error .divideByZero else .ok (a.tmod b) := by
  rw [modResult, trem_eq_tmod]

/-- Settles O22: the range check fails for `MIN / -1` alone, and the remainder has no check. -/
theorem divAndModTruncate : Obligations.DivAndModTruncate := by
  rintro s rd ra rb a b ha hb hrange rfl rfl
  constructor
  · refine (State.runBinary_eq_runNullary rd ha hb (divResult_eq hrange _)).trans ?_
    split_ifs <;> rfl
  · refine (State.runBinary_eq_runNullary rd ha hb (modResult_eq _ _ _)).trans ?_
    split_ifs <;> rfl

/-! ## DIVMOD -/

/-- DIVMOD with two destinations completes with DIV's result, and the remainder beside it (45_divide.md R155). -/
theorem exec_divmod_written {s : State} {rd rc ra rb : RegIx} (h : rd ≠ rc) (ha : s.written ra = true)
    (hb : s.written rb = true) :
    exec (.divmod rd rc ra rb) s = s.finish ((divResult s.cap (s.val ra) (s.val rb)).map fun q =>
      ⟨[(rd, q), (rc, trem (s.val ra) (s.val rb))], none⟩) := by
  simp only [exec, execDivmod, if_neg h, State.readV_written ha, State.readV_written hb]

/-- A remainder is 0 or has the dividend's sign (45_divide.md R151). -/
theorem tmod_eq_zero_or_sign_eq (a b : Int) : a.tmod b = 0 ∨ (a.tmod b).sign = a.sign := by
  by_cases h : b ∣ a
  · exact .inl (Int.tmod_eq_zero_of_dvd h)
  · exact .inr (by rw [Int.sign_tmod, if_neg h])

theorem abs_tmod_lt (a : Int) {b : Int} (hb : b ≠ 0) : |a.tmod b| < |b| := by
  have hlt := natAbs_trem_lt a hb
  rw [trem_eq_tmod] at hlt
  rw [Int.abs_eq_natAbs, Int.abs_eq_natAbs]
  exact_mod_cast hlt

/-- Settles O23: DIV's result decides for both destinations. -/
theorem divmodWritesBoth : Obligations.DivmodWritesBoth := by
  rintro s rd rc ra rb a b ha hb hrange rfl rfl
  refine ⟨fun h => ?illegal, fun h h0 => ?zero, fun h hmin hneg => ?overflow, fun h h0 hmin => ?both⟩
  case illegal => exact if_pos h
  case zero =>
    rw [exec_divmod_written h ha hb, divResult_eq hrange, if_pos h0]
    rfl
  case overflow =>
    rw [exec_divmod_written h ha hb, divResult_eq hrange, if_neg (by omega), if_pos ⟨hmin, hneg⟩]
    rfl
  case both =>
    refine ⟨_, _, ?_, Int.tdiv_mul_add_tmod _ _, abs_tmod_lt _ h0, tmod_eq_zero_or_sign_eq _ _⟩
    rw [exec_divmod_written h ha hb, divResult_eq hrange, if_neg h0, if_neg hmin, trem_eq_tmod]
    rfl

end Sys2Proof.Machine
end

section
/-! The divider: single-limb division and Algorithm D on magnitudes, then the signs (45_divide.md R156 to R158). -/

namespace Sys2Proof.Machine

/-! ## Powers of the base -/

theorem limbPower_pos (i : Nat) : 0 < limbPower i := Nat.two_pow_pos _

theorem limbPower_succ (i : Nat) : limbPower (i + 1) = limbPower i * 2 ^ 32 := by
  rw [limbPower, limbPower, ← pow_add, Nat.mul_succ]

/-- The topmost limb has nothing above it to be cut off. -/
theorem limbOf_eq_div {p i : Nat} (h : p < limbPower (i + 1)) : limbOf p i = p / limbPower i := by
  rw [limbPower_succ] at h
  exact Nat.mod_eq_of_lt (Nat.div_lt_of_lt_mul h)

/-- A number from limb `i` on is the number from limb `i + 1` on with limb `i` below it. -/
theorem div_limbPower_succ_mul_add (p i : Nat) : p / limbPower (i + 1) * 2 ^ 32 + limbOf p i = p / limbPower i := by
  rw [limbPower_succ, ← Nat.div_div_eq_div_mul]
  exact Nat.div_add_mod' _ _

/-! ## Single-limb division -/

theorem shortDivision_nil (d q r : Nat) : shortDivision d [] q r = (q, r) := rfl

/-- The second equation of the definition; `rw [shortDivision]` would have Lean count up to `2 ^ 32` to find it. -/
theorem shortDivision_cons (d x : Nat) (xs : List Nat) (q r : Nat) :
    shortDivision d (x :: xs) q r =
      shortDivision d xs (q * 2 ^ 32 + (r * 2 ^ 32 + x) / d) ((r * 2 ^ 32 + x) % d) :=
  shortDivision.eq_def d (x :: xs) q r

/-- One step of long division: dividing the leading part `t` leaves the same division of its remainder. -/
theorem div_mod_step (t p y : Nat) {d : Nat} (hd : 0 < d) :
    (t * p + y) / d = t / d * p + (t % d * p + y) / d ∧ (t * p + y) % d = (t % d * p + y) % d := by
  have hsplit : t * p + y = t % d * p + y + d * (t / d * p) := by
    linear_combination p * (Nat.div_add_mod t d).symm
  rw [hsplit, Nat.add_mul_div_left _ _ hd, Nat.add_mul_mod_self_left]
  exact ⟨Nat.add_comm _ _, rfl⟩

/-- Long division goes on from a quotient `q` and a remainder `r` through the limbs left (45_divide.md R156). -/
theorem shortDivision_eq {d : Nat} (hd : 0 < d) (xs : List Nat) (q : Nat) {r : Nat} (hr : r < d) :
    shortDivision d xs q r =
      (q * (2 ^ 32) ^ xs.length + (r * (2 ^ 32) ^ xs.length + ofLimbs xs.reverse) / d,
        (r * (2 ^ 32) ^ xs.length + ofLimbs xs.reverse) % d) := by
  induction xs generalizing q r with
  | nil => simp [shortDivision_nil, ofLimbs, Nat.div_eq_of_lt hr, Nat.mod_eq_of_lt hr]
  | cons x xs ih =>
    have hvalue : r * (2 ^ 32) ^ (x :: xs).length + ofLimbs (x :: xs).reverse =
        (r * 2 ^ 32 + x) * (2 ^ 32) ^ xs.length + ofLimbs xs.reverse := by
      simp only [List.length_cons, List.reverse_cons, ofLimbs_append, List.length_reverse, ofLimbs]
      ring
    obtain ⟨hdiv, hmod⟩ := div_mod_step (r * 2 ^ 32 + x) ((2 ^ 32) ^ xs.length) (ofLimbs xs.reverse) hd
    rw [shortDivision_cons, ih _ (Nat.mod_lt _ hd), hvalue, hdiv, hmod, List.length_cons, pow_succ' (2 ^ 32),
      Nat.add_mul, Nat.mul_assoc, Nat.add_assoc]

/-! ## A quotient digit -/

/-- A digit that fits the window fits its leading limbs and the divisor's (45_divide.md R157). -/
theorem mul_div_le_div_of_mul_le {q V W : Nat} (h : q * V ≤ W) (p : Nat) : q * (V / p) ≤ W / p :=
  (Nat.mul_div_le_mul_div_assoc _ _ _).trans (Nat.div_le_div_right h)

/-- The correction never takes the estimate below a digit `d` that fits the three leading limbs of the window, however
often it goes round (45_divide.md R157). -/
theorem le_correctEstimate {top second u num d : Nat} (hd : d < 2 ^ 32)
    (hfit : d * (top * 2 ^ 32 + second) ≤ num * 2 ^ 32 + u) (fuel : Nat) {qhat rhat : Nat} (hle : d ≤ qhat)
    (hnum : qhat * top + rhat = num) : d ≤ correctEstimate top second u fuel qhat rhat := by
  induction fuel generalizing qhat rhat with
  | zero => exact hle
  | succ fuel ih =>
    unfold correctEstimate
    split
    case isTrue hbig =>
      have hlt : d < qhat := by
        rcases hbig with hbig | hbig
        · exact hd.trans_le hbig
        · refine lt_of_le_of_ne hle ?_
          rintro rfl
          nlinarith
      split
      · exact Nat.le_sub_one_of_lt hlt
      · refine ih (Nat.le_sub_one_of_lt hlt) ?_
        obtain ⟨e, rfl⟩ := Nat.exists_eq_add_of_lt hlt
        rw [← hnum, Nat.add_sub_cancel]
        ring
    case isFalse => exact hle

/-- Trial subtraction comes down to the quotient from every estimate above it (45_divide.md R157). -/
theorem trialSubtract_eq {V : Nat} (hV : 0 < V) (W fuel : Nat) {qhat : Nat} (hle : W / V ≤ qhat)
    (hfuel : qhat ≤ W / V + fuel) : trialSubtract V W fuel qhat = W / V := by
  induction fuel generalizing qhat with
  | zero => exact le_antisymm hfuel hle
  | succ fuel ih =>
    unfold trialSubtract
    split_ifs with hbig
    · have hlt : W / V < qhat := (Nat.div_lt_iff_lt_mul hV).mpr hbig
      exact ih (Nat.le_sub_one_of_lt hlt) (Nat.sub_le_of_le_add hfuel)
    · exact le_antisymm ((Nat.le_div_iff_mul_le hV).mpr (not_lt.mp hbig)) hle

/-- A quotient digit of a divisor of `k + 2` limbs is exact: the estimate is at least the quotient of the window, and
trial subtraction does the rest (45_divide.md R157). -/
theorem quotientDigit_eq {k V W : Nat} (hlow : limbPower (k + 1) ≤ V) (hV : V < limbPower (k + 2))
    (hW : W < limbPower (k + 3)) (hq : W / V < 2 ^ 32) : quotientDigit (k + 2) V W = W / V := by
  have htop : limbOf V (k + 1) = V / limbPower (k + 1) := limbOf_eq_div hV
  have hnum : limbOf W (k + 2) * 2 ^ 32 + limbOf W (k + 1) = W / limbPower (k + 1) := by
    rw [limbOf_eq_div hW, div_limbPower_succ_mul_add]
  have htop_pos : 0 < V / limbPower (k + 1) := Nat.div_pos hlow (limbPower_pos _)
  have hfits : W / V * V ≤ W := Nat.div_mul_le_self W V
  have hestimate : W / V ≤ W / limbPower (k + 1) / (V / limbPower (k + 1)) :=
    (Nat.le_div_iff_mul_le htop_pos).mpr (mul_div_le_div_of_mul_le hfits _)
  have hcorrected : W / V ≤ correctEstimate (V / limbPower (k + 1)) (limbOf V k) (limbOf W k) 3
      (W / limbPower (k + 1) / (V / limbPower (k + 1))) (W / limbPower (k + 1) % (V / limbPower (k + 1))) := by
    refine le_correctEstimate hq ?_ 3 hestimate (Nat.div_add_mod' _ _)
    rw [div_limbPower_succ_mul_add, div_limbPower_succ_mul_add]
    exact mul_div_le_div_of_mul_le hfits _
  simp only [quotientDigit, Nat.add_sub_cancel, Nat.add_succ_sub_one, htop, hnum]
  exact trialSubtract_eq ((limbPower_pos _).trans_le hlow) W _ hcorrected (Nat.le_add_left _ _)

/-! ## The digit loop -/

theorem digitLoop_zero (n V q U : Nat) : digitLoop n V 0 q U = (q, U) := rfl

/-- The second equation of the definition, found as for `shortDivision_cons`. -/
theorem digitLoop_succ (n V j q U : Nat) :
    digitLoop n V (j + 1) q U =
      digitLoop n V j (q * 2 ^ 32 + quotientDigit n V (U / limbPower j % limbPower (n + 1)))
        (U - quotientDigit n V (U / limbPower j % limbPower (n + 1)) * V * limbPower j) :=
  digitLoop.eq_def n V (j + 1) q U

/-- The loop divides what its `j` digits can still hold (45_divide.md R157). -/
theorem digitLoop_eq {k V : Nat} (hlow : limbPower (k + 1) ≤ V) (hV : V < limbPower (k + 2)) (j q : Nat) {U : Nat}
    (hU : U < V * limbPower j) : digitLoop (k + 2) V j q U = (q * limbPower j + U / V, U % V) := by
  induction j generalizing q U with
  | zero =>
    have hlt : U < V := by rwa [limbPower, Nat.mul_zero, pow_zero, Nat.mul_one] at hU
    rw [digitLoop_zero, limbPower, Nat.mul_zero, pow_zero, Nat.mul_one, Nat.div_eq_of_lt hlt, Nat.mod_eq_of_lt hlt,
      Nat.add_zero]
  | succ j ih =>
    have hpos : 0 < V := (limbPower_pos _).trans_le hlow
    have hwindow : U / limbPower j < V * 2 ^ 32 := by
      rw [Nat.div_lt_iff_lt_mul (limbPower_pos j), Nat.mul_assoc, Nat.mul_comm (2 ^ 32), ← limbPower_succ]
      exact hU
    have hcut : U / limbPower j < limbPower (k + 3) := by
      rw [limbPower_succ]
      exact hwindow.trans (Nat.mul_lt_mul_of_pos_right hV (Nat.two_pow_pos 32))
    have hdigit : quotientDigit (k + 2) V (U / limbPower j % limbPower (k + 3)) = U / (V * limbPower j) := by
      rw [Nat.mod_eq_of_lt hcut, quotientDigit_eq hlow hV hcut (Nat.div_lt_of_lt_mul hwindow), Nat.div_div_eq_div_mul,
        Nat.mul_comm V]
    have hrest : U - U / (V * limbPower j) * V * limbPower j = U % (V * limbPower j) := by
      have := Nat.div_add_mod' U (V * limbPower j)
      rw [Nat.mul_assoc]
      omega
    have hquot : U / (V * limbPower j) * limbPower j + U / V % limbPower j = U / V := by
      rw [← Nat.div_div_eq_div_mul]
      exact Nat.div_add_mod' _ _
    rw [digitLoop_succ, hdigit, hrest, ih _ (Nat.mod_lt _ (Nat.mul_pos hpos (limbPower_pos j))), Nat.mod_mul_right_mod,
      Nat.mod_mul_right_div_self, limbPower_succ j, Nat.add_mul, Nat.add_assoc, hquot, Nat.mul_assoc,
      Nat.mul_comm (2 ^ 32)]

/-! ## Normalization and Algorithm D -/

theorem two_pow_bitLength_sub_one_le {n : Nat} (h : n ≠ 0) : 2 ^ (bitLength n - 1) ≤ n := by
  rw [bitLength, if_neg h]
  exact Nat.log2_self_le h

theorem lt_bitLength {n b : Nat} (h : 2 ^ b ≤ n) : b < bitLength n :=
  (Nat.pow_lt_pow_iff_right one_lt_two).mp (h.trans_lt (lt_two_pow_bitLength n))

/-- The bits of a number of more than one limb end in its topmost limb. -/
theorem limbCount_bounds {n : Nat} (h : 2 ^ 32 ≤ n) :
    2 ≤ limbCount n ∧ 32 * (limbCount n - 1) < bitLength n ∧ bitLength n ≤ 32 * limbCount n := by
  have hbits := lt_bitLength h
  have hcount : limbCount n = (bitLength n + 31) / 32 := Nat.max_eq_right (by omega)
  omega

section
variable {B k : Nat} (hB : B ≠ 0) (hlow : 32 * (k + 1) < bitLength B)
include hB hlow

/-- The shift that fills the top limb leaves the number of limbs as it is (45_divide.md R157). -/
theorem normalized_bounds (hhigh : bitLength B ≤ 32 * (k + 2)) :
    limbPower (k + 1) ≤ B * 2 ^ (32 * (k + 2) - bitLength B) ∧
      B * 2 ^ (32 * (k + 2) - bitLength B) < limbPower (k + 2) := by
  constructor
  · calc
      limbPower (k + 1) ≤ 2 ^ (bitLength B - 1) * 2 ^ (32 * (k + 2) - bitLength B) := by
        rw [limbPower, ← pow_add]
        exact Nat.pow_le_pow_right Nat.two_pos (by omega)
      _ ≤ _ := Nat.mul_le_mul_right _ (two_pow_bitLength_sub_one_le hB)
  · calc
      _ < 2 ^ bitLength B * 2 ^ (32 * (k + 2) - bitLength B) :=
        Nat.mul_lt_mul_of_pos_right (lt_two_pow_bitLength B) (Nat.two_pow_pos _)
      _ = limbPower (k + 2) := by rw [limbPower, ← pow_add, Nat.add_sub_cancel' hhigh]

/-- Algorithm D's number of digits holds the quotient (45_divide.md R157). -/
theorem lt_mul_limbPower_digits (A : Nat) : A < B * limbPower (limbCount A - (k + 2) + 1) := calc
  A < (2 ^ 32) ^ limbCount A := lt_pow_limbCount A
  _ ≤ 2 ^ (bitLength B - 1) * limbPower (limbCount A - (k + 2) + 1) := by
    rw [limbPower, ← pow_mul, ← pow_add]
    exact Nat.pow_le_pow_right Nat.two_pos (by omega)
  _ ≤ _ := Nat.mul_le_mul_right _ (two_pow_bitLength_sub_one_le hB)

end

/-- Algorithm D is exact: normalizing multiplies dividend, divisor and remainder by one factor (45_divide.md R157). -/
theorem algorithmD_eq (A : Nat) {B : Nat} (hB : 2 ^ 32 ≤ B) : algorithmD A B = (A / B, A % B) := by
  obtain ⟨hcount, hlow, hhigh⟩ := limbCount_bounds hB
  obtain ⟨k, hk⟩ := Nat.exists_eq_add_of_le' hcount
  rw [hk] at hlow hhigh
  have hB0 : B ≠ 0 := by omega
  have hsh : 0 < 2 ^ (32 * (k + 2) - bitLength B) := Nat.two_pow_pos _
  obtain ⟨hVlow, hVhigh⟩ := normalized_bounds hB0 hlow hhigh
  have hU : A * 2 ^ (32 * (k + 2) - bitLength B) <
      B * 2 ^ (32 * (k + 2) - bitLength B) * limbPower (limbCount A - (k + 2) + 1) := by
    rw [Nat.mul_right_comm]
    exact Nat.mul_lt_mul_of_pos_right (lt_mul_limbPower_digits hB0 hlow A) hsh
  simp only [algorithmD, hk, digitLoop_eq hVlow hVhigh _ _ hU]
  rw [Nat.zero_mul, Nat.zero_add, Nat.mul_div_mul_right _ _ hsh, Nat.mul_mod_mul_right, Nat.mul_div_cancel _ hsh]

/-! ## The front end -/

theorem divideMagnitudes_eq (A : Nat) {B : Nat} (hB : 0 < B) : divideMagnitudes A B = (A / B, A % B) := by
  unfold divideMagnitudes
  split_ifs with hlt hlimb
  · rw [Nat.div_eq_of_lt hlt, Nat.mod_eq_of_lt hlt]
  · rw [shortDivision_eq hB _ _ hB, List.reverse_reverse, ofLimbs_limbsOf_limbCount, Nat.zero_mul, Nat.zero_add,
      Nat.zero_add]
  · exact algorithmD_eq A (not_lt.mp hlimb)

/-- The remainder's sign is the dividend's (45_divide.md R151). -/
theorem trem_eq_sign_mul (a b : Int) : trem a b = a.sign * ((a.natAbs % b.natAbs : Nat) : Int) := by
  have hmag : (b.natAbs : Int) * (a.natAbs / b.natAbs : Nat) + (a.natAbs % b.natAbs : Nat) = a.natAbs := by
    exact_mod_cast Nat.div_add_mod a.natAbs b.natAbs
  have ha := Int.sign_mul_natAbs a
  have hb' : b * b.sign = b.natAbs := Int.mul_sign_self b
  rw [trem, tquot]
  linear_combination -a.sign * hmag - ha - a.sign * (a.natAbs / b.natAbs : Nat) * hb'

/-- A sign times a magnitude, as a choice between the magnitude and its negation. -/
theorem ite_neg_eq_sign_mul {s : Int} {m : Nat} (h : s = 0 → m = 0) :
    (if s < 0 then -(m : Int) else m) = s.sign * m := by
  rcases lt_trichotomy s 0 with hs | rfl | hs
  · rw [if_pos hs, Int.sign_eq_neg_one_of_neg hs, neg_one_mul]
  · simp [h rfl]
  · rw [if_neg hs.not_gt, Int.sign_eq_one_of_pos hs, one_mul]

/-- Settles O58: the magnitudes divide exactly, and the sign rule is that of `tquot` and `trem`. -/
theorem dividerIsExact : Obligations.DividerIsExact := by
  intro a b hb
  rw [divideDatapath, divideMagnitudes_eq _ (Int.natAbs_pos.mpr hb), trem_eq_sign_mul, tquot, Prod.mk.injEq]
  constructor
  · rw [ite_neg_eq_sign_mul, Int.sign_mul, Int.sign_sign, Int.sign_sign]
    intro h
    have ha : a = 0 := by simpa [hb] using h
    simp [ha]
  · exact ite_neg_eq_sign_mul (by rintro rfl; simp)

end Sys2Proof.Machine
end

section
/-! GCD of written operands and Euclid's iteration (46_gcd_inverse.md R163, R164). -/

namespace Sys2Proof.Machine

/-! ## Euclid's iteration -/

/-- A round keeps the greatest common divisor and makes `y` smaller, so `y + 1` rounds come to its end
(46_gcd_inverse.md R164). -/
theorem gcdLoop_eq_gcd {fuel x y : Nat} (hfuel : y < fuel) : gcdLoop fuel x y = Nat.gcd x y := by
  induction fuel generalizing x y with
  | zero => exact absurd hfuel (Nat.not_lt_zero y)
  | succ fuel ih =>
    rw [gcdLoop]
    split
    case isTrue h => rw [h, Nat.gcd_zero_right]
    case isFalse h =>
      have hrest : x % y < y := Nat.mod_lt x (Nat.pos_of_ne_zero h)
      rw [ih (by omega), Nat.gcd_comm x, Nat.gcd_rec y x, Nat.gcd_comm]

/-- Settles O59: the loop has enough rounds, and the greatest common divisor is the same in either order. -/
theorem euclidIsGcd : Obligations.EuclidIsGcd := by
  intro a b
  rw [gcdDatapath, gcdLoop_eq_gcd (Nat.lt_succ_self _)]
  rcases le_total a.natAbs b.natAbs with h | h
  · exact (congrArg₂ Nat.gcd (Nat.max_eq_right h) (Nat.min_eq_left h)).trans (Nat.gcd_comm _ _)
  · exact congrArg₂ Nat.gcd (Nat.max_eq_left h) (Nat.min_eq_right h)

/-! ## GCD -/

/-- Of the values in range, MIN's multiples are MIN itself and 0. -/
theorem minVal_dvd_iff {C : Nat} {a : Int} (ha : InRange C a) : minVal C ∣ a ↔ a = minVal C ∨ a = 0 := by
  constructor
  · intro hdvd
    refine or_iff_not_imp_right.mpr fun h0 => ?_
    have hle := Int.natAbs_le_of_dvd_ne_zero hdvd h0
    have hmax := maxVal_eq C
    omega
  · rintro (rfl | rfl)
    · exact dvd_rfl
    · exact dvd_zero _

theorem gcd_le_neg_minVal {C : Nat} {a b : Int} (ha : InRange C a) (hb : InRange C b) :
    (Int.gcd a b : Int) ≤ -minVal C := by
  have hmax := maxVal_eq C
  rcases eq_or_ne a 0 with rfl | h0
  · rw [Int.gcd_zero_left]
    omega
  · have hle : Int.gcd a b ≤ a.natAbs := Int.gcd_le_natAbs_left b h0
    omega

/-- The greatest common divisor leaves the range where it is `2^(W-1)`, which is where MIN divides both operands
(46_gcd_inverse.md R163). -/
theorem maxVal_lt_gcd_iff {C : Nat} {a b : Int} (ha : InRange C a) (hb : InRange C b) :
    (Int.gcd a b : Int) > maxVal C ↔
      (a = minVal C ∨ a = 0) ∧ (b = minVal C ∨ b = 0) ∧ ¬ (a = 0 ∧ b = 0) := by
  rw [← minVal_dvd_iff ha, ← minVal_dvd_iff hb, ← Int.gcd_eq_zero_iff, ← and_assoc, ← Int.dvd_coe_gcd_iff]
  have hmax := maxVal_eq C
  have hle := gcd_le_neg_minVal ha hb
  constructor
  · intro habove
    have heq : (Int.gcd a b : Int) = -minVal C := by omega
    have hmin : minVal C < 0 := by simp [minVal]
    exact ⟨heq ▸ dvd_neg.mpr dvd_rfl, by omega⟩
  · rintro ⟨hdvd, h0⟩
    have := Int.natAbs_le_of_dvd_ne_zero hdvd (by omega)
    omega

/-- Settles O24: the greatest common divisor has one error, Overflow, and MIN divides both operands where it leaves the
range. -/
theorem gcdOfMagnitudes : Obligations.GcdOfMagnitudes := by
  rintro s rd ra rb a b ha hb - hra hrb rfl rfl
  calc exec (.gcd rd ra rb) s
    _ = s.runNullary rd (fit s.cap (Int.gcd (s.val ra) (s.val rb))) :=
      State.runBinary_eq_runNullary (f := gcdResult) rd ha hb rfl
    _ = .next (if (Int.gcd (s.val ra) (s.val rb) : Int) > maxVal s.cap then s.raise .overflow
          else (s.setV rd (Int.gcd (s.val ra) (s.val rb))).succeed) :=
      s.runNullary_fit_of_nonneg rd (Int.natCast_nonneg _)
    _ = _ := congrArg _ (if_congr (maxVal_lt_gcd_iff hra hrb) rfl rfl)

end Sys2Proof.Machine
end

section
/-! MODINV of written operands: the extended Euclidean algorithm gives the inverse (46_gcd_inverse.md R165, R166). -/

namespace Sys2Proof.Machine

/-! ## The loop -/

theorem euclidLoop_of_eq_zero (m : Int) (fuel : Nat) (r0 p0 p1 : Int) :
    euclidLoop m (fuel + 1) r0 0 p0 p1 = (r0, p0) := if_pos rfl

/-- A round takes the remainder of the two remainders. -/
theorem euclidLoop_of_ne_zero (m : Int) (fuel : Nat) (r0 : Int) {r1 : Int} (p0 p1 : Int) (h : r1 ≠ 0) :
    euclidLoop m (fuel + 1) r0 r1 p0 p1 =
      euclidLoop m fuel r1 (r0 % r1) p1 (trem (p0 - r0 / r1 * p1) m) := by
  rw [euclidLoop, if_neg h, Int.emod_def, mul_comm r1]

/-- With more rounds than `r1`, the last nonzero remainder is the greatest common divisor (46_gcd_inverse.md R166). -/
theorem euclidLoop_fst (m : Int) {fuel : Nat} {r0 r1 : Int} (p0 p1 : Int) (h0 : 0 ≤ r0) (h1 : 0 ≤ r1) (hfuel : r1 < fuel) :
    (euclidLoop m fuel r0 r1 p0 p1).1 = Int.gcd r0 r1 := by
  induction fuel generalizing r0 r1 p0 p1 with
  | zero => exact absurd hfuel h1.not_gt
  | succ fuel ih =>
    rcases eq_or_ne r1 0 with rfl | hr
    · rw [euclidLoop_of_eq_zero, Int.gcd_zero_right, Int.natAbs_of_nonneg h0]
    · have hlt : r0 % r1 < r1 := Int.emod_lt_of_pos r0 (by omega)
      rw [euclidLoop_of_ne_zero _ _ _ _ _ hr, ih _ _ h1 (Int.emod_nonneg r0 hr) (by omega), Int.gcd_comm, Int.gcd_emod]

/-- Each remainder is its coefficient times `a`, up to a multiple of `m` (46_gcd_inverse.md R166). -/
theorem dvd_euclidLoop {m a : Int} (fuel : Nat) {r0 r1 p0 p1 : Int} (h0 : m ∣ a * p0 - r0) (h1 : m ∣ a * p1 - r1) :
    m ∣ a * (euclidLoop m fuel r0 r1 p0 p1).2 - (euclidLoop m fuel r0 r1 p0 p1).1 := by
  induction fuel generalizing r0 r1 p0 p1 with
  | zero => exact h0
  | succ fuel ih =>
    rcases eq_or_ne r1 0 with rfl | hr
    · rwa [euclidLoop_of_eq_zero]
    · rw [euclidLoop_of_ne_zero _ _ _ _ _ hr]
      refine ih h1 ?_
      obtain ⟨k0, hk0⟩ := h0
      obtain ⟨k1, hk1⟩ := h1
      refine ⟨k0 - r0 / r1 * k1 - a * tquot (p0 - r0 / r1 * p1) m, ?_⟩
      rw [trem, Int.emod_def]
      linear_combination hk0 - r0 / r1 * hk1

/-- The coefficient answered is below the modulus: the loop takes up the coefficient `p1` only after a remainder `r1` that
is not 0 (46_gcd_inverse.md R166). -/
theorem natAbs_euclidLoop_lt {m : Int} (hm : m ≠ 0) (fuel : Nat) (r0 : Int) {r1 p0 p1 : Int} (h0 : p0.natAbs < m.natAbs)
    (h1 : r1 ≠ 0 → p1.natAbs < m.natAbs) : (euclidLoop m fuel r0 r1 p0 p1).2.natAbs < m.natAbs := by
  induction fuel generalizing r0 r1 p0 p1 with
  | zero => exact h0
  | succ fuel ih =>
    rcases eq_or_ne r1 0 with rfl | hr
    · rwa [euclidLoop_of_eq_zero]
    · rw [euclidLoop_of_ne_zero _ _ _ _ _ hr]
      exact ih _ (h1 hr) fun _ => natAbs_trem_lt _ hm

/-! ## The algorithm -/

section
variable (a : Int) {m : Int} (hm : 0 < m)
include hm

theorem extendedEuclid_fst : (extendedEuclid a m).1 = Int.gcd a m := by
  have hnonneg := Int.emod_nonneg a hm.ne'
  rw [extendedEuclid, euclidLoop_fst m 0 1 hm.le hnonneg (by omega), Int.gcd_comm, Int.gcd_emod]

theorem dvd_extendedEuclid : m ∣ a * (extendedEuclid a m).2 - Int.gcd a m := by
  rw [← extendedEuclid_fst a hm]
  exact dvd_euclidLoop _ ⟨-1, by ring⟩ ⟨a / m, by rw [Int.emod_def]; ring⟩

theorem natAbs_extendedEuclid_lt : (extendedEuclid a m).2.natAbs < m.natAbs := by
  refine natAbs_euclidLoop_lt hm.ne' _ m (Int.natAbs_pos.mpr hm.ne') fun hr => ?_
  have hnonneg := Int.emod_nonneg a hm.ne'
  have hlt := Int.emod_lt_of_pos a hm
  omega

/-! ## MODINV -/

theorem modInvResult_of_gcd_ne_one (C : Nat) (h : Int.gcd a m ≠ 1) : modInvResult C a m = .error .noInverse := by
  rw [modInvResult, if_neg hm.not_ge, extendedEuclid_fst a hm, if_pos (by exact_mod_cast h)]

/-- One addition of the modulus brings the coefficient into `[0, m)` (46_gcd_inverse.md R166). -/
theorem modInvResult_of_gcd_eq_one (C : Nat) (h : Int.gcd a m = 1) :
    ∃ x, modInvResult C a m = .ok x ∧ 0 ≤ x ∧ x < m ∧ m ∣ a * x - 1 := by
  have hdvd := dvd_extendedEuclid a hm
  have hlt := natAbs_extendedEuclid_lt a hm
  rw [h, Nat.cast_one] at hdvd
  rw [modInvResult, if_neg hm.not_ge, extendedEuclid_fst a hm, h, if_neg (not_not.mpr Nat.cast_one)]
  split
  case isTrue hneg =>
    refine ⟨_, rfl, by omega, by omega, ?_⟩
    rw [mul_add, add_sub_right_comm]
    exact dvd_add hdvd (dvd_mul_left m a)
  case isFalse hneg => exact ⟨_, rfl, by omega, by omega, hdvd⟩

end

/-- Two inverses of one value differ by a multiple of the modulus, so `[0, m)` holds one at most (46_gcd_inverse.md
R165). -/
theorem inverse_unique {a m x y : Int} (hx0 : 0 ≤ x) (hxm : x < m) (hx : m ∣ a * x - 1) (hy0 : 0 ≤ y) (hym : y < m)
    (hy : m ∣ a * y - 1) : y = x := by
  have hdvd : m ∣ y - x := by
    have hcombined := dvd_sub (dvd_mul_of_dvd_right hy x) (dvd_mul_of_dvd_right hx y)
    rwa [show x * (a * y - 1) - y * (a * x - 1) = y - x by ring] at hcombined
  exact sub_eq_zero.mp (Int.eq_zero_of_abs_lt_dvd hdvd (abs_sub_lt_iff.mpr ⟨by omega, by omega⟩))

/-- Settles O25: the modulus is checked first, then the extended Euclidean algorithm tells coprime operands and finds their
inverse. -/
theorem modinvInverts : Obligations.ModinvInverts := by
  rintro s rd ra rb a m ha hb rfl rfl
  refine ⟨fun hm => ?_, fun hm h => ?_, fun hm h => ?_⟩
  · exact State.runBinary_eq_runNullary (f := modInvResult) rd ha hb (if_pos hm)
  · exact State.runBinary_eq_runNullary rd ha hb (modInvResult_of_gcd_ne_one _ hm _ h)
  · obtain ⟨x, hok, h0, hlt, hdvd⟩ := modInvResult_of_gcd_eq_one _ hm s.cap h
    exact ⟨x, State.runBinary_eq_runNullary rd ha hb hok, h0, hlt, hdvd, fun _ => inverse_unique h0 hlt hdvd⟩

end Sys2Proof.Machine
end


section
/-! What an exception leaves of the state: failures change STATUS alone, and each shows the code of its kind (60_exceptions.md
R194 to R199). -/

namespace Sys2Proof.Machine

/-- A completion that shows a code is a failure: everything but STATUS and the latch stands (60_exceptions.md R198). -/
theorem State.complete_eq_of_err_ne_zero (s : State) {r : Except ErrorKind Writes} (h : (s.complete r).err ≠ 0) :
    s.complete r = { s with err := (s.complete r).err, estk := true, latch := none } := by
  rcases s.complete_cases r with ⟨w, _, e⟩ | ⟨k, _, e⟩
  · obtain ⟨_, _, _, hw⟩ := s.commit_eq w
    rw [e, hw] at h
    exact absurd rfl h
  · rw [e]
    rfl

/-- Settles O35: a command is a completion of the state that its reads left, and a completion that shows a code is a
failure. -/
theorem failuresArePrecise : Obligations.FailuresArePrecise := by
  intro i s t h herr
  obtain ⟨d, f, r, he, -, -⟩ := exec_eq_complete i s
  cases he.symm.trans h
  refine ((s.drawn d f).complete_eq_of_err_ne_zero herr).trans ?_
  rw [State.complete_draws, State.complete_faulted]
  rfl

/-- Settles O36: the table of codes is evaluated, and a failure writes the code of its kind. -/
theorem failuresShowTheirCodes : Obligations.FailuresShowTheirCodes := fun _ => ⟨rfl, fun _ => ⟨rfl, rfl, rfl⟩⟩

end Sys2Proof.Machine
end

section
/-! Resets, and which steps change a value register (10_state.md R22, R42, R43; 70_reset_and_hazards.md R225 to R231). -/

namespace Sys2Proof.Machine

/-! ## Resets -/

/-- STATUS is zero when the latch is empty and its fields are clear (10_state.md R26). -/
theorem State.statusWord_eq_zero {s : State} (hlatch : s.latch = none) (hestk : s.estk = false) (hovr : s.ovr = false)
    (herr : s.err = 0) : s.statusWord = 0 := by
  simp [State.statusWord, State.busy, hlatch, hestk, hovr, herr]

/-- Settles O53: the reset is taken whatever is in flight, and it clears the control state, the registers and the buffers. -/
theorem hardwareResetClears : Obligations.HardwareResetClears := fun s es he =>
  ⟨_, step_of_hwReset he, State.statusWord_eq_zero rfl rfl rfl rfl, rfl, rfl, rfl, rfl,
    fun r => congrArg VReg.written (State.hwReset_getV { s with events := es } r), fun _ => rfl, rfl⟩

/-- Every register is unwritten at reset (10_state.md R42). -/
theorem State.written_reset (r : RegIx) : State.reset.written r = false := by
  simp [State.written, State.getV, State.reset]

/-- Settles O40: the state at reset, field by field. -/
theorem resetValues : Obligations.ResetValues :=
  ⟨State.statusWord_eq_zero rfl rfl rfl rfl, rfl, rfl, rfl, rfl, State.written_reset, fun _ => rfl, rfl⟩

/-! ## Changes of a value register -/

/-- A command changes a register only by naming it as destination and succeeding (10_state.md R22). -/
theorem exec_changes_register {i : Instr} {s t : State} {r : RegIx} (h : exec i s = .next t)
    (hr : t.getV r ≠ s.getV r) : r ∈ i.dests ∧ t.err = 0 := by
  constructor
  · by_contra hdest
    exact hr ((commandFrameRegisters i s t h).1 r hdest)
  · by_contra herr
    exact hr (by rw [failuresArePrecise i s t h herr]; rfl)

theorem State.inFlightDests_of_decode {s : State} {w : Word} {i : Instr} (h : s.latch = some w) (hd : decode w = some i) :
    s.inFlightDests = i.dests := by
  simp [State.inFlightDests, State.inFlight, h, hd]

/-- The core step changes a register only by committing a command in flight that names it (70_reset_and_hazards.md
R230). -/
theorem State.coreStep_changes_register {s t : State} {r : RegIx} (h : s.coreStep = .next t)
    (hr : t.getV r ≠ s.getV r) : r ∈ s.inFlightDests ∧ t.err = 0 := by
  cases hlatch : s.latch with
  | none =>
    rw [State.coreStep_of_idle hlatch] at h
    cases h
    exact absurd rfl hr
  | some w =>
    cases hd : decode w with
    | none =>
      rw [State.coreStep_of_illegal hlatch hd] at h
      cases h
      exact absurd (s.raise_getV _ r) hr
    | some i =>
      rw [State.coreStep_of_latch hlatch hd] at h
      rw [State.inFlightDests_of_decode hlatch hd]
      exact exec_changes_register h hr

theorem State.guarded_getV {s t : State} {r : RegIx} (h : t.getV r = s.getV r) : (s.guarded t).getV r = s.getV r := by
  unfold State.guarded
  split
  · rfl
  · exact h

/-- A write of CTRL changes a register only by a soft reset that abandons a command that names it (10_state.md R43). -/
theorem State.writeCtrl_changes_register {s : State} {v : Word} {r : RegIx} (h : (s.writeCtrl v).getV r ≠ s.getV r) :
    r ∈ s.inFlightDests ∧ v.getLsbD 1 = true := by
  unfold State.writeCtrl at h
  split_ifs at h with hsrst hclr
  · refine ⟨?_, hsrst⟩
    by_contra hdest
    exact h ((s.getV_softReset r).trans (if_neg hdest))
  · exact absurd rfl h
  · exact absurd rfl h

/-- A host write changes a register only by a soft reset through CTRL. -/
theorem State.writeRegion_changes_register {s : State} {q : Region} {off : Nat} {w : Width} {v : Word} {r : RegIx}
    (h : (s.writeRegion q off w v).getV r ≠ s.getV r) : q = .ctrl ∧ r ∈ s.inFlightDests ∧ v.getLsbD 1 = true := by
  cases q with
  | ctrl => exact ⟨rfl, State.writeCtrl_changes_register h⟩
  | status | cap | vwin | vsig => exact absurd rfl h
  | cmd | argLo | argHi | tlen | lb | tb => exact (h (State.guarded_getV rfl)).elim

/-- CTRL stands at offset 8 (20_memory.md R46). -/
theorem eq_of_regionAt_ctrl {off : Nat} (h : regionAt off = some .ctrl) : off / 4 = 2 := by
  unfold regionAt at h
  split_ifs at h with hword
  · split at h
    case h_3 hq => exact hq
    all_goals cases h
  all_goals cases h

/-- CTRL takes aligned 32-bit accesses alone (20_memory.md R54). -/
theorem eq_of_acceptedRegion_ctrl {off : Nat} {w : Width} (h : acceptedRegion off w = some .ctrl) :
    off = 0x8 ∧ w = .b32 := by
  obtain ⟨hr, hw, halign⟩ := acceptedRegion_eq_some.mp h
  obtain rfl : w = .b32 := (Region.accepts_iff.mp hw).resolve_left nofun
  have hword := eq_of_regionAt_ctrl hr
  have halign : off % 4 = 0 := halign
  exact ⟨by omega, rfl⟩

theorem State.hostRead_getV {s t : State} {addr : Nat} {w : Width} (h : s.hostRead addr w = .next t) (r : RegIx) :
    t.getV r = s.getV r := by
  rcases s.hostRead_cases addr w with ⟨-, e⟩ | ⟨_, -, -, e⟩ | ⟨off, q, -, -, e⟩ <;> cases e.symm.trans h
  obtain ⟨_, _, hq⟩ := s.readRegion_eq q off w
  rw [hq]
  rfl

theorem State.hostWrite_changes_register {s t : State} {addr : Nat} {w : Width} {v : Word} {r : RegIx}
    (h : s.hostWrite addr w v = .next t) (hr : t.getV r ≠ s.getV r) :
    s.offsetOf addr = some 0x8 ∧ w = .b32 ∧ r ∈ s.inFlightDests ∧ v.getLsbD 1 = true := by
  rcases s.hostWrite_cases addr w v with ⟨-, e⟩ | ⟨_, -, -, e⟩ | ⟨off, q, hoff, ha, e⟩ <;> cases e.symm.trans h
  obtain ⟨rfl, hdest, hsrst⟩ := State.writeRegion_changes_register (q := q) hr
  obtain ⟨rfl, rfl⟩ := eq_of_acceptedRegion_ctrl ha
  exact ⟨hoff, rfl, hdest, hsrst⟩

/-- Settles O41: of the five kinds of step, a read changes no register, and the others change one for the causes named. -/
theorem registersChangeOnlyWhenNamed : Obligations.RegistersChangeOnlyWhenNamed := by
  intro s t r h hr
  cases he : s.events with
  | nil =>
    rw [step_of_no_event he] at h
    obtain ⟨hdest, herr⟩ := State.coreStep_changes_register h hr
    exact .inr ⟨hdest, .inl ⟨.inl rfl, herr⟩⟩
  | cons e es =>
    cases e with
    | read addr w =>
      rw [step_of_read he] at h
      exact absurd (State.hostRead_getV h r) hr
    | write addr w v =>
      rw [step_of_write he] at h
      obtain ⟨hoff, rfl, hdest, hsrst⟩ := State.hostWrite_changes_register h hr
      exact .inr ⟨hdest, .inr ⟨addr, v, es, rfl, hoff, hsrst⟩⟩
    | hwReset => exact .inl ⟨es, rfl⟩
    | core =>
      rw [step_of_core he] at h
      obtain ⟨hdest, herr⟩ := State.coreStep_changes_register h hr
      exact .inr ⟨hdest, .inl ⟨.inr ⟨es, rfl⟩, herr⟩⟩

end Sys2Proof.Machine
end


section
/-! Runs: every step takes one event, and the core step empties the latch (60_exceptions.md R217, 70_reset_and_hazards.md
R240). -/

namespace Sys2Proof.Machine

/-! ## Each step takes one event -/

/-- The core step always answers; it leaves the block idle and the events as they are (60_exceptions.md R217). -/
theorem State.exists_coreStep (s : State) : ∃ t, s.coreStep = .next t ∧ t.latch = none ∧ t.events = s.events := by
  cases hlatch : s.latch with
  | none => exact ⟨s, State.coreStep_of_idle hlatch, hlatch, rfl⟩
  | some w =>
    cases hd : decode w with
    | none => exact ⟨_, State.coreStep_of_illegal hlatch hd, rfl, rfl⟩
    | some i =>
      rw [State.coreStep_of_latch hlatch hd]
      obtain ⟨d, f, r, he, -, -⟩ := exec_eq_complete i s
      exact ⟨_, he, State.complete_latch _ r, ((s.drawn d f).complete_sameHost r).events⟩

theorem State.writeRegion_events (s : State) (r : Region) (off : Nat) (w : Width) (v : Word) :
    (s.writeRegion r off w v).events = s.events := by
  cases r with
  | status | cap | vwin | vsig => rfl
  | ctrl =>
    change (s.writeCtrl v).events = _
    unfold State.writeCtrl
    split_ifs
    · exact s.softReset_events
    · rfl
    · rfl
  | cmd | argLo | argHi | tlen | lb | tb => exact (apply_ite State.events _ _ _).trans (ite_self _)

theorem State.hostRead_events {s t : State} {addr : Nat} {w : Width} (h : s.hostRead addr w = .next t) :
    t.events = s.events := by
  rcases s.hostRead_cases addr w with ⟨-, e⟩ | ⟨_, -, -, e⟩ | ⟨off, r, -, -, e⟩ <;> cases e.symm.trans h
  obtain ⟨_, _, hr⟩ := s.readRegion_eq r off w
  rw [hr]

theorem State.hostWrite_events {s t : State} {addr : Nat} {w : Width} {v : Word} (h : s.hostWrite addr w v = .next t) :
    t.events = s.events := by
  rcases s.hostWrite_cases addr w v with ⟨-, e⟩ | ⟨_, -, -, e⟩ | ⟨off, r, -, -, e⟩ <;> cases e.symm.trans h
  exact s.writeRegion_events r off w v

/-- The step of an event takes that event and adds none. -/
theorem step_events {s t : State} {e : Event} {es : List Event} (he : s.events = e :: es) (h : step s = .next t) :
    t.events = es := by
  cases e with
  | read addr w =>
    rw [step_of_read he] at h
    exact State.hostRead_events h
  | write addr w v =>
    rw [step_of_write he] at h
    exact State.hostWrite_events h
  | hwReset =>
    rw [step_of_hwReset he] at h
    cases h
    rfl
  | core =>
    rw [step_of_core he] at h
    obtain ⟨u, hu, -, hevents⟩ := State.exists_coreStep { s with events := es }
    cases hu.symm.trans h
    exact hevents

/-! ## Runs -/

/-- A run of one step and more that answers has a first step that answers. -/
theorem exists_step_of_run {n : Nat} {s t : State} (h : Sys2Proof.core.run (n + 1) s = .next t) :
    ∃ u, step s = .next u ∧ Sys2Proof.core.run n u = .next t := by
  rw [run_succ] at h
  cases hstep : step s with
  | next u =>
    rw [hstep] at h
    exact ⟨u, rfl, h⟩
  | fault | refused =>
    rw [hstep] at h
    cases h

theorem run_of_step {n : Nat} {s u : State} (h : step s = .next u) :
    Sys2Proof.core.run (n + 1) s = Sys2Proof.core.run n u := by
  rw [run_succ, h]

/-- A run that takes all events and one step more ends idle, if it answers. -/
theorem run_drains {s t : State} {es : List Event} (he : s.events = es)
    (h : Sys2Proof.core.run (es.length + 1) s = .next t) : t.events = [] ∧ t.latch = none := by
  induction es generalizing s with
  | nil =>
    obtain ⟨u, hstep, hrun⟩ := exists_step_of_run h
    rw [step_of_no_event he] at hstep
    obtain ⟨_, hcore, hlatch, hevents⟩ := s.exists_coreStep
    cases hcore.symm.trans hstep
    cases hrun
    exact ⟨hevents.trans he, hlatch⟩
  | cons e es ih =>
    obtain ⟨u, hstep, hrun⟩ := exists_step_of_run h
    exact ih (step_events he hstep) hrun

/-- Core steps and hardware resets always answer. -/
theorem exists_step_of_core_or_hwReset {s : State} {e : Event} {es : List Event} (he : s.events = e :: es)
    (hkind : e = .core ∨ e = .hwReset) : ∃ u, step s = .next u := by
  rcases hkind with rfl | rfl
  · rw [step_of_core he]
    obtain ⟨u, hu, -, -⟩ := State.exists_coreStep { s with events := es }
    exact ⟨u, hu⟩
  · exact ⟨_, step_of_hwReset he⟩

/-- A run of core steps and hardware resets answers. -/
theorem exists_run_of_core_and_hwReset {s : State} {es : List Event} (he : s.events = es)
    (hkinds : ∀ e ∈ es, e = .core ∨ e = .hwReset) : ∃ t, Sys2Proof.core.run (es.length + 1) s = .next t := by
  induction es generalizing s with
  | nil =>
    obtain ⟨t, hcore, -, -⟩ := s.exists_coreStep
    exact ⟨t, run_of_step ((step_of_no_event he).trans hcore)⟩
  | cons e es ih =>
    obtain ⟨hkind, hkinds⟩ := List.forall_mem_cons.mp hkinds
    obtain ⟨u, hstep⟩ := exists_step_of_core_or_hwReset he hkind
    obtain ⟨t, hrun⟩ := ih (step_events he hstep) hkinds
    exact ⟨t, (run_of_step hstep).trans hrun⟩

/-- Settles O43: each step takes one event, and the step with no event left is the core's, which leaves the block idle. -/
theorem runsDrain : Obligations.RunsDrain :=
  ⟨fun _ _ h => run_drains rfl h, fun _ hkinds =>
    have ⟨t, hrun⟩ := exists_run_of_core_and_hwReset rfl hkinds
    ⟨t, hrun, run_drains rfl hrun⟩⟩

end Sys2Proof.Machine
end


section
/-! MODPOW: Barrett reduction is the remainder, and square-and-multiply the power (47_modpow.md R171 to R177). -/

namespace Sys2Proof.Machine

/-! ## Barrett reduction -/

/-- The top limb of a modulus is not 0 (47_modpow.md R171). -/
theorem limbPower_limbCount_sub_one_le {N : Nat} (hN : 1 ≤ N) : limbPower (limbCount N - 1) ≤ N := by
  rcases lt_or_ge N (2 ^ 32) with h | h
  · have hbits : bitLength N ≤ 32 := by
      by_contra hgt
      exact absurd h (not_lt.mpr ((Nat.pow_le_pow_right Nat.two_pos (by omega)).trans
        (two_pow_bitLength_sub_one_le (Nat.one_le_iff_ne_zero.mp hN))))
    have hcount : limbCount N = 1 := Nat.max_eq_left (by omega)
    rw [hcount]
    exact hN
  · obtain ⟨-, hlow, -⟩ := limbCount_bounds h
    exact (Nat.pow_le_pow_right Nat.two_pos (by omega)).trans (two_pow_bitLength_sub_one_le (Nat.one_le_iff_ne_zero.mp hN))

theorem one_le_limbCount (N : Nat) : 1 ≤ limbCount N := Nat.le_max_left _ _

theorem limbPower_add (i j : Nat) : limbPower (i + j) = limbPower i * limbPower j := by
  rw [limbPower, limbPower, limbPower, ← pow_add, Nat.mul_add]

section
variable {N k x : Nat}

/-- The estimate `q3` of BarrettReduce (47_modpow.md R172). -/
def barrettQuotient (N k x : Nat) : Nat := x / limbPower (k - 1) * barrettConstant N k / limbPower (k + 1)

/-- The base's powers in BarrettReduce: the two shifts together are the dividend of the constant. -/
theorem limbPower_two_mul (hk : 1 ≤ k) : limbPower (2 * k) = limbPower (k - 1) * limbPower (k + 1) := by
  rw [← limbPower_add]
  congr 1
  omega

/-- The estimate is not above the quotient: each of the three divisions rounds down. -/
theorem barrettQuotient_mul_le (hk : 1 ≤ k) : barrettQuotient N k x * N ≤ x := by
  refine Nat.le_of_mul_le_mul_right ?_ (limbPower_pos (k + 1))
  calc barrettQuotient N k x * N * limbPower (k + 1)
    _ = barrettQuotient N k x * limbPower (k + 1) * N := by ring
    _ ≤ x / limbPower (k - 1) * barrettConstant N k * N := Nat.mul_le_mul_right _ (Nat.div_mul_le_self _ _)
    _ = x / limbPower (k - 1) * (barrettConstant N k * N) := by ring
    _ ≤ x / limbPower (k - 1) * limbPower (2 * k) := Nat.mul_le_mul_left _ (Nat.div_mul_le_self _ _)
    _ = x / limbPower (k - 1) * limbPower (k - 1) * limbPower (k + 1) := by rw [limbPower_two_mul hk]; ring
    _ ≤ x * limbPower (k + 1) := Nat.mul_le_mul_right _ (Nat.div_mul_le_self _ _)

/-- The classical bound: each of the three divisions loses less than `N` (47_modpow.md R177). -/
theorem lt_barrettQuotient_add_three_mul (hk : 1 ≤ k) (hN : 0 < N) (hlow : limbPower (k - 1) ≤ N)
    (hx : x < limbPower (2 * k)) : x < (barrettQuotient N k x + 3) * N := by
  have hB := limbPower_pos (k - 1)
  have hP := limbPower_pos (k + 1)
  have hM := limbPower_two_mul hk
  have hq1 : x / limbPower (k - 1) < limbPower (k + 1) := Nat.div_lt_of_lt_mul (hM ▸ hx)
  have h1 : x < x / limbPower (k - 1) * limbPower (k - 1) + limbPower (k - 1) := Nat.lt_div_mul_add hB
  have h2 : limbPower (2 * k) < barrettConstant N k * N + N := Nat.lt_div_mul_add hN
  have h3 : x / limbPower (k - 1) * barrettConstant N k <
      barrettQuotient N k x * limbPower (k + 1) + limbPower (k + 1) := Nat.lt_div_mul_add hP
  generalize x / limbPower (k - 1) = q1 at *
  refine Nat.lt_of_mul_lt_mul_right (a := limbPower (k + 1)) ?_
  calc x * limbPower (k + 1)
    _ < (q1 * limbPower (k - 1) + limbPower (k - 1)) * limbPower (k + 1) := Nat.mul_lt_mul_of_pos_right h1 hP
    _ = q1 * limbPower (2 * k) + limbPower (k - 1) * limbPower (k + 1) := by rw [hM]; ring
    _ ≤ q1 * (barrettConstant N k * N + N) + N * limbPower (k + 1) :=
      Nat.add_le_add (Nat.mul_le_mul_left _ h2.le) (Nat.mul_le_mul_right _ hlow)
    _ = q1 * barrettConstant N k * N + q1 * N + N * limbPower (k + 1) := by ring
    _ ≤ (barrettQuotient N k x * limbPower (k + 1) + limbPower (k + 1)) * N + limbPower (k + 1) * N +
          N * limbPower (k + 1) :=
      Nat.add_le_add_right (Nat.add_le_add (Nat.mul_le_mul_right _ h3.le) (Nat.mul_le_mul_right _ hq1.le)) _
    _ = (barrettQuotient N k x + 3) * N * limbPower (k + 1) := by ring

end

/-- Two residues by `P` subtract to a difference below `P`, with one addition of `P` where that would be negative. -/
theorem corrected_sub_mod {P a x : Nat} (hle : a ≤ x) (hlt : x - a < P) :
    (if x % P < a % P then x % P + P - a % P else x % P - a % P) = x - a := by
  obtain ⟨d, rfl⟩ := Nat.exists_eq_add_of_le hle
  rw [Nat.add_sub_cancel_left] at hlt ⊢
  have ha : a % P < P := Nat.mod_lt a (by omega)
  have hd : d % P = d := Nat.mod_eq_of_lt hlt
  rcases lt_or_ge (a % P + d % P) P with h | h
  · rw [Nat.add_mod_of_add_mod_lt h, hd, if_neg (by omega)]
    omega
  · have hsum := Nat.add_mod_add_of_le_add_mod h
    rw [if_pos (by omega)]
    omega

/-- Subtracting the modulus leaves the remainder as it is. -/
theorem subtractWhile_mod (N fuel r : Nat) : subtractWhile N fuel r % N = r % N := by
  induction fuel generalizing r with
  | zero => rfl
  | succ fuel ih =>
    unfold subtractWhile
    split
    · rw [ih, ← Nat.mod_eq_sub_mod ‹_›]
    · rfl

/-- The corrected difference is `x - q3·N` itself, and the last loop takes its remainder (47_modpow.md R172, R177). -/
theorem barrettReduce_eq_mod {N k x : Nat} (hk : 1 ≤ k) (hN : 0 < N) (hlow : limbPower (k - 1) ≤ N)
    (hhigh : N < limbPower k) (hx : x < limbPower (2 * k)) : barrettReduce N k (barrettConstant N k) x = x % N := by
  have hle := barrettQuotient_mul_le (N := N) (x := x) hk
  have hlt := lt_barrettQuotient_add_three_mul hk hN hlow hx
  have hbelow : x - barrettQuotient N k x * N < limbPower (k + 1) := by
    rw [Nat.add_mul] at hlt
    rw [limbPower_succ]
    omega
  have hreduce : barrettReduce N k (barrettConstant N k) x =
      subtractWhile N ((x - barrettQuotient N k x * N) / N) (x - barrettQuotient N k x * N) := by
    rw [← corrected_sub_mod hle hbelow]
    rfl
  calc barrettReduce N k (barrettConstant N k) x
    _ = barrettReduce N k (barrettConstant N k) x % N := (Nat.mod_eq_of_lt (barrettReduce_lt hN _ _ x)).symm
    _ = (x - barrettQuotient N k x * N) % N := by rw [hreduce, subtractWhile_mod]
    _ = x % N := by
      rw [Nat.mul_comm] at hle ⊢
      exact Nat.sub_mul_mod hle

/-- Settles O60: the limb count bounds the modulus on both sides, and its square by the dividend of the constant. -/
theorem barrettIsModulo : Obligations.BarrettIsModulo := by
  intro N x hN hx
  have hhigh : N < limbPower (limbCount N) := by
    rw [limbPower, pow_mul]
    exact lt_pow_limbCount N
  refine barrettReduce_eq_mod (one_le_limbCount N) hN (limbPower_limbCount_sub_one_le hN) hhigh ?_
  rw [two_mul, limbPower_add]
  exact (hx.trans_eq (pow_two N)).trans (Nat.mul_lt_mul'' hhigh hhigh)

/-! ## Square and multiply -/

/-- A product of two residues is below the bound of Barrett reduction (47_modpow.md R177). -/
theorem barrettReduce_mul {N a b : Nat} (ha : a < N) (hb : b < N) :
    barrettReduce N (limbCount N) (barrettConstant N (limbCount N)) (a * b) = a * b % N :=
  barrettIsModulo N _ (by omega) (pow_two N ▸ Nat.mul_lt_mul'' ha hb)

/-- One round takes the lowest bit of the exponent into the result and squares the base. -/
theorem square_multiply_modEq (N m result base : Nat) :
    (if m % 2 = 1 then result * base % N else result) * (base * base % N) ^ (m / 2) ≡ result * base ^ m [MOD N] := by
  have hsquare : (base * base % N) ^ (m / 2) ≡ base ^ (2 * (m / 2)) [MOD N] := by
    rw [pow_mul, pow_two]
    exact (Nat.mod_modEq _ N).pow _
  split
  · next hodd =>
    have hm : m = 2 * (m / 2) + 1 := by omega
    calc result * base % N * (base * base % N) ^ (m / 2)
      _ ≡ result * base * base ^ (2 * (m / 2)) [MOD N] := (Nat.mod_modEq _ N).mul hsquare
      _ = result * base ^ (2 * (m / 2) + 1) := by ring
      _ = result * base ^ m := by rw [← hm]
  · next heven =>
    have hm : 2 * (m / 2) = m := by omega
    rw [hm] at hsquare
    exact hsquare.mul_left _

/-- The loop multiplies the result by the base's power to the exponent bits from `i` on; the early exit leaves out factors
1 (47_modpow.md R174, R176). -/
theorem powLoop_eq {N : Nat} (e n i : Nat) {result base : Nat} (hn : e / 2 ^ i < 2 ^ n) (hresult : result < N)
    (hbase : base < N) :
    powLoop N (limbCount N) (barrettConstant N (limbCount N)) e n i result base = result * base ^ (e / 2 ^ i) % N := by
  induction n generalizing i result base with
  | zero =>
    rw [Nat.lt_one_iff.mp hn, pow_zero, Nat.mul_one, Nat.mod_eq_of_lt hresult]
    rfl
  | succ n ih =>
    have hN : 0 < N := by omega
    have hnext : e / 2 ^ (i + 1) = e / 2 ^ i / 2 := by rw [pow_succ, Nat.div_div_eq_div_mul]
    have hround := square_multiply_modEq N (e / 2 ^ i) result base
    have hresult' : (if e / 2 ^ i % 2 = 1 then result * base % N else result) < N := by
      split
      · exact Nat.mod_lt _ hN
      · exact hresult
    unfold powLoop
    simp only [Nat.testBit_eq_decide_div_mod_eq, decide_eq_true_eq, barrettReduce_mul hresult hbase,
      barrettReduce_mul hbase hbase]
    split
    · next hone =>
      rw [hone, one_pow, Nat.mul_one] at hround
      exact (Nat.mod_eq_of_lt hresult').symm.trans hround
    · rw [ih (i + 1) (by rw [hnext]; rw [pow_succ] at hn; omega) hresult' (Nat.mod_lt _ hN), hnext]
      exact hround

/-- The magnitude is the power modulo `N` (47_modpow.md R177). -/
theorem powMagnitude_eq (a e : Nat) {N : Nat} (hN : 0 < N) : powMagnitude a e N = a ^ e % N := by
  have hbits : e / 2 ^ 0 < 2 ^ bitLength e := by
    rw [pow_zero, Nat.div_one]
    exact lt_two_pow_bitLength e
  rw [powMagnitude, powLoop_eq e _ 0 hbits (Nat.mod_lt _ hN) (Nat.mod_lt _ hN), pow_zero, Nat.div_one]
  exact ((Nat.mod_modEq 1 N).mul ((Nat.mod_modEq a N).pow e)).trans (by rw [Nat.one_mul])

/-! ## MODPOW -/

/-- A power is negative where its base is negative and its exponent odd (47_modpow.md R175). -/
theorem pow_neg_iff_odd (a : Int) {e : Int} (he : 0 ≤ e) : a ^ e.toNat < 0 ↔ a < 0 ∧ e % 2 = 1 := by
  rcases Nat.even_or_odd e.toNat with h | h
  · have hmod : ¬ e % 2 = 1 := by
      obtain ⟨m, hm⟩ := h
      omega
    exact iff_of_false (h.pow_nonneg a).not_gt fun hand => hmod hand.2
  · have hmod : e % 2 = 1 := by
      obtain ⟨m, hm⟩ := h
      omega
    rw [h.pow_neg_iff, and_iff_left hmod]

section
variable {C : Nat} {e n : Int} (a : Int) (he : 0 ≤ e)
include he

theorem modPowResult_of_zero_modulus (C : Nat) : modPowResult C a e 0 = .error .divideByZero := by
  rw [modPowResult, if_neg he.not_gt, if_pos rfl]

variable (hn : n ≠ 0)
include hn

theorem modPowResult_of_long_modulus (hC : 2 * limbCount n.natAbs + 1 > C) : modPowResult C a e n = .error .overflow := by
  rw [modPowResult, if_neg he.not_gt, if_neg hn, if_pos hC]

/-- The magnitude with its sign restored is the truncating remainder of the power (47_modpow.md R175, R177). -/
theorem modPowResult_eq_ok (hC : 2 * limbCount n.natAbs + 1 ≤ C) : modPowResult C a e n = .ok ((a ^ e.toNat).tmod n) := by
  have hzero : a ^ e.toNat = 0 → a.natAbs ^ e.toNat % n.natAbs = 0 := fun h => by
    rw [← Int.natAbs_pow, h, Int.natAbs_zero, Nat.zero_mod]
  rw [modPowResult, if_neg he.not_gt, if_neg hn, if_neg hC.not_gt, powMagnitude_eq _ _ (Int.natAbs_pos.mpr hn),
    ← trem_eq_tmod, trem_eq_sign_mul, Int.natAbs_pow, ← ite_neg_eq_sign_mul hzero]
  exact congrArg Except.ok (if_congr (pow_neg_iff_odd a he).symm rfl rfl)

end

/-- A command of three written sources completes with its result (00_scope.md R13). -/
theorem State.runTernary_eq_runNullary {s : State} {f : Nat → Int → Int → Int → Except ErrorKind Int}
    {r : Except ErrorKind Int} (rd : RegIx) {ra rb rc : RegIx} (ha : s.written ra = true) (hb : s.written rb = true)
    (hc : s.written rc = true) (hf : f s.cap (s.val ra) (s.val rb) (s.val rc) = r) :
    s.runTernary f rd ra rb rc = s.runNullary rd r := by
  rw [State.runTernary_written ha hb hc, hf, State.runNullary_eq]

/-- Settles O26: exponent, modulus and capacity are checked in this order, and the rest is the remainder of the power. -/
theorem modpowIsRemainderOfPower : Obligations.ModpowIsRemainderOfPower := by
  rintro s rd ra rb rc a e n ha hb hc rfl rfl rfl
  refine ⟨fun he => ?_, fun he hn => ?_, fun he hn hC => ?_, fun he hn hC => ?_⟩
  · exact State.runTernary_eq_runNullary (f := modPowResult) rd ha hb hc (if_pos he)
  · exact State.runTernary_eq_runNullary rd ha hb hc (hn ▸ modPowResult_of_zero_modulus _ he _)
  · exact State.runTernary_eq_runNullary rd ha hb hc (modPowResult_of_long_modulus _ he hn hC)
  · exact State.runTernary_eq_runNullary rd ha hb hc (modPowResult_eq_ok _ he hn hC)

end Sys2Proof.Machine
end


section
/-! FMT of a written operand, and PARSE of what FMT wrote (49_radix.md R189 to R193). -/

namespace Sys2Proof.Machine

/-! ## The string -/

/-- The digit values of an integer's magnitude, the most significant first, with one digit for zero (49_radix.md R189). -/
def magnitudeDigits (radix : Nat) (a : Int) : List Nat :=
  if a = 0 then [0] else (Nat.digits radix a.natAbs).reverse

theorem formatDigits_eq {radix : Nat} (hr : 2 ≤ radix) {fuel m : Nat} (hfuel : m ≤ fuel) (cs : List Byte) :
    formatDigits radix fuel m cs = (Nat.digits radix m).reverse.map charOf ++ cs := by
  induction fuel generalizing m cs with
  | zero =>
    obtain rfl := Nat.le_zero.mp hfuel
    rw [Nat.digits_zero]
    rfl
  | succ fuel ih =>
    rw [formatDigits]
    split
    case isTrue h =>
      rw [h, Nat.digits_zero]
      rfl
    case isFalse h =>
      have hdiv : m / radix < m := Nat.div_lt_self (Nat.pos_of_ne_zero h) hr
      rw [ih (by omega), Nat.digits_def' hr (Nat.pos_of_ne_zero h), List.reverse_cons, List.map_append, List.append_assoc]
      rfl

/-- FMT's string is the sign and the characters of the digits (49_radix.md R189). -/
theorem formatValue_eq {radix : Nat} (hr : 2 ≤ radix) (a : Int) :
    formatValue radix a = (if a < 0 then [0x2D] else []) ++ (magnitudeDigits radix a).map charOf := by
  have hchars : (if a = 0 then [0x30] else formatDigits radix a.natAbs a.natAbs []) =
      (magnitudeDigits radix a).map charOf := by
    unfold magnitudeDigits
    split
    · rfl
    · rw [formatDigits_eq hr le_rfl, List.append_nil]
  rw [formatValue, hchars]
  split <;> rfl

theorem magnitudeDigits_ne_nil (radix : Nat) (a : Int) : magnitudeDigits radix a ≠ [] := by
  unfold magnitudeDigits
  split
  case isTrue => exact List.cons_ne_nil _ _
  case isFalse h =>
    rw [Ne, List.reverse_eq_nil_iff, Nat.digits_eq_nil_iff_eq_zero, Int.natAbs_eq_zero]
    exact h

theorem magnitudeDigits_lt {radix : Nat} (hr : 2 ≤ radix) (a : Int) : ∀ d ∈ magnitudeDigits radix a, d < radix := by
  intro d hd
  unfold magnitudeDigits at hd
  split at hd
  · rw [List.mem_singleton.mp hd]
    omega
  · exact Nat.digits_lt_base hr (List.mem_reverse.mp hd)

theorem ofDigits_magnitudeDigits (radix : Nat) (a : Int) :
    Nat.ofDigits radix (magnitudeDigits radix a).reverse = a.natAbs := by
  unfold magnitudeDigits
  split
  case isTrue h => simp [h]
  case isFalse => rw [List.reverse_reverse, Nat.ofDigits_digits]

/-- PARSE reads the character of every digit below 36 as that digit (40_construction.md R105, 49_radix.md R190). -/
theorem digitOf_charOf : ∀ d < 36, digitOf (charOf d) = some d := by decide

/-- The string FMT writes is a numeral of the value (49_radix.md R193). -/
theorem isNumeral_formatValue {radix : Nat} (h2 : 2 ≤ radix) (h36 : radix ≤ 36) (a : Int) :
    IsNumeral radix (formatValue radix a) a := by
  have hlt := magnitudeDigits_lt h2 a
  have hchars : ((magnitudeDigits radix a).map charOf).map digitOf = (magnitudeDigits radix a).map some := by
    rw [List.map_map]
    exact List.map_congr_left fun d hd => digitOf_charOf d ((hlt d hd).trans_le h36)
  refine ⟨_, _, magnitudeDigits radix a, formatValue_eq h2 a, hchars, magnitudeDigits_ne_nil radix a, hlt, ?_⟩
  rw [ofDigits_magnitudeDigits radix a]
  split
  case isTrue h => exact .inr ⟨rfl, by omega⟩
  case isFalse h => exact .inl ⟨.inl rfl, by omega⟩

/-! ## FMT -/

theorem exec_fmt_of_bad_radix {s : State} {ra : RegIx} {imm : BitVec 8} (ha : s.written ra = true)
    (h : ¬ (2 ≤ imm.toNat ∧ imm.toNat ≤ 36)) : exec (.fmt ra imm) s = .next (s.raise .invalidRadix) := by
  change execFmt ra imm s = _
  rw [execFmt, State.readV_written ha, if_pos (radixOk_iff.not.mpr h)]
  rfl

theorem exec_fmt_of_radix {s : State} {ra : RegIx} {imm : BitVec 8} (ha : s.written ra = true)
    (h : 2 ≤ imm.toNat ∧ imm.toNat ≤ 36) :
    exec (.fmt ra imm) s = .next (s.setText (formatValue imm.toNat (s.val ra))).succeed := by
  change execFmt ra imm s = _
  rw [execFmt, State.readV_written ha, if_neg (not_not.mpr (radixOk_iff.mpr h))]
  rfl

/-- Settles O28: the radix is checked first, and the digit loop writes the digits of the magnitude. -/
theorem fmtWritesDigits : Obligations.FmtWritesDigits := by
  intro s ra imm ha
  refine ⟨fun h => exec_fmt_of_bad_radix ha h, fun h2 h36 => ?_⟩
  rw [exec_fmt_of_radix ha ⟨h2, h36⟩, formatValue_eq h2]
  rfl

/-! ## PARSE of what FMT wrote -/

/-- A text just written stands in TB (10_state.md R33). -/
theorem State.textIs_setText (s : State) (cs : List Byte) : (s.setText cs).textIs cs :=
  fun j hj => Memory.read_writeBytes_same s.mem tbOffset j cs hj

/-- PARSE of a text in TB that stands for a representable value writes that value. -/
theorem exec_parse_of_isNumeral {s : State} {imm : BitVec 8} {cs : List Byte} {v : Int} (rd : RegIx)
    (hradix : 2 ≤ imm.toNat ∧ imm.toNat ≤ 36) (htext : s.textIs cs) (htlen : s.tlen.toNat = cs.length)
    (hlen : cs.length ≤ tbSize) (hnum : IsNumeral imm.toNat cs v) (hv : InRange s.cap v) :
    exec (.parse rd imm) s = .next (s.setV rd v).succeed := by
  rw [exec_parse_of_text rd hradix htext htlen hlen, parseString_eq_ok.mpr hnum]
  exact State.runNullary_fit_of_inRange rd hv

/-- Settles O29: what FMT writes fits TB and is a numeral of the value, and PARSE reads numerals. -/
theorem parseOfFmt : Obligations.ParseOfFmt := by
  intro s rd ra imm hinv ha h2 h36
  have hlen := length_formatValue_le hinv.capacity h2 (hinv.values ra)
  have htlen : (BitVec.ofNat 32 (formatValue imm.toNat (s.val ra)).length).toNat =
      (formatValue imm.toNat (s.val ra)).length := by
    rw [BitVec.toNat_ofNat]
    unfold tbSize at hlen
    omega
  exact ⟨_, exec_fmt_of_radix ha ⟨h2, h36⟩, exec_parse_of_isNumeral rd ⟨h2, h36⟩ (s.textIs_setText _) htlen hlen
    (isNumeral_formatValue h2 h36 _) (hinv.values ra)⟩

end Sys2Proof.Machine
end


section
/-! JACOBI of written operands: the recursion computes the Jacobi symbol (48_jacobi.md R183 to R187). -/

namespace Sys2Proof.Machine

/-! ## The powers of two -/

/-- Dividing out the powers of two leaves an odd number (48_jacobi.md R184). -/
theorem oddPart_spec {fuel a : Nat} (ha : 0 < a) (hfuel : a ≤ fuel) :
    a = 2 ^ (oddPart fuel a).1 * (oddPart fuel a).2 ∧ (oddPart fuel a).2 % 2 = 1 := by
  induction fuel generalizing a with
  | zero => omega
  | succ fuel ih =>
    rw [oddPart]
    split
    case isTrue heven =>
      obtain ⟨hval, hodd⟩ := ih (a := a / 2) (by omega) (by omega)
      refine ⟨?_, hodd⟩
      dsimp only
      rw [pow_succ', mul_assoc, ← hval]
      omega
    case isFalse hodd => exact ⟨(Nat.one_mul a).symm, by omega⟩

/-- The sign rule of `(2/b)` (48_jacobi.md R184). -/
def twoSign (e b : Nat) : Int := if e % 2 = 1 ∧ (b % 8 = 3 ∨ b % 8 = 5) then -1 else 1

/-- The sign rule of reciprocity (48_jacobi.md R184). -/
def reciprocitySign (b m : Nat) : Int := if b % 4 = 3 ∧ m % 4 = 3 then -1 else 1

theorem jacobiSym_two {b : Nat} (hb : b % 2 = 1) :
    jacobiSym 2 b = if b % 8 = 3 ∨ b % 8 = 5 then -1 else 1 := by
  have h := jacobiSym.even_odd (a := 2) rfl hb
  rw [show (2 : Int) / 2 = 1 from rfl, jacobiSym.one_left] at h
  exact h.symm

theorem jacobiSym_two_pow (e : Nat) {b : Nat} (hb : b % 2 = 1) : jacobiSym (2 ^ e) b = twoSign e b := by
  rw [jacobiSym.pow_left, jacobiSym_two hb, twoSign]
  by_cases hmod : b % 8 = 3 ∨ b % 8 = 5
  · rw [if_pos hmod]
    rcases Nat.even_or_odd e with he | he
    · rw [he.neg_one_pow, if_neg (by have := Nat.even_iff.mp he; omega)]
    · rw [he.neg_one_pow, if_pos ⟨Nat.odd_iff.mp he, hmod⟩]
  · rw [if_neg hmod, one_pow, if_neg fun h => hmod h.2]

/-- Reciprocity turns the symbol of two odd numbers over, and the upper one is reduced (48_jacobi.md R184). -/
theorem jacobiSym_odd {b m : Nat} (hb : b % 2 = 1) (hm : m % 2 = 1) :
    jacobiSym m b = reciprocitySign b m * jacobiSym ((b % m : Nat) : Int) m := by
  have hmod : jacobiSym ((b % m : Nat) : Int) m = jacobiSym b m := by
    rw [Int.natCast_mod, ← jacobiSym.mod_left]
  rw [hmod, ← jacobiSym.quadratic_reciprocity_if hm hb, reciprocitySign]
  by_cases hflip : b % 4 = 3 ∧ m % 4 = 3
  · rw [if_pos hflip, if_pos hflip.symm, neg_one_mul]
  · rw [if_neg hflip, if_neg (fun h => hflip h.symm), one_mul]

/-- Both sign rules together (48_jacobi.md R184). -/
theorem jacobiSym_two_pow_mul (e : Nat) {b m : Nat} (hb : b % 2 = 1) (hm : m % 2 = 1) :
    jacobiSym (2 ^ e * m) b = twoSign e b * (reciprocitySign b m * jacobiSym ((b % m : Nat) : Int) m) := by
  rw [jacobiSym.mul_left, jacobiSym_two_pow e hb, jacobiSym_odd hb hm]

/-- The sign rule of a negative `a` (48_jacobi.md R184). -/
theorem jacobiSym_neg {b : Nat} (a : Int) (hb : b % 2 = 1) :
    jacobiSym a b = if b % 4 = 1 then jacobiSym (-a) b else -jacobiSym (-a) b := by
  have h := jacobiSym.neg (-a) (Nat.odd_iff.mpr hb)
  rw [neg_neg] at h
  rw [h]
  split
  case isTrue hone => rw [ZMod.χ₄_nat_one_mod_four hone, one_mul]
  case isFalse hone => rw [ZMod.χ₄_nat_three_mod_four (by omega), neg_one_mul]

/-! ## The recursion -/

/-- The first step reduces `a` where it is not below `b` (48_jacobi.md R184). -/
def reduced (a : Int) (b : Nat) : Int := if a ≥ b then a % b else a

theorem reduced_lt (a : Int) {b : Nat} (hb : 0 < b) : reduced a b < b := by
  unfold reduced
  split
  · exact Int.emod_lt_of_pos _ (by omega)
  · omega

/-- Only a negative `a` is negative after it. -/
theorem reduced_neg_iff {a : Int} {b : Nat} : reduced a b < 0 ↔ a < 0 := by
  unfold reduced
  split
  case isTrue h =>
    rcases Nat.eq_zero_or_pos b with rfl | hb
    · simp
    · have := Int.emod_nonneg a (b := b) (by omega)
      omega
  case isFalse => rfl

theorem jacobiSym_reduced (a : Int) (b : Nat) : jacobiSym (reduced a b) b = jacobiSym a b := by
  unfold reduced
  split
  · exact (jacobiSym.mod_left a b).symm
  · rfl

section
variable {a : Int} {b : Nat} (fuel : Nat)

theorem jacobiRec_of_zero (h : reduced a b = 0) : jacobiRec (fuel + 1) a b = 0 := if_pos h

theorem jacobiRec_of_one (h : reduced a b = 1) : jacobiRec (fuel + 1) a b = 1 :=
  (if_neg (by rw [← reduced, h]; decide)).trans (if_pos h)

theorem jacobiRec_of_neg (h : reduced a b < 0) :
    jacobiRec (fuel + 1) a b =
      if b % 4 = 1 then jacobiRec fuel (-reduced a b) b else -jacobiRec fuel (-reduced a b) b := by
  have h0 : reduced a b ≠ 0 := by omega
  have h1 : reduced a b ≠ 1 := by omega
  exact (if_neg h0).trans ((if_neg h1).trans (if_pos h))

/-- From 2 on, both sign rules apply, and the recursion goes on unless the odd part is 1. -/
theorem jacobiRec_of_two_le {e m : Nat} (h : 2 ≤ reduced a b)
    (hodd : oddPart (reduced a b).toNat (reduced a b).toNat = (e, m)) :
    jacobiRec (fuel + 1) a b =
      if m = 1 then reciprocitySign b m * twoSign e b
      else reciprocitySign b m * twoSign e b * jacobiRec fuel ((b % m : Nat) : Int) m := by
  have h0 : reduced a b ≠ 0 := by omega
  have h1 : reduced a b ≠ 1 := by omega
  have hneg : ¬ reduced a b < 0 := by omega
  have hsign : reciprocitySign b m * twoSign e b = if b % 4 = 3 ∧ m % 4 = 3 then -twoSign e b else twoSign e b := by
    rw [reciprocitySign, ite_mul, neg_one_mul, one_mul]
  obtain ⟨rfl, rfl⟩ := Prod.mk.inj hodd
  rw [hsign]
  exact (if_neg h0).trans ((if_neg h1).trans (if_neg hneg))

end

/-- What a positive `a` splits into: a power of two and an odd part, which is not above it. -/
theorem oddPart_reduced {a : Int} {b e m : Nat} (h : 0 < reduced a b)
    (hparts : oddPart (reduced a b).toNat (reduced a b).toNat = (e, m)) :
    reduced a b = 2 ^ e * (m : Int) ∧ m % 2 = 1 ∧ (m : Int) ≤ reduced a b := by
  obtain ⟨hvalue, hm⟩ : (reduced a b).toNat = 2 ^ e * m ∧ m % 2 = 1 := by
    simpa only [hparts] using oddPart_spec (a := (reduced a b).toNat) (by omega) le_rfl
  have hle : m ≤ 2 ^ e * m := Nat.le_mul_of_pos_left m (Nat.two_pow_pos e)
  refine ⟨?_, hm, by omega⟩
  rw [← Int.toNat_of_nonneg h.le, hvalue]
  push_cast
  rfl

/-- The recursion for an odd `b` of 3 and more is the Jacobi symbol. A call on a smaller `b` has an `a` that is not negative,
so `b + 2` calls are enough, the first of which may turn the sign of `a` (48_jacobi.md R185, R186). -/
theorem jacobiRec_eq_jacobiSym {fuel : Nat} {a : Int} {b : Nat} (hb : 3 ≤ b) (hodd : b % 2 = 1) (hfuel : b < fuel)
    (hneg : a < 0 → b + 1 < fuel) : jacobiRec fuel a b = jacobiSym a b := by
  induction fuel generalizing a b with
  | zero => omega
  | succ fuel ih =>
    rw [← jacobiSym_reduced a b]
    rcases lt_or_ge (reduced a b) 0 with h | h
    · have ha : a < 0 := reduced_neg_iff.mp h
      rw [jacobiRec_of_neg fuel h, ih hb hodd (by omega) (by omega), jacobiSym_neg (reduced a b) hodd]
    · obtain h0 | h1 | h2 : reduced a b = 0 ∨ reduced a b = 1 ∨ 2 ≤ reduced a b := by omega
      · rw [jacobiRec_of_zero fuel h0, h0, jacobiSym.zero_left (by omega)]
      · rw [jacobiRec_of_one fuel h1, h1, jacobiSym.one_left]
      · obtain ⟨e, m, hparts⟩ : ∃ e m, oddPart (reduced a b).toNat (reduced a b).toNat = (e, m) := ⟨_, _, rfl⟩
        obtain ⟨hvalue, hm, hle⟩ := oddPart_reduced (by omega) hparts
        have hlt := reduced_lt a (b := b) (by omega)
        rw [jacobiRec_of_two_le fuel h2 hparts, hvalue, jacobiSym_two_pow_mul e hodd hm]
        split
        case isTrue hone =>
          rw [hone, jacobiSym.one_right]
          ring
        case isFalse hone =>
          rw [ih (by omega) hm (by omega) (by omega)]
          ring

/-! ## JACOBI -/

theorem jacobiOf_eq_jacobiSym (a : Int) {b : Nat} (hb : 3 ≤ b) (hodd : b % 2 = 1) : jacobiOf a b = jacobiSym a b :=
  jacobiRec_eq_jacobiSym hb hodd (by omega) (by omega)

theorem jacobiRec_one_of_nonneg (fuel : Nat) {a : Int} (ha : 0 ≤ a) : jacobiRec (fuel + 1) a 1 = 0 := by
  refine jacobiRec_of_zero fuel ?_
  unfold reduced
  split <;> omega

/-- For `b = 1` the source's recursion gives 0, where the mathematical symbol is 1 (48_jacobi.md R185). -/
theorem jacobiOf_one (a : Int) : jacobiOf a 1 = 0 := by
  rcases lt_or_ge a 0 with h | h
  · have hred : reduced a 1 < 0 := reduced_neg_iff.mpr h
    rw [jacobiOf, jacobiRec_of_neg _ hred, if_pos rfl, jacobiRec_one_of_nonneg _ (by omega)]
  · exact jacobiRec_one_of_nonneg _ h

theorem jacobiResult_of_odd (C : Nat) (a : Int) {b : Int} (hb : 0 < b) (hodd : b % 2 = 1) :
    jacobiResult C a b = .ok (jacobiOf a b.toNat) := if_neg (by omega)

/-- Settles O27: the second operand is checked first, and the recursion computes the symbol from `b = 3` on. -/
theorem jacobiIsTheSymbol : Obligations.JacobiIsTheSymbol := by
  rintro s rd ra rb a b ha hb rfl rfl
  refine ⟨fun h => ?_, fun h => ?_, fun h hodd => ?_⟩
  · exact State.runBinary_eq_runNullary (f := jacobiResult) rd ha hb (if_pos h)
  · refine State.runBinary_eq_runNullary rd ha hb ?_ (r := .ok 0)
    rw [h, jacobiResult_of_odd _ _ one_pos rfl]
    exact congrArg Except.ok (jacobiOf_one _)
  · refine State.runBinary_eq_runNullary rd ha hb ?_ (r := .ok _)
    rw [jacobiResult_of_odd _ _ (by omega) hodd, jacobiOf_eq_jacobiSym _ (by omega) (by omega)]

end Sys2Proof.Machine
end
